-- ==== Sys2Proof/Word.lean ====
section
/-! DEFINITION. The word types of the engine (00_scope.md R10): a word is 32 bits, a byte 8, and a GPIO register has
16 data bits. Addresses are natural numbers (R7, D10): no address computation wraps, so an address is not a bit vector. -/

namespace Sys2Proof

/-- A 32-bit word: what one register access moves (20_memory.md R54). -/
abbrev Word := BitVec 32

/-- The 16 data bits of a GPIO register, or the 16 write-enable bits of a word (10_state.md R28). -/
abbrev Half := BitVec 16

/-- A byte, bit 0 the least significant (R10). -/
abbrev Byte := BitVec 8

/-- A real duration in nanoseconds (00_scope.md R6, 46_line_and_receiver.md R212). DESIGN CHOICE (safe; log 30): a rational
number, so that a tick can be a fraction of a nanosecond, as in 95_test_vectors.md V-WAVE. -/
abbrev Duration := ℚ

end Sys2Proof
end

