-- ==== Sys2Proof/Config.lean ====
section
/-! DEFINITION. The parameters of the engine (00_scope.md R6, R7, R8) and the free values the spec leaves open
(93_implementation_defined.md U10, U11, U14). The parameters that U17 makes arguments of a model (those that R6 marks OPEN,
HALF_DIV by C1 and D7, LED_MAX by D29) are the fields of `Config`; the others, to which R6 gives a value, are named
constants. -/

namespace Sys2Proof

/-! The parameters with a value of D00 or of the spec (R6). -/

/-- Largest legal bank index. -/
abbrev BANK_MAX : Nat := 4
/-- Largest legal pin index. -/
abbrev PIN_MAX : Nat := 31
/-- Address distance between banks 1, 2, 3, 4. -/
abbrev BANK_STRIDE : Nat := 0x10000
/-- Modulus of the bit-offset calculation. -/
abbrev BIT_MOD : Nat := 16
/-- Offset of the level register, low half. -/
abbrev LEVEL_OFF : Nat := 0x00
/-- Offset of the direction register, low half. -/
abbrev DIR_OFF : Nat := 0x08
/-- Offset added for the high half. -/
abbrev HALF_STRIDE : Nat := 0x04
/-- Distance from a data bit to its write-enable bit. -/
abbrev MASK_SHIFT : Nat := 16
/-- Size of the request block in bytes (D3). -/
abbrev REQ_SIZE : Nat := 16

/-! The tolerance bands of D00's table, in nanoseconds (R6; 30_encoding.md R87). -/

abbrev T0H_MIN : Duration := 220
abbrev T0H_MAX : Duration := 380
abbrev T0L_MIN : Duration := 580
abbrev T0L_MAX : Duration := 1600
abbrev T1H_MIN : Duration := 580
abbrev T1H_MAX : Duration := 1000
abbrev T1L_MIN : Duration := 220
abbrev T1L_MAX : Duration := 420
/-- A reset's low time must be strictly greater than this. -/
abbrev TRST_MIN : Duration := 280000

/-- The parameters the model takes as an argument (R6; U17). -/
@[ext]
structure Config where
  /-- HALF_DIV, 15 in D00, legal values 15 and 16 (C1, D7). -/
  halfDiv : Nat
  /-- GPIO0_BASE, the base address of bank 0 (D9). -/
  gpio0Base : Nat
  /-- GPIO1_BASE, the base address of bank 1 (D9). -/
  gpio1Base : Nat
  /-- N0H, high writes of a Bit-0 pulse (D14). -/
  n0h : Nat
  /-- N0L, low writes of a Bit-0 pulse. -/
  n0l : Nat
  /-- N1H, high writes of a Bit-1 pulse. -/
  n1h : Nat
  /-- N1L, low writes of a Bit-1 pulse. -/
  n1l : Nat
  /-- NRST, ticks of a reset pulse (D15). -/
  nrst : Nat
  /-- TICK_NS, the nominal duration of a tick (D16). R6 says only "positive": any positive rational (log 30). -/
  tickNs : Duration
  /-- LED_MAX, the largest legal position, 20 in D00 (D29). -/
  ledMax : Nat
  /-- HAS_TEST_MODE (D27). -/
  hasTestMode : Bool
  deriving DecidableEq, Repr

/-- The constraints R6 and R7 (a), (b) put on the parameters: HALF_DIV in {15, 16}, counts at least 1, a positive tick, bases
multiples of 4, and the sixteen addresses of bank 0 apart from those of banks 1 to 4 (those are apart by the stride). -/
abbrev Config.wf (c : Config) : Prop :=
  (c.halfDiv = 15 ∨ c.halfDiv = 16) ∧
  c.gpio0Base % 4 = 0 ∧ c.gpio1Base % 4 = 0 ∧
  (∀ k ∈ [0, 1, 2, 3], c.gpio0Base + 0x10 ≤ c.gpio1Base + k * BANK_STRIDE ∨
    c.gpio1Base + k * BANK_STRIDE + 0x10 ≤ c.gpio0Base) ∧
  1 ≤ c.n0h ∧ 1 ≤ c.n0l ∧ 1 ≤ c.n1h ∧ 1 ≤ c.n1l ∧ 1 ≤ c.nrst ∧ 0 < c.tickNs

/-- R7 (c): the calibration is nominally conformant. The engine does not check it (R268). -/
abbrev Config.nominal (c : Config) : Prop :=
  (T0H_MIN ≤ c.n0h * c.tickNs ∧ c.n0h * c.tickNs ≤ T0H_MAX) ∧
  (T0L_MIN ≤ c.n0l * c.tickNs ∧ c.n0l * c.tickNs ≤ T0L_MAX) ∧
  (T1H_MIN ≤ c.n1h * c.tickNs ∧ c.n1h * c.tickNs ≤ T1H_MAX) ∧
  (T1L_MIN ≤ c.n1l * c.tickNs ∧ c.n1l * c.tickNs ≤ T1L_MAX) ∧
  TRST_MIN < c.nrst * c.tickNs

/-- R8: the spec's illustrations EXAMPLE_MAP and EXAMPLE_CAL, with D00's HALF_DIV and LED_MAX and the test mode present.
DESIGN CHOICE (unsafe where a claim rests on the numbers; log 3): the configuration `State.reset` carries. -/
def Config.illustration : Config where
  halfDiv := 15
  gpio0Base := 0xFDD60000
  gpio1Base := 0xFE740000
  n0h := 1
  n0l := 3
  n1h := 3
  n1l := 1
  nrst := 1121
  tickNs := 250
  ledMax := 20
  hasTestMode := true

/-! The free values. They have no body, so nothing can be proved of them; each is applied to the number of the draw, so
that every draw is a fresh value. -/

/-- U11, D21: the environment's answer to the draw-numbered acquisition of an address (44_pin_lifecycle.md R160). -/
opaque Config.freeAcq : Nat → Nat → Bool

/-- U10, D23: bits 31:16 of the word that the draw-numbered read of an address returns (20_memory.md R58). -/
opaque Config.freeUpper : Nat → Nat → Half

/-- U14: the byte at an address of the register space that nothing has written since reset (10_state.md R35). -/
opaque Config.powerOnByte : Nat → Byte

end Sys2Proof
end

