-- ==== Sys2Proof/Syntax.lean ====
section
/-! DEFINITION. The instructions of the engine: every row of spec/opcode_table.json is a constructor of `Instr`
(00_scope.md R9, 30_encoding.md R88), and the forms in which a command or a pulse is encoded (R80). -/

namespace Sys2Proof

/-- The decoded fields of a request block (R81), and the six latch registers (10_state.md R21). -/
@[ext]
structure Request where
  bank : Word
  pin : Word
  pos : Word
  r : Byte
  g : Byte
  b : Byte
  deriving DecidableEq, Repr

/-- The instructions, in the order of the opcode table. -/
inductive Instr where
  /-- OPEN, host command (45_host_operations.md R180). -/
  | openCmd
  /-- WRITE, host command, with its request block of any length (R181). -/
  | writeCmd (blk : List Byte)
  /-- CLOSE, host command (R186). -/
  | closeCmd
  /-- VALIDATE of the decoded fields (R182). -/
  | validate (bank pin pos : Word)
  /-- CORE_WRITE of the latched request (R184). -/
  | coreWrite
  /-- RESOLVE (40_pin_resolver.md R100). -/
  | resolve (bank pin : Word)
  /-- ACQUIRE of a register address (44_pin_lifecycle.md R160). -/
  | acquire (addr : Nat)
  /-- PIN_OPEN, the open phase (R163). -/
  | pinOpen (bank pin : Word)
  /-- RELEASE, the close phase (R166). -/
  | release
  /-- CHAIN (43_chain_writer.md R145). -/
  | chain (p : Word) (r g b : Byte)
  /-- BYTE (42_byte_encoder.md R135). -/
  | byte (v : Byte)
  /-- BIT0 (41_pulse_primitives.md R116). -/
  | bit0
  /-- BIT1 (R117). -/
  | bit1
  /-- RESET, the reset pulse (R118). -/
  | resetPulse
  /-- RD_DIR (44_pin_lifecycle.md R164). -/
  | rdDir
  /-- WR_DIR (R164). -/
  | wrDir
  /-- RD_LVL (R165). -/
  | rdLvl
  /-- WR_LVL_INIT (R165). -/
  | wrLvlInit
  /-- WR_HIGH (41_pulse_primitives.md R115). -/
  | wrHigh
  /-- WR_LOW (R115). -/
  | wrLow
  /-- DWELL (R119). -/
  | dwell
  deriving DecidableEq, Repr

/-- The micro-operations: what the sequencer runs, one a step (10_state.md R26, 45_host_operations.md R191). -/
inductive MicroOp where
  | rdDir | wrDir | rdLvl | wrLvlInit | wrHigh | wrLow | dwell
  deriving DecidableEq, Repr

/-- A micro-operation as an instruction. -/
def MicroOp.toInstr : MicroOp → Instr
  | .rdDir => .rdDir
  | .wrDir => .wrDir
  | .rdLvl => .rdLvl
  | .wrLvlInit => .wrLvlInit
  | .wrHigh => .wrHigh
  | .wrLow => .wrLow
  | .dwell => .dwell

/-- The pulse primitives (00_scope.md R14 "Primitive"): the alphabet of a primitive trace (R13). -/
inductive Prim where
  | bit0 | bit1 | reset
  deriving DecidableEq, Repr

/-- A primitive as an instruction. -/
def Prim.toInstr : Prim → Instr
  | .bit0 => .bit0
  | .bit1 => .bit1
  | .reset => .resetPulse

/-- A host command as the host hands it over: the hook selector `cmd` of R85 and the bytes of the request block, empty for
the format HOOK (R80). The pair is the model's form of a call of one of the three hooks; `cmd` is no part of the block. -/
structure Submission where
  cmd : BitVec 2
  block : List Byte
  deriving DecidableEq, Repr

/-- An encoding at one of the two levels that have one (R80, R88): a host command, or the data bit of a pulse (R87). -/
inductive Encoded where
  | command (c : Submission)
  | pulse (bit : Bool)
  deriving DecidableEq, Repr

/-- The formats of the opcode table. -/
inductive Format where
  | hook | req16 | pulse | none
  deriving DecidableEq, Repr

/-- The format the opcode table gives each row. -/
def Instr.format : Instr → Format
  | .openCmd => .hook
  | .writeCmd _ => .req16
  | .closeCmd => .hook
  | .validate _ _ _ => .none
  | .coreWrite => .none
  | .resolve _ _ => .none
  | .acquire _ => .none
  | .pinOpen _ _ => .none
  | .release => .none
  | .chain _ _ _ _ => .none
  | .byte _ => .none
  | .bit0 => .pulse
  | .bit1 => .pulse
  | .resetPulse => .none
  | .rdDir => .none
  | .wrDir => .none
  | .rdLvl => .none
  | .wrLvlInit => .none
  | .wrHigh => .none
  | .wrLow => .none
  | .dwell => .none

end Sys2Proof
end

