-- ==== Sys2Proof/WellFormed.lean ====
section
/-! DEFINITION. When an instruction's operands lie in the domain its rule gives. Most operands are typed by their width, so
three checks remain. An operand that a rule of the spec REJECTS with a failure (a bank above 4, a block of another size) is
well formed: its effect is that failure. -/

namespace Sys2Proof

/-- ACQUIRE takes one register address, and every register address is a multiple of 4 (44_pin_lifecycle.md R160,
20_memory.md R55); CHAIN is defined for every p of at least 1 (43_chain_writer.md R151). -/
def Instr.wellFormed : Instr → Bool
  | .openCmd => true
  | .writeCmd _ => true
  | .closeCmd => true
  | .validate _ _ _ => true
  | .coreWrite => true
  | .resolve _ _ => true
  | .acquire a => a % 4 == 0
  | .pinOpen _ _ => true
  | .release => true
  | .chain p _ _ _ => p != 0
  | .byte _ => true
  | .bit0 => true
  | .bit1 => true
  | .resetPulse => true
  | .rdDir => true
  | .wrDir => true
  | .rdLvl => true
  | .wrLvlInit => true
  | .wrHigh => true
  | .wrLow => true
  | .dwell => true

/-- A submission is well formed when it is a call of one of the three hooks (R80, R85): `cmd` is 0, 1 or 2, and only a
WRITE carries a block. -/
def Submission.wellFormed (c : Submission) : Bool :=
  c.cmd != 3 && (c.cmd == 1 || c.block.isEmpty)

end Sys2Proof
end

