-- ==== Sys2Proof/Decode.lean ====
section
/-! DEFINITION. Decoding and encoding at the levels of 30_encoding.md R80: the host command (R85), the request block of a
WRITE (R81, R82) and the data bit of a pulse (R87). The internal operations have no encoding (R88). -/

namespace Sys2Proof

/-- Why a submission is no command. -/
inductive DecodeError where
  /-- `cmd = 3` selects no hook (R84 (e), R85; U9). -/
  | noSuchCommand
  /-- A hook that carries nothing was given a block (R80; log 12). -/
  | operandOnHook
  deriving DecidableEq, Repr

/-- The command level (R85). The block of a WRITE is not looked at here: its size is WRITE's own check (R84 (a)). -/
def decodeCommand (c : Submission) : Except DecodeError Instr :=
  match c.cmd.toNat, c.block with
  | 0, [] => .ok .openCmd
  | 1, blk => .ok (.writeCmd blk)
  | 2, [] => .ok .closeCmd
  | 3, _ => .error .noSuchCommand
  | _, _ => .error .operandOnHook

/-- The primitive a data bit selects (R87; the function `prim` of 42_byte_encoder.md R135). -/
def primOfBit (bit : Bool) : Prim := if bit then .bit1 else .bit0

/-- Decoding at either level. -/
def decode : Encoded → Except DecodeError Instr
  | .command c => decodeCommand c
  | .pulse bit => .ok (primOfBit bit).toInstr

/-- Encoding: the hook selectors of R85, the data bits of R87, and `none` for format NONE (R88). -/
def encode : Instr → Option Encoded
  | .openCmd => some (.command ⟨0, []⟩)
  | .writeCmd blk => some (.command ⟨1, blk⟩)
  | .closeCmd => some (.command ⟨2, []⟩)
  | .validate _ _ _ => none
  | .coreWrite => none
  | .resolve _ _ => none
  | .acquire _ => none
  | .pinOpen _ _ => none
  | .release => none
  | .chain _ _ _ _ => none
  | .byte _ => none
  | .bit0 => some (.pulse false)
  | .bit1 => some (.pulse true)
  | .resetPulse => none
  | .rdDir => none
  | .wrDir => none
  | .rdLvl => none
  | .wrLvlInit => none
  | .wrHigh => none
  | .wrLow => none
  | .dwell => none

/-! ## The request block -/

/-- A u32 field, least significant byte first (R82, 20_memory.md R56). -/
def le32 (b0 b1 b2 b3 : Byte) : Word :=
  BitVec.ofNat 32 (b0.toNat + 256 * b1.toNat + 65536 * b2.toNat + 16777216 * b3.toNat)

/-- R82: the fields of a block of REQ_SIZE bytes; byte 15, the pad, is not read (R84 (c)). `none` for any other length. -/
def requestOfBlock : List Byte → Option Request
  | [b0, b1, b2, b3, b4, b5, b6, b7, b8, b9, b10, b11, b12, b13, b14, _] =>
    some { bank := le32 b0 b1 b2 b3, pin := le32 b4 b5 b6 b7, pos := le32 b8 b9 b10 b11, r := b12, g := b13, b := b14 }
  | _ => none

/-- Byte `k` of a word, byte 0 the least significant. -/
def byteOfWord (w : Word) (k : Nat) : Byte := w.extractLsb' (8 * k) 8

/-- The four bytes of a u32 field in block order. -/
def bytesOfWord (w : Word) : List Byte := [byteOfWord w 0, byteOfWord w 1, byteOfWord w 2, byteOfWord w 3]

/-- R81: the block of a request, with a given pad byte. -/
def blockOfRequest (q : Request) (pad : Byte) : List Byte :=
  bytesOfWord q.bank ++ bytesOfWord q.pin ++ bytesOfWord q.pos ++ [q.r, q.g, q.b, pad]

/-! ## Words numbered as the opcode table numbers them -/

/-- The submission whose bits are `w`, cut to `nbits`: `cmd` is bits 1:0 as in the table, and byte `k` of a WRITE's block is
bits `8k + 15` to `8k + 8`, after the byte that holds `cmd` (DESIGN CHOICE, log 11). -/
def submissionOfWord (nbits w : Nat) : Submission :=
  let v := w % 2 ^ nbits
  { cmd := BitVec.ofNat 2 v
    block := if v % 4 = 1 then (List.range REQ_SIZE).map (fun k => BitVec.ofNat 8 (v / 2 ^ (8 * k + 8))) else [] }

/-- The instruction the decoder reads from a table word. The table's words are the words of the command level: the pulse
level's one bit has the same words, no bit tells them apart, and the format NONE has no word at all (R88; log 11). -/
def decodeTableWord (nbits w : Nat) : Option Instr :=
  if nbits = 0 then none
  else
    match decode (.command (submissionOfWord nbits w)) with
    | .ok i => some i
    | .error _ => none

end Sys2Proof
end

