-- ==== Sys2Proof/Machine/State.lean ====
section
/-! DEFINITION. The state of the engine and of the GPIO banks it drives (10_state.md R20 to R31), the reasons a step can stop
(60_exceptions.md R232), and the state after reset (R35, R260). -/

namespace Sys2Proof.Machine

/-- STATUS: the outcome of a command (R27, R230). -/
inductive Status where
  | ok | invalidRequest | invalidAddressParameters | resourceUnavailable
  deriving DecidableEq, Repr

/-- The field an InvalidRequest names (R230). -/
inductive BadField where
  | size | bank | pin | position
  deriving DecidableEq, Repr

/-- A failure of WRITE with the information R230 records. -/
inductive Failure where
  | invalidRequest (field : BadField)
  | invalidAddressParameters (bank pin : Word)
  | resourceUnavailable (addr : Nat)
  deriving DecidableEq, Repr

/-- The events of the trace (00_scope.md R13). -/
inductive Event where
  | rd (addr : Nat) (v : Word)
  | wr (addr : Nat) (v : Word)
  | dwell
  | acq (addr : Nat) (ok : Bool)
  | rel (addr : Nat)
  | ret (code : Status)
  deriving DecidableEq, Repr

/-- A stretch of the line: its level and its length in ticks (41_pulse_primitives.md R121); a pair of the test mode's
record (R123). -/
abbrev Segment := Bool × Nat

/-- The mapped binding (R22): B_DIR, B_LVL, B_OFF. -/
@[ext]
structure Binding where
  dir : Nat
  lvl : Nat
  off : Fin 16
  deriving DecidableEq, Repr

/-- Memory: the data bits of the GPIO registers, as bytes by address, in one canonical form (`Memory.wf`). -/
abbrev Memory := List Host.Cell

/-- Why the machine stops with a fault: a precondition of a rule was broken (R232). No fault is reached by a step from a
state that meets the invariant `EngineInv` of Safety.lean. -/
inductive Fault where
  /-- Raised by every micro-operation that accesses a register while B_MAPPED = 0, when B_DIR, B_LVL and B_OFF hold no value
  and must not be read (R22, R36; R122). Safe: the spec gives such a read no meaning. -/
  | bindingUnmapped
  /-- Raised by `Release` of an address that is not in HELD (44_pin_lifecycle.md R161; U3). Safe: the spec makes it a fault. -/
  | notHeld (addr : Nat)
  /-- Raised by a register access at an address that is none of the twenty registers (20_memory.md R52, R53). Safe: the spec
  says nothing about any other address. -/
  | outsideRegisterMap (addr : Nat)
  deriving DecidableEq, Repr

/-- Why the machine refuses: the spec gives the situation no meaning (R232). -/
inductive Refusal where
  /-- An instruction whose arm has no meaning yet; raised by no arm. Safe. -/
  | notModelled (mnemonic : String)
  /-- Raised by RESOLVE and what calls it for a pin with `step` above 1 (40_pin_resolver.md R102; U1). Safe. -/
  | noRegisterForPin (pin : Word)
  /-- Raised by CHAIN, CORE_WRITE and the sequencer for position 0 (43_chain_writer.md R151; U2). Safe. -/
  | chainPositionZero
  /-- Raised by OPEN, WRITE and CLOSE while BUSY = 1 (45_host_operations.md R194; U4). `step` never gets there: it takes no
  command while BUSY = 1. Unsafe as U4 says: a host that disobeys is not modelled. -/
  | commandWhileBusy
  /-- Raised by a step that finds a submission with `cmd = 3` (R188; U9). Safe. -/
  | noSuchCommand
  /-- Raised by a step that finds an OPEN or a CLOSE with a block (30_encoding.md R80). Safe. -/
  | operandOnHook
  deriving DecidableEq, Repr

/-- The state. The first group is the engine's registers, the second the sequencer and the flags, the third hidden state and
the environment the spec gives, the fourth the parameters, and the fifth the model's own fields. -/
@[ext]
structure State where
  /-- RQ_BANK, RQ_PIN, RQ_POS, RQ_R, RQ_G, RQ_B (R21). -/
  latch : Request
  /-- B_DIR, B_LVL, B_OFF while B_MAPPED = 1; `none` is the sentinel B_MAPPED = 0 (R22). -/
  binding : Option Binding
  /-- TEMP, the shadow word (R23). -/
  temp : Word
  /-- DTMP, the direction scratch (R24). -/
  dtmp : Word
  /-- BUSY (R25). -/
  busy : Bool
  /-- UPC (R26). -/
  upc : Nat
  /-- STATUS (R27). -/
  status : Status
  /-- The information recorded with the failure that STATUS names (R230), `none` when it names none. -/
  cause : Option Failure
  /-- HELD, a set held as a strictly rising list (R29). -/
  held : List Nat
  /-- The data bits of the GPIO registers (R28, R30). -/
  mem : Memory
  /-- The trace, newest event first (00_scope.md R13, R31). -/
  traceRev : List Event
  /-- NOW, ticks of the timed window so far (R31). -/
  now : Nat
  /-- Whether the test mode is on (41_pulse_primitives.md R123). -/
  testMode : Bool
  /-- The test mode's record, newest pair first (R123). -/
  recordRev : List Segment
  /-- The parameters (R32: not state; no step changes them). -/
  cfg : Config
  /-- The host's pending commands, oldest first: the model's own field. -/
  inbox : List Submission
  /-- The answers `acq` will give, oldest first: the model's own field. -/
  acqDraws : List Bool
  /-- The upper halves that reads will return, oldest first: the model's own field. -/
  upperDraws : List Half
  /-- The number of the next draw that is listed nowhere: the model's own field. -/
  drawCount : Nat
  deriving DecidableEq, Repr

/-- The trace in issue order. -/
def State.trace (s : State) : List Event := s.traceRev.reverse

/-- The test mode's record in order. -/
def State.record (s : State) : List Segment := s.recordRev.reverse

/-- B_MAPPED (R22). -/
def State.mapped (s : State) : Bool := s.binding.isSome

/-- The state after reset (R35, R260): B_MAPPED = 0, HELD empty, BUSY = 0, STATUS = OK, trace empty, NOW = 0. The registers
to which R35 gives no value hold 0 (DESIGN CHOICE, unsafe, log 4); memory lists nothing (log 6); the configuration is the
spec's illustration (DESIGN CHOICE, log 3); the test mode is off and its record,
which R35 does not list, is empty (DESIGN CHOICE, log 10); no failure is recorded (log 18); no command and no draw is listed (logs 2, 9). -/
def State.reset : State where
  latch := { bank := 0, pin := 0, pos := 0, r := 0, g := 0, b := 0 }
  binding := none
  temp := 0
  dtmp := 0
  busy := false
  upc := 0
  status := .ok
  cause := none
  held := []
  mem := []
  traceRev := []
  now := 0
  testMode := false
  recordRev := []
  cfg := Config.illustration
  inbox := []
  acqDraws := []
  upperDraws := []
  drawCount := 0

end Sys2Proof.Machine
end

