-- ==== Sys2Proof/Machine/Ops.lean ====
section
/-! DEFINITION. The named operations every meaning is written over: one-field updates of State, sequencing of outcomes, the
environment's draws, the GPIO register space (20_memory.md), HELD (44_pin_lifecycle.md R160, R161), and taking a failure
(60_exceptions.md R236). There is no return from a failure (R238), so no operation stands beside `raise`. -/

namespace Sys2Proof.Machine

/-! ## One-field updates -/

namespace State

def setLatch (s : State) (q : Request) : State := { s with latch := q }
def setBinding (s : State) (b : Option Binding) : State := { s with binding := b }
def setTemp (s : State) (w : Word) : State := { s with temp := w }
def setDtmp (s : State) (w : Word) : State := { s with dtmp := w }
def setBusy (s : State) (b : Bool) : State := { s with busy := b }
def setUpc (s : State) (n : Nat) : State := { s with upc := n }
def setStatus (s : State) (x : Status) : State := { s with status := x }
def setCause (s : State) (x : Option Failure) : State := { s with cause := x }
def setHeld (s : State) (h : List Nat) : State := { s with held := h }
def setMem (s : State) (m : Memory) : State := { s with mem := m }
def setNow (s : State) (n : Nat) : State := { s with now := n }
def setInbox (s : State) (q : List Submission) : State := { s with inbox := q }
def setAcqDraws (s : State) (l : List Bool) : State := { s with acqDraws := l }
def setUpperDraws (s : State) (l : List Half) : State := { s with upperDraws := l }
def setDrawCount (s : State) (n : Nat) : State := { s with drawCount := n }

/-- `emit(e)` (00_scope.md R12, R13). -/
def emit (s : State) (e : Event) : State := { s with traceRev := e :: s.traceRev }

/-- Append a pair to the test mode's record (41_pulse_primitives.md R123). -/
def addRecord (s : State) (p : Segment) : State := { s with recordRev := p :: s.recordRev }

/-- One tick of the timed window passes (45_host_operations.md R190). -/
def tick (s : State) : State := s.setNow (s.now + 1)

/-- The test mode exists and is on (R123). -/
def testing (s : State) : Bool := s.cfg.hasTestMode && s.testMode

end State

/-! ## Outcomes -/

/-- The outcome of an operation that yields an `α`. -/
abbrev Out (α : Type) := Host.Outcome α Fault Refusal

/-- Run `f` on what `o` yields; a fault or a refusal ends it. -/
def andThen {α β : Type} (o : Out α) (f : α → Out β) : Out β :=
  match o with
  | .next a => f a
  | .fault e => .fault e
  | .refused r => .refused r

/-- What an internal operation leaves: the command goes on, or it has been ended by `raise` (R236). -/
inductive Flow where
  | going (s : State)
  | raised (s : State)
  deriving DecidableEq, Repr

/-- The state, whichever it is. -/
def Flow.state : Flow → State
  | .going s => s
  | .raised s => s

/-- Go on with `f` unless a failure was raised: after a raise "no later statement runs" (R236). -/
def thenGo (o : Out Flow) (f : State → Out Flow) : Out Flow :=
  andThen o fun
    | .going s => f s
    | .raised s => .next (.raised s)

/-- An operation that cannot raise, as one that could. -/
def going (o : Out State) : Out Flow := andThen o fun s => .next (.going s)

/-- The outcome of an instruction: a raise is a next state. -/
def settle (o : Out Flow) : Out State := andThen o fun f => .next f.state

/-- Run `f` over a list, front to back (R60: nothing is reordered, merged, dropped or repeated). -/
def runList {α : Type} (f : α → State → Out State) : List α → State → Out State
  | [], s => .next s
  | a :: rest, s => andThen (f a s) (runList f rest)

/-! ## Taking a failure -/

/-- The status a failure is reported as (R230). -/
def Failure.status : Failure → Status
  | .invalidRequest _ => .invalidRequest
  | .invalidAddressParameters _ _ => .invalidAddressParameters
  | .resourceUnavailable _ => .resourceUnavailable

/-- The state after `raise E(info)`: STATUS, BUSY, Ret and nothing else (R236). Recording the information of R230 in `cause`
is the model's bookkeeping (log 18). -/
def failWith (e : Failure) (s : State) : State :=
  (((s.setStatus e.status).setCause (some e)).setBusy false).emit (.ret e.status)

/-- `raise E(info)`: the one operation by which every failure is taken (R236). -/
def raise (e : Failure) (s : State) : Out Flow := .next (.raised (failWith e s))

/-! ## The environment's draws -/

/-- The answer of `acq` for an address, and the state after the draw (R160, U11). -/
def drawAcq (a : Nat) (s : State) : Bool × State :=
  match s.acqDraws with
  | x :: rest => (x, s.setAcqDraws rest)
  | [] => (Config.freeAcq s.drawCount a, s.setDrawCount (s.drawCount + 1))

/-- Bits 31:16 of a word read, and the state after the draw (20_memory.md R58, U10). -/
def drawUpper (a : Nat) (s : State) : Half × State :=
  match s.upperDraws with
  | x :: rest => (x, s.setUpperDraws rest)
  | [] => (Config.freeUpper s.drawCount a, s.setDrawCount (s.drawCount + 1))

/-! ## The GPIO register space -/

/-- R51. -/
def bankBase (c : Config) (bank : Nat) : Nat :=
  if bank = 0 then c.gpio0Base else c.gpio1Base + (bank - 1) * BANK_STRIDE

/-- The four registers of a bank: LEVEL_L, LEVEL_H, DIR_L, DIR_H (R52). -/
def bankRegisters (c : Config) (bank : Nat) : List Nat :=
  [bankBase c bank + LEVEL_OFF, bankBase c bank + LEVEL_OFF + HALF_STRIDE,
   bankBase c bank + DIR_OFF, bankBase c bank + DIR_OFF + HALF_STRIDE]

/-- The twenty register addresses (R52). -/
def registerAddrs (c : Config) : List Nat := (List.range (BANK_MAX + 1)).flatMap (bankRegisters c)

/-- Whether an address is one of the twenty. -/
def isRegister (c : Config) (a : Nat) : Bool := (registerAddrs c).contains a

/-- The byte listed at an address. -/
def Memory.lookup : Memory → Nat → Option Byte
  | [], _ => none
  | (x, v) :: m, a => if x = a then some v else Memory.lookup m a

/-- Store one byte, keeping the addresses strictly rising. -/
def Memory.store : Memory → Nat → Byte → Memory
  | [], a, v => [(a, v)]
  | (x, u) :: m, a, v =>
    if a < x then (a, v) :: (x, u) :: m
    else if a = x then (a, v) :: m
    else (x, u) :: Memory.store m a v

/-- The canonical form: addresses strictly rising. An unlisted address holds no listed byte, so that no entry can equal what
an unlisted address reads as. -/
abbrev Memory.wf (m : Memory) : Prop := m.Pairwise (fun p q => p.1 < q.1)

/-- Reading one byte. What an unlisted address reads as is the free value `Config.powerOnByte` (R35, U14; log 6). -/
def readByte (m : Memory) (a : Nat) : Byte := (m.lookup a).getD (Config.powerOnByte a)

/-- The 16 data bits of the register at an address: bits 7:0 at the address, bits 15:8 at the next (log 6). The
write-enable half of a word is not stored: it has no register bit (R57, R58). -/
def regData (m : Memory) (a : Nat) : Half := readByte m (a + 1) ++ readByte m a

/-- Bits 15:0 of a word. -/
def dataHalf (w : Word) : Half := w.extractLsb' 0 16

/-- Bits 31:16 of a word. -/
def maskHalf (w : Word) : Half := w.extractLsb' MASK_SHIFT 16

/-- R57: data bit n takes `w[n]` where `w[16 + n]` is 1, and keeps its value where it is 0. -/
def maskedWrite (old : Half) (w : Word) : Half :=
  (old &&& ~~~(maskHalf w)) ||| (dataHalf w &&& maskHalf w)

/-- Store a register's 16 data bits. -/
def storeData (m : Memory) (a : Nat) (d : Half) : Memory :=
  (m.store a (d.extractLsb' 0 8)).store (a + 1) (d.extractLsb' 8 8)

/-- `MemWrite(addr, 4, w)` with its event (R57; 00_scope.md R12, R13). -/
def memWrite (a : Nat) (w : Word) (s : State) : Out State :=
  if isRegister s.cfg a then
    .next ((s.setMem (storeData s.mem a (maskedWrite (regData s.mem a) w))).emit (.wr a w))
  else .fault (.outsideRegisterMap a)

/-- The word a read of a register returns, and the state after the draw of its upper half (R58). -/
def readWord (a : Nat) (s : State) : Word × State :=
  ((drawUpper a s).1 ++ regData s.mem a, (drawUpper a s).2)

/-- `MemRead(addr, 4)` with its event (R58; R12, R13). -/
def memRead (a : Nat) (s : State) : Out (Word × State) :=
  if isRegister s.cfg a then
    .next ((readWord a s).1, (readWord a s).2.emit (.rd a (readWord a s).1))
  else .fault (.outsideRegisterMap a)

/-! ## HELD -/

/-- The canonical form of HELD: strictly rising (log 27). -/
abbrev heldWf (h : List Nat) : Prop := h.Pairwise (· < ·)

/-- Add an address to the set. -/
def heldInsert (a : Nat) : List Nat → List Nat
  | [] => [a]
  | x :: h => if a < x then a :: x :: h else if a = x then x :: h else x :: heldInsert a h

/-- Take an address out of the set. -/
def heldErase (a : Nat) (h : List Nat) : List Nat := h.filter (fun x => x != a)

/-- `Acquire(a)` (R160): the answer and the state after it. -/
def acquire (a : Nat) (s : State) : Bool × State :=
  let answer := drawAcq a s
  let s' := answer.2.emit (.acq a answer.1)
  (answer.1, if answer.1 then s'.setHeld (heldInsert a s'.held) else s')

/-- `Release(a)` (R161); an address that is not held is a fault (U3). -/
def releaseAddr (a : Nat) (s : State) : Out State :=
  if a ∈ s.held then .next ((s.setHeld (heldErase a s.held)).emit (.rel a)) else .fault (.notHeld a)

/-! ## The binding -/

/-- Use B_DIR, B_LVL, B_OFF. While B_MAPPED = 0 they hold no value and must not be read (10_state.md R22, R36; log 5). -/
def withBinding (s : State) (f : Binding → Out State) : Out State :=
  match s.binding with
  | some b => f b
  | none => .fault .bindingUnmapped

/-- RELEASE (R166): each address is released only if the binding is mapped (C3). -/
def releaseBinding (s : State) : Out State :=
  match s.binding with
  | none => .next s
  | some b => andThen (releaseAddr b.dir s) fun s1 =>
      andThen (releaseAddr b.lvl s1) fun s2 => .next (s2.setBinding none)

end Sys2Proof.Machine
end

