-- ==== Sys2Proof/Machine/Operands.lean ====
section
/-! DEFINITION. The operand forms: single bits of a word (00_scope.md R11), the bits of a byte in sending order
(42_byte_encoder.md R135), and the bytes of a request in sending order (30_encoding.md R86). -/

namespace Sys2Proof.Machine

/-- `bit(n)` (R11). -/
def bit (n : Nat) : Word := BitVec.twoPow 32 n

/-- `w | bit(off)`: what WR_HIGH does to the shadow (41_pulse_primitives.md R115). -/
def setPin (w : Word) (off : Fin 16) : Word := w ||| bit off

/-- `w & ~bit(off)`: what WR_LOW does to the shadow (R115). -/
def clearPin (w : Word) (off : Fin 16) : Word := w &&& ~~~(bit off)

/-- `w | bit(off) | bit(off + 16)`: a data bit set together with its write-enable bit (44_pin_lifecycle.md R164, R165). -/
def enablePin (w : Word) (off : Fin 16) : Word := w ||| bit off ||| bit (off + MASK_SHIFT)

/-- The bits of a byte, most significant first (R135). -/
def bitsOfByte (v : Byte) : List Bool :=
  [v.getLsbD 7, v.getLsbD 6, v.getLsbD 5, v.getLsbD 4, v.getLsbD 3, v.getLsbD 2, v.getLsbD 1, v.getLsbD 0]

/-- `bytes(p, R, G, B)`: three zero bytes for each LED before the target, then green, red, blue (R86; 43_chain_writer.md
R145, R147). Used for `p` of at least 1 only (R151). -/
def wireBytes (p : Nat) (r g b : Byte) : List Byte := List.replicate (3 * (p - 1)) 0 ++ [g, r, b]

/-- The data bits of a request in sending order (R86). -/
def wireBits (p : Nat) (r g b : Byte) : List Bool := (wireBytes p r g b).flatMap bitsOfByte

end Sys2Proof.Machine
end

