-- ==== Sys2Proof/Machine/Flags.lean ====
section
/-! DEFINITION. STATUS and BUSY, the engine's only flags (10_state.md R25, R27): their codes and the ways they are written at
the end of a command. The failure side is `raise` of Ops.lean. -/

namespace Sys2Proof.Machine

/-- The code of an outcome (60_exceptions.md R230). -/
def Status.code : Status → Nat
  | .ok => 0
  | .invalidRequest => 1
  | .invalidAddressParameters => 2
  | .resourceUnavailable => 3

/-- `STATUS <- OK; emit(Ret(OK))` (45_host_operations.md R180, R186). -/
def returnOk (s : State) : State := ((s.setStatus .ok).setCause none).emit (.ret .ok)

/-- `STATUS <- OK; BUSY <- 0; emit(Ret(OK))`: the completion of a WRITE (R181, R185). -/
def completeWrite (s : State) : State := returnOk (s.setBusy false)

/-- A host command is accepted only when BUSY = 0 (R194). -/
def whenIdle (s : State) (o : Out State) : Out State :=
  if s.busy then .refused .commandWhileBusy else o

end Sys2Proof.Machine
end

