-- ==== Sys2Proof/Machine/Micro.lean ====
section
/-! DEFINITION. The seven micro-operations (44_pin_lifecycle.md R164, R165; 41_pulse_primitives.md R115, R119) and running
them in a row. -/

namespace Sys2Proof.Machine

/-- RD_DIR (R164). -/
def execRdDir (s : State) : Out State :=
  withBinding s fun b => andThen (memRead b.dir s) fun r => .next (r.2.setDtmp r.1)

/-- WR_DIR (R164). -/
def execWrDir (s : State) : Out State :=
  withBinding s fun b => memWrite b.dir (enablePin s.dtmp b.off) (s.setDtmp (enablePin s.dtmp b.off))

/-- RD_LVL (R165). -/
def execRdLvl (s : State) : Out State :=
  withBinding s fun b => andThen (memRead b.lvl s) fun r => .next (r.2.setTemp r.1)

/-- WR_LVL_INIT (R165). -/
def execWrLvlInit (s : State) : Out State :=
  withBinding s fun b => memWrite b.lvl (enablePin s.temp b.off) (s.setTemp (enablePin s.temp b.off))

/-- The level write of a pulse: the shadow takes the word, the level register is written with it, and a tick passes (R115).
In the test mode the shadow is updated and no register is accessed (R123). -/
def pulseWrite (b : Binding) (w : Word) (s : State) : Out State :=
  if s.testing then .next (s.setTemp w).tick
  else andThen (memWrite b.lvl w (s.setTemp w)) fun s' => .next s'.tick

/-- WR_HIGH (R115). -/
def execWrHigh (s : State) : Out State := withBinding s fun b => pulseWrite b (setPin s.temp b.off) s

/-- WR_LOW (R115). -/
def execWrLow (s : State) : Out State := withBinding s fun b => pulseWrite b (clearPin s.temp b.off) s

/-- DWELL (R119): one tick with no access. -/
def execDwell (s : State) : Out State := .next (s.emit .dwell).tick

/-- A micro-operation by name. -/
def runMicro : MicroOp → State → Out State
  | .rdDir => execRdDir
  | .wrDir => execWrDir
  | .rdLvl => execRdLvl
  | .wrLvlInit => execWrLvlInit
  | .wrHigh => execWrHigh
  | .wrLow => execWrLow
  | .dwell => execDwell

/-- An entry of a micro-program: a micro-operation, and, where it is the first of a phase of a primitive, the pair that the
test mode records for that phase (R123; log 10). -/
structure Slot where
  op : MicroOp
  mark : Option Segment
  deriving DecidableEq, Repr

/-- In the test mode, record the pair of the phase that begins here (R123). -/
def noteMark (x : Slot) (s : State) : State :=
  match s.testing, x.mark with
  | true, some p => s.addRecord p
  | _, _ => s

/-- Run one entry. -/
def runSlot (x : Slot) (s : State) : Out State := runMicro x.op (noteMark x s)

/-- Run entries in a row. -/
def runSlots : List Slot → State → Out State := runList runSlot

end Sys2Proof.Machine
end

