-- ==== Sys2Proof/Machine/Pulse.lean ====
section
/-! DEFINITION. The pulse primitives BIT0, BIT1, RESET as fixed lists of micro-operations (41_pulse_primitives.md R116 to
R118, R121). The counts are parameters, never derived (R120). -/

namespace Sys2Proof.Machine

/-- A phase of a bit pulse: `n` times the same write (20_memory.md R60). -/
def phase (level : Bool) (op : MicroOp) : Nat → List Slot
  | 0 => []
  | n + 1 => ⟨op, some (level, n + 1)⟩ :: List.replicate n ⟨op, none⟩

/-- X(BIT0) (R116). -/
def bit0Slots (c : Config) : List Slot := phase true .wrHigh c.n0h ++ phase false .wrLow c.n0l

/-- X(BIT1) (R117). -/
def bit1Slots (c : Config) : List Slot := phase true .wrHigh c.n1h ++ phase false .wrLow c.n1l

/-- X(RESET) (R118): one WR_LOW, then DWELL. -/
def resetSlots (c : Config) : List Slot :=
  ⟨.wrLow, some (false, c.nrst)⟩ :: List.replicate (c.nrst - 1) ⟨.dwell, none⟩

/-- X of a primitive. -/
def primSlots (c : Config) : Prim → List Slot
  | .bit0 => bit0Slots c
  | .bit1 => bit1Slots c
  | .reset => resetSlots c

/-- X of a list of primitives: the concatenation (42_byte_encoder.md R137, 43_chain_writer.md R152). -/
def primsSlots (c : Config) (l : List Prim) : List Slot := l.flatMap (primSlots c)

/-- BIT0 (R116). -/
def execBit0 (s : State) : Out State := runSlots (bit0Slots s.cfg) s

/-- BIT1 (R117). -/
def execBit1 (s : State) : Out State := runSlots (bit1Slots s.cfg) s

/-- RESET (R118). -/
def execResetPulse (s : State) : Out State := runSlots (resetSlots s.cfg) s

end Sys2Proof.Machine
end

