-- ==== Sys2Proof/Machine/Encoder.lean ====
section
/-! DEFINITION. The Byte/Frame Encoder (42_byte_encoder.md) and the Chain Writer (43_chain_writer.md). -/

namespace Sys2Proof.Machine

/-- BYTE(v) as a list of primitives: eight, most significant bit first (R135). -/
def bytePrims (v : Byte) : List Prim := (bitsOfByte v).map primOfBit

/-- BYTE (R135, R137). -/
def execByte (v : Byte) (s : State) : Out State := runSlots (primsSlots s.cfg (bytePrims v)) s

/-- CHAIN(p, R, G, B) as a list of primitives (R145). Used for `p` of at least 1 only (R151). -/
def chainPrims (p : Nat) (r g b : Byte) : List Prim :=
  [.reset] ++ (wireBytes p r g b).flatMap bytePrims ++ [.reset]

/-- X(CHAIN(p, R, G, B)) (R152). -/
def chainSlots (c : Config) (q : Request) : List Slot := primsSlots c (chainPrims q.pos.toNat q.r q.g q.b)

/-- CHAIN (R145); with position 0 it has no meaning (R151, U2). -/
def execChain (p : Word) (r g b : Byte) (s : State) : Out State :=
  if p = 0 then .refused .chainPositionZero
  else runSlots (primsSlots s.cfg (chainPrims p.toNat r g b)) s

end Sys2Proof.Machine
end

