-- ==== Sys2Proof/Machine/Resolver.lean ====
section
/-! DEFINITION. The Pin Resolver (40_pin_resolver.md). -/

namespace Sys2Proof.Machine

/-- The three ways RESOLVE ends (R100). -/
inductive Resolved where
  /-- A bank above 4 or a pin above 31 (R101). -/
  | outOfRange
  /-- `step` above 1: no register is defined (R102). -/
  | noRegister
  /-- The triple `(dir_addr, level_addr, off)`. -/
  | found (b : Binding)
  deriving DecidableEq, Repr

/-- `pin div HALF_DIV` (R100). -/
def pinStep (c : Config) (pin : Nat) : Nat := pin / c.halfDiv

/-- `pin mod BIT_MOD` (R100). -/
def pinOff (pin : Nat) : Fin 16 := ⟨pin % BIT_MOD, Nat.mod_lt _ (by decide)⟩

/-- RESOLVE as a function (R100, R103: of the operands and the parameters alone). -/
def resolve (c : Config) (bank pin : Nat) : Resolved :=
  if bank > BANK_MAX ∨ pin > PIN_MAX then .outOfRange
  else if pinStep c pin > 1 then .noRegister
  else .found
    { dir := bankBase c bank + DIR_OFF + HALF_STRIDE * pinStep c pin
      lvl := bankBase c bank + LEVEL_OFF + HALF_STRIDE * pinStep c pin
      off := pinOff pin }

/-- RESOLVE inside a command: go on with its result, or raise (R101), or refuse (R102). -/
def withResolved (bank pin : Word) (s : State) (f : Binding → Out Flow) : Out Flow :=
  match resolve s.cfg bank.toNat pin.toNat with
  | .outOfRange => raise (.invalidAddressParameters bank pin) s
  | .noRegister => .refused (.noRegisterForPin pin)
  | .found b => f b

/-- RESOLVE (R100): it writes no state and accesses no register; its result is `resolve` (log 20). -/
def execResolve (bank pin : Word) (s : State) : Out State :=
  settle (withResolved bank pin s fun _ => .next (.going s))

end Sys2Proof.Machine
end

