-- ==== Sys2Proof/Machine/Lifecycle.lean ====
section
/-! DEFINITION. The Pin Lifecycle Manager (44_pin_lifecycle.md): ACQUIRE, PIN_OPEN, RELEASE. -/

namespace Sys2Proof.Machine

/-- ACQUIRE (R160): both answers of the environment are next states. -/
def execAcquire (a : Nat) (s : State) : Out State := .next (acquire a s).2

/-- Acquire the pair, direction address first; if the second fails the first is released before the failure is raised
(R162). On success the binding is written (R163). DESIGN CHOICE (log 10; 91_not_in_source.md N31): the test mode changes nothing here,
the environment is asked and the events are emitted as outside it. -/
def acquirePair (b : Binding) (s : State) : Out Flow :=
  let first := acquire b.dir s
  if first.1 then
    let second := acquire b.lvl first.2
    if second.1 then .next (.going (second.2.setBinding (some b)))
    else andThen (releaseAddr b.dir second.2) (raise (.resourceUnavailable b.lvl))
  else raise (.resourceUnavailable b.dir) first.2

/-- The part of PIN_OPEN before its micro-operations (R163): RESOLVE, RELEASE, the two acquisitions, the binding. RELEASE runs
after RESOLVE and before the acquisitions (R167). -/
def mapPin (bank pin : Word) (s : State) : Out Flow :=
  withResolved bank pin s fun b => andThen (releaseBinding s) (acquirePair b)

/-- The four configuration micro-operations (R163, R168). -/
def configSlots : List Slot := [⟨.rdDir, none⟩, ⟨.wrDir, none⟩, ⟨.rdLvl, none⟩, ⟨.wrLvlInit, none⟩]

/-- PIN_OPEN (R163). -/
def execPinOpen (bank pin : Word) (s : State) : Out State :=
  settle (thenGo (mapPin bank pin s) fun s1 => going (runSlots configSlots s1))

/-- RELEASE (R166). -/
def execRelease (s : State) : Out State := releaseBinding s

end Sys2Proof.Machine
end

