-- ==== Sys2Proof/Machine/HostCommands.lean ====
section
/-! DEFINITION. The host commands OPEN, WRITE, CLOSE, the operations VALIDATE and CORE_WRITE, and the micro-program
(45_host_operations.md). -/

namespace Sys2Proof.Machine

/-- VALIDATE (R182): bank, then pin, then position (60_exceptions.md R235). -/
def validate (bank pin pos : Word) (s : State) : Out Flow :=
  if bank.toNat > BANK_MAX then raise (.invalidRequest .bank) s
  else if pin.toNat > PIN_MAX then raise (.invalidRequest .pin) s
  else if pos.toNat < 1 ∨ pos.toNat > s.cfg.ledMax then raise (.invalidRequest .position) s
  else .next (.going s)

/-- MPROG (R189), a function of the latch and the parameters (10_state.md R26). -/
def mprog (c : Config) (q : Request) : List Slot := configSlots ++ chainSlots c q

/-- CORE_WRITE up to `UPC <- 0` (R184). The micro-program needs a position of at least 1 (43_chain_writer.md R151, U2;
log 15). NOW starts at 0 with it (10_state.md R31). DESIGN CHOICE (log 10): the test mode's record is not cleared here, so it
grows over all WRITEs. -/
def enterCore (s : State) : Out Flow :=
  thenGo (mapPin s.latch.bank s.latch.pin s) fun s1 =>
    if s1.latch.pos = 0 then .refused .chainPositionZero
    else .next (.going ((s1.setUpc 0).setNow 0))

/-- One turn of CORE_WRITE's loop: run `MPROG[UPC]`, then `UPC <- UPC + 1` (R184). -/
def runAndCount (x : Slot) (s : State) : Out State :=
  andThen (runSlot x s) fun s' => .next (s'.setUpc (s'.upc + 1))

/-- VALIDATE (R182). -/
def execValidate (bank pin pos : Word) (s : State) : Out State := settle (validate bank pin pos s)

/-- CORE_WRITE, entered directly (R184): its loop runs to the end in one instruction (log 24). -/
def execCoreWrite (s : State) : Out State :=
  settle (thenGo (enterCore s) fun s1 => going (runList runAndCount (mprog s1.cfg s1.latch) s1))

/-- OPEN (R180). -/
def execOpen (s : State) : Out State := whenIdle s (.next (returnOk s))

/-- WRITE up to CORE_WRITE's `UPC <- 0` (R181): BUSY, the size check (30_encoding.md R84), VALIDATE, the latch (R183), and the
part of CORE_WRITE before its micro-operations. -/
def acceptWrite (blk : List Byte) (s : State) : Out Flow :=
  match requestOfBlock blk with
  | none => raise (.invalidRequest .size) (s.setBusy true)
  | some q =>
    thenGo (validate q.bank q.pin q.pos (s.setBusy true)) fun s1 => enterCore (s1.setLatch q)

/-- WRITE (R181). An accepted WRITE leaves BUSY = 1 and UPC = 0: the sequencer's steps then run its micro-program, one
micro-operation a step, and complete it (R185, R191; log 1). A WRITE that fails has ended here (R236). -/
def execWrite (blk : List Byte) (s : State) : Out State := whenIdle s (settle (acceptWrite blk s))

/-- CLOSE (R186). -/
def execClose (s : State) : Out State :=
  whenIdle s (andThen (releaseBinding s) fun s1 => .next (returnOk s1))

end Sys2Proof.Machine
end

