-- ==== Sys2Proof/Machine/Dispatch.lean ====
section
/-! DEFINITION. One arm for each instruction. -/

namespace Sys2Proof.Machine

def exec (i : Instr) (s : State) : Host.Outcome State Fault Refusal :=
  match i with
  | .openCmd => Sys2Proof.Machine.execOpen s
  | .writeCmd blk => Sys2Proof.Machine.execWrite blk s
  | .closeCmd => Sys2Proof.Machine.execClose s
  | .validate bank pin pos => Sys2Proof.Machine.execValidate bank pin pos s
  | .coreWrite => Sys2Proof.Machine.execCoreWrite s
  | .resolve bank pin => Sys2Proof.Machine.execResolve bank pin s
  | .acquire addr => Sys2Proof.Machine.execAcquire addr s
  | .pinOpen bank pin => Sys2Proof.Machine.execPinOpen bank pin s
  | .release => Sys2Proof.Machine.execRelease s
  | .chain p r g b => Sys2Proof.Machine.execChain p r g b s
  | .byte v => Sys2Proof.Machine.execByte v s
  | .bit0 => Sys2Proof.Machine.execBit0 s
  | .bit1 => Sys2Proof.Machine.execBit1 s
  | .resetPulse => Sys2Proof.Machine.execResetPulse s
  | .rdDir => Sys2Proof.Machine.execRdDir s
  | .wrDir => Sys2Proof.Machine.execWrDir s
  | .rdLvl => Sys2Proof.Machine.execRdLvl s
  | .wrLvlInit => Sys2Proof.Machine.execWrLvlInit s
  | .wrHigh => Sys2Proof.Machine.execWrHigh s
  | .wrLow => Sys2Proof.Machine.execWrLow s
  | .dwell => Sys2Proof.Machine.execDwell s

end Sys2Proof.Machine
end

