-- ==== Sys2Proof/Machine/Sequencer.lean ====
section
/-! DEFINITION. What a step does: the sequencer's step of a busy engine, the taking of a command by an idle one, and
instructions in a row (45_host_operations.md R191, R194). -/

namespace Sys2Proof.Machine

/-- The sequencer's step (R191): run `MPROG[UPC]` and count; when the micro-program has ended the WRITE completes (R185). -/
def sequencerStep (s : State) : Out State :=
  if s.latch.pos = 0 then .refused .chainPositionZero
  else
    match (mprog s.cfg s.latch)[s.upc]? with
    | some x => andThen (exec x.op.toInstr (noteMark x s)) fun s' => .next (s'.setUpc (s'.upc + 1))
    | none => .next (completeWrite s)

/-- The refusal a submission that is no command meets. -/
def refusalOf : DecodeError → Refusal
  | .noSuchCommand => .noSuchCommand
  | .operandOnHook => .operandOnHook

/-- The step of an idle engine: take the host's next command, or wait (10_state.md R35, 60_exceptions.md R245). -/
def idleStep (s : State) : Out State :=
  match s.inbox with
  | [] => .next s
  | c :: rest =>
    match decode (.command c) with
    | .ok i => exec i (s.setInbox rest)
    | .error e => .refused (refusalOf e)

/-- Instructions in a row: how a composite operation is said in terms of its parts. -/
def execAll : List Instr → State → Out State := runList exec

end Sys2Proof.Machine
end

