-- ==== Sys2Proof/Machine/Step.lean ====
section
/-! DEFINITION. One step of the machine (45_host_operations.md R191, R194) and where its next instruction comes from. -/

namespace Sys2Proof.Machine

/-- One step. While BUSY = 1 only the sequencer moves (R191, R194). -/
def step (s : State) : Host.Outcome State Fault Refusal :=
  if s.busy then sequencerStep s else idleStep s

/-- `s` with the command of a table word as the host's next, and the engine idle so that the next step takes it (log 2). -/
def State.withFetchWord (s : State) (nbits w : Nat) : State :=
  (s.setBusy false).setInbox (submissionOfWord nbits w :: s.inbox)

end Sys2Proof.Machine
end

