-- ==== Sys2Proof/Machine/Line.lean ====
section
/-! DEFINITION. The pin line (20_memory.md R59) and the waveform a WRITE puts on it (46_line_and_receiver.md R210 to R213).
These are the environment's view of the engine: nothing here feeds back into a step. Real time is a duration for each tick,
`d : Nat → Duration` in nanoseconds, over which every claim quantifies (R212, U13). -/

namespace Sys2Proof.Machine

/-- The pin is driven when its direction data bit is 1 (R59). -/
def pinDriven (m : Memory) (b : Binding) : Bool := (regData m b.dir).getLsbD b.off

/-- The level of the pin line (R59). `none`: the pin is not driven and the level is not defined (U6; log 21). -/
def pinLevel (m : Memory) (b : Binding) : Option Bool :=
  if pinDriven m b then some ((regData m b.lvl).getLsbD b.off) else none

/-- Ticks of high of a data bit (R210). -/
def highTicks (c : Config) (x : Bool) : Nat := if x then c.n1h else c.n0h

/-- Ticks of low of a data bit (R210). -/
def lowTicks (c : Config) (x : Bool) : Nat := if x then c.n1l else c.n0l

/-- The segments of one data bit (41_pulse_primitives.md R121). -/
def bitWave (c : Config) (x : Bool) : List Segment := [(true, highTicks c x), (false, lowTicks c x)]

/-- The waveform of a WRITE in the timed window, as segments (R210). -/
def wave (c : Config) (bits : List Bool) : List Segment :=
  [(false, c.nrst)] ++ bits.flatMap (bitWave c) ++ [(false, c.nrst)]

/-- The level in each tick. -/
def levelsOf (l : List Segment) : List Bool := l.flatMap fun p => List.replicate p.2 p.1

/-- The segments of a primitive (R121). -/
def primWave (c : Config) : Prim → List Segment
  | .bit0 => bitWave c false
  | .bit1 => bitWave c true
  | .reset => [(false, c.nrst)]

/-- The level of the line in each tick, read off a trace: a masked write to the level register sets it (20_memory.md R57), a
DWELL holds it (41_pulse_primitives.md R119). -/
def traceLevels (b : Binding) : Bool → List Event → List Bool
  | _, [] => []
  | prev, .wr a w :: es =>
    if a = b.lvl then
      let now := if w.getLsbD (b.off + MASK_SHIFT) then w.getLsbD b.off else prev
      now :: traceLevels b now es
    else traceLevels b prev es
  | prev, .dwell :: es => prev :: traceLevels b prev es
  | prev, .rd _ _ :: es => traceLevels b prev es
  | prev, .acq _ _ :: es => traceLevels b prev es
  | prev, .rel _ :: es => traceLevels b prev es
  | prev, .ret _ :: es => traceLevels b prev es

/-- A stretch of the line in real time: its level and its length in nanoseconds. -/
abbrev Interval := Bool × Duration

/-- Put a tick of a level and a duration before intervals, as one interval with an equal first level (R211). -/
def consTick (l : Bool) (t : Duration) : List Interval → List Interval
  | [] => [(l, t)]
  | (l', t') :: rest => if l = l' then (l, t + t') :: rest else (l, t) :: (l', t') :: rest

/-- The intervals of the line when tick `i` lasts `d i` (R211, R212). The `d i` of R212 are positive; the function is defined for
every rational, so a claim over all `d` holds for every positive one (log 30). -/
def intervals (d : Nat → Duration) : Nat → List Bool → List Interval
  | _, [] => []
  | i, l :: ls => consTick l (d i) (intervals d (i + 1) ls)

/-- The high band of a bit (R213; R87). -/
def inHighBand (x : Bool) (t : Duration) : Bool :=
  if x then decide (T1H_MIN ≤ t ∧ t ≤ T1H_MAX) else decide (T0H_MIN ≤ t ∧ t ≤ T0H_MAX)

/-- The low band of a bit (R213; R87). -/
def inLowBand (x : Bool) (t : Duration) : Bool :=
  if x then decide (T1L_MIN ≤ t ∧ t ≤ T1L_MAX) else decide (T0L_MIN ≤ t ∧ t ≤ T0L_MAX)

/-- A low interval that is a reset (R214). -/
def isResetLow (t : Duration) : Bool := decide (TRST_MIN < t)

/-- R213 (b), (c), (d): the pulses of the bits, each with its low interval; the last bit's low interval runs into the reset
(D28). -/
def pulsesConform : List Bool → List Interval → Bool
  | [x], [(true, h), (false, t)] => inHighBand x h && isResetLow t
  | x :: xs, (true, h) :: (false, t) :: rest => inHighBand x h && inLowBand x t && pulsesConform xs rest
  | _, _ => false

/-- R213: the waveform of the bits is conformant. -/
def conformant (bits : List Bool) : List Interval → Bool
  | (false, t) :: rest => isResetLow t && pulsesConform bits rest
  | _ => false

end Sys2Proof.Machine
end

