-- ==== Sys2Proof/Machine/Receiver.lean ====
section
/-! DEFINITION. The reference receiver: how the LED chain reads the line (46_line_and_receiver.md R214 to R217). Where the
spec leaves a reading or a colour open (U5, U12) the receiver answers `none`: any value. -/

namespace Sys2Proof.Machine

/-- A colour as an LED shows it. -/
structure Color where
  r : Byte
  g : Byte
  b : Byte
  deriving DecidableEq, Repr

/-- What the receiver reads from the line. -/
inductive Symbol where
  /-- A data bit. -/
  | data (x : Bool)
  /-- A pulse with no defined reading (R214, U5). -/
  | unread
  /-- A reset. -/
  | latch
  deriving DecidableEq, Repr

/-- The bit decision (R214): a high pulse in a bit's high band followed by its low band or by a reset. -/
def readPulse (h t : Duration) : Symbol :=
  if inHighBand false h && (inLowBand false t || isResetLow t) then .data false
  else if inHighBand true h && (inLowBand true t || isResetLow t) then .data true
  else .unread

/-- A low interval longer than the threshold is a reset (R214). -/
def readLow (t : Duration) : List Symbol := if isResetLow t then [.latch] else []

/-- The symbols of a line (R214). A low interval with no pulse before it is a reset or idle line; a high pulse with no low
interval after it has no reading. -/
def readLine : List Interval → List Symbol
  | [] => []
  | (true, h) :: (false, t) :: rest => readPulse h t :: (readLow t ++ readLine rest)
  | (true, _) :: rest => .unread :: readLine rest
  | (false, t) :: rest => readLow t ++ readLine rest

/-- The bursts that a reset has latched, oldest first: LEDs count their bits anew after each reset (R215; G7). `acc` is the
burst being received, newest symbol first. DESIGN CHOICE (log 22): bits with no reset before them, on which R215 is silent, count
as if a reset had come before the line began. -/
def latchedBursts : List Symbol → List Symbol → List (List Symbol)
  | _, [] => []
  | acc, .latch :: rest => acc.reverse :: latchedBursts [] rest
  | acc, .data x :: rest => latchedBursts (.data x :: acc) rest
  | acc, .unread :: rest => latchedBursts (.unread :: acc) rest

/-- The bits of a burst; `none` if one of its pulses has no reading, when every colour is any value (R217, U5). -/
def burstBits : List Symbol → Option (List Bool)
  | [] => some []
  | .data x :: rest => (burstBits rest).map (x :: ·)
  | .unread :: _ => none
  | .latch :: _ => none

/-- A byte from its bits, most significant first (R215). -/
def byteOfBits (l : List Bool) : Byte := l.foldl (fun v x => v <<< 1 ||| (if x then 1 else 0)) 0

/-- A frame of 24 bits as a colour: green, red, blue (R215). -/
def colorOfFrame (l : List Bool) : Color where
  g := byteOfBits (l.take 8)
  r := byteOfBits ((l.drop 8).take 8)
  b := byteOfBits ((l.drop 16).take 8)

/-- The frame LED `k` (numbered from 1) takes out of a burst: its own 24 bits after those of the LEDs before it (R215).
`none` for an LED that received no whole frame, whose colour is unconstrained (R216, U12). -/
def ledFrame (bits : List Bool) (k : Nat) : Option Color :=
  let f := (bits.drop (24 * (k - 1))).take 24
  if f.length = 24 then some (colorOfFrame f) else none

/-- The colour LED `k` shows after the last latched burst of a line; `none` is any colour (R215, R216, R217). -/
def ledShows (line : List Interval) (k : Nat) : Option Color :=
  match (latchedBursts [] (readLine line)).getLast? with
  | some burst => (burstBits burst).bind fun bits => ledFrame bits k
  | none => none

/-- The colour LED `k` shows after a WRITE of the bits: what the receiver reads if the waveform is conformant (R216), and any
colour, `none`, if it is not (R217). -/
def shownAfterWrite (bits : List Bool) (line : List Interval) (k : Nat) : Option Color :=
  if conformant bits line then ledShows line k else none

end Sys2Proof.Machine
end

