-- ==== Sys2Proof/Safety.lean ====
section
/-! DEFINITION. The invariant of a safe run (10_state.md R29, R34; 44_pin_lifecycle.md R169), and the words the claims use. -/

namespace Sys2Proof.Machine

/-- The binding lies in one bank of the register map (R34 (b); 40_pin_resolver.md R100). -/
abbrev BindingOk (c : Config) (b : Binding) : Prop :=
  ∃ bank ∈ List.range (BANK_MAX + 1), ∃ half ∈ [0, 1],
    b.lvl = bankBase c bank + LEVEL_OFF + HALF_STRIDE * half ∧ b.dir = bankBase c bank + DIR_OFF + HALF_STRIDE * half

/-- The fields of a request lie in the ranges of 30_encoding.md R83. -/
abbrev RequestOk (c : Config) (q : Request) : Prop :=
  q.bank.toNat ≤ BANK_MAX ∧ q.pin.toNat ≤ PIN_MAX ∧ 1 ≤ q.pos.toNat ∧ q.pos.toNat ≤ c.ledMax

/-- HELD as the binding determines it outside a PIN_OPEN (R29). -/
def heldOf : Option Binding → List Nat
  | none => []
  | some b => [b.lvl, b.dir]

/-- The shadow agrees with the level register: every data bit but the pin's whose write-enable bit TEMP holds is the register's
(44_pin_lifecycle.md R165, 41_pulse_primitives.md R115; no other master writes between the read and the end of the WRITE,
10_state.md R30, log 23). So a write of the shadow changes no other pin. -/
def ShadowAgrees (s : State) (b : Binding) : Prop :=
  ∀ n < 16, n ≠ b.off.val → s.temp.getLsbD (n + 16) = true → s.temp.getLsbD n = (regData s.mem b.lvl).getLsbD n

/-- The invariant of the engine between steps. -/
structure EngineInv (s : State) : Prop where
  /-- R6, R7. -/
  cfgOk : s.cfg.wf
  /-- The canonical form of memory. -/
  memOk : Memory.wf s.mem
  /-- R29. -/
  heldOk : s.held = heldOf s.binding
  /-- R34 (a), (b). -/
  bindingOk : ∀ b, s.binding = some b → BindingOk s.cfg b
  /-- While a WRITE runs its request is a valid one (R21), the binding is that request's (R22), and UPC counts inside the
  micro-program (R26). -/
  busyOk : s.busy = true → RequestOk s.cfg s.latch ∧
    (∃ b, s.binding = some b ∧ resolve s.cfg s.latch.bank.toNat s.latch.pin.toNat = .found b) ∧
    s.upc ≤ (mprog s.cfg s.latch).length
  /-- R34 (c): from the completion of WR_LVL_INIT to the next RELEASE the pin's write-enable bit is set in TEMP. -/
  maskOk : ∀ b, s.binding = some b → (s.busy = true → 4 ≤ s.upc) → s.temp.getLsbD (b.off + MASK_SHIFT) = true
  /-- R34 (d): from the completion of RD_LVL to the end of the WRITE the shadow agrees with the level register. -/
  shadowOk : s.busy = true → 3 ≤ s.upc → ∀ b, s.binding = some b → ShadowAgrees s b
  /-- R31, 45_host_operations.md R190: NOW is 0 at the start of the timed window and UPC - 4 in it. -/
  nowOk : s.busy = true → s.now = s.upc - 4

/-- An event that touches the outside: a register access or a tick (60_exceptions.md R237). -/
def Event.outside : Event → Bool
  | .rd _ _ => true
  | .wr _ _ => true
  | .dwell => true
  | .acq _ _ => false
  | .rel _ => false
  | .ret _ => false

/-- How often an address was acquired in a trace (44_pin_lifecycle.md R160). -/
def acquiredCount (a : Nat) (l : List Event) : Nat := l.count (.acq a true)

/-- How often an address was released in a trace (R161). -/
def releasedCount (a : Nat) (l : List Event) : Nat := l.count (.rel a)

/-- R169: every address was released as often as acquired, once less while it is held. -/
def HeldBalance (s : State) : Prop :=
  ∀ a, acquiredCount a s.traceRev = releasedCount a s.traceRev + (if a ∈ s.held then 1 else 0)

/-- The number of 1 bits of a byte (42_byte_encoder.md R135). -/
def ones (v : Byte) : Nat := (bitsOfByte v).count true

/-- Two states that agree in everything but the registers that hold no value in an idle engine: the latch, TEMP, DTMP, UPC
(10_state.md R36). -/
def SameButDead (s t : State) : Prop :=
  ({ s with latch := t.latch, temp := t.temp, dtmp := t.dtmp, upc := t.upc } : State) = t

/-- Two outcomes that are alike up to a relation of their next states. -/
def AlikeBy (r : State → State → Prop) : Out State → Out State → Prop
  | .next s, .next t => r s t
  | .fault e, .fault f => e = f
  | .refused e, .refused f => e = f
  | _, _ => False

/-- `k` steps. -/
def run (k : Nat) (s : State) : Out State := Host.Core.run core k s

/-- Memory after a masked write of `w` to the register at `a`: its data bits by 20_memory.md R57, and every other byte as
before. -/
def MaskedStore (a : Nat) (w : Word) (m m' : Memory) : Prop :=
  (∀ n < 16, (regData m' a).getLsbD n = if w.getLsbD (16 + n) then w.getLsbD n else (regData m a).getLsbD n) ∧
  ∀ x, x ≠ a → x ≠ a + 1 → readByte m' x = readByte m x

/-- Every byte outside the data bytes of the two registers reads as before. -/
def SameOutside (a b : Nat) (m m' : Memory) : Prop :=
  ∀ x, x ≠ a → x ≠ a + 1 → x ≠ b → x ≠ b + 1 → readByte m' x = readByte m x

/-- Every data bit of the register at `a` but bit `n` reads as before. -/
def SameBitsBut (n : Nat) (a : Nat) (m m' : Memory) : Prop :=
  ∀ k < 16, k ≠ n → (regData m' a).getLsbD k = (regData m a).getLsbD k

/-- The events of releasing a binding (44_pin_lifecycle.md R166). -/
def releaseEvents : Option Binding → List Event
  | none => []
  | some b => [.rel b.dir, .rel b.lvl]

/-- The binding can be released: HELD is what it says, and its two addresses differ (10_state.md R29, 40_pin_resolver.md
R103). -/
def Releasable (s : State) : Prop :=
  s.held = heldOf s.binding ∧ ∀ b, s.binding = some b → b.dir ≠ b.lvl

/-- The pin of a binding can be pulsed: the binding is mapped and its level register exists. -/
def Pulsable (s : State) (b : Binding) : Prop :=
  s.binding = some b ∧ isRegister s.cfg b.lvl = true

/-- The ticks of a stretch with `z` bits 0 and `o` bits 1 (41_pulse_primitives.md R121). -/
def bitTicks (c : Config) (z o : Nat) : Nat := z * (c.n0h + c.n0l) + o * (c.n1h + c.n1l)

/-- The state the access table of 10_state.md R37 names, and the rest of State, by name. -/
inductive Reg where
  | latch | binding | temp | dtmp | busy | upc | status | held | gpio | now | record | trace | draws | cfg | testMode | inbox
  deriving DecidableEq, Repr

/-- A piece of state is the same in two states. -/
def Reg.same (s t : State) : Reg → Prop
  | .latch => t.latch = s.latch
  | .binding => t.binding = s.binding
  | .temp => t.temp = s.temp
  | .dtmp => t.dtmp = s.dtmp
  | .busy => t.busy = s.busy
  | .upc => t.upc = s.upc
  | .status => t.status = s.status ∧ t.cause = s.cause
  | .held => t.held = s.held
  | .gpio => ∀ a, readByte t.mem a = readByte s.mem a
  | .now => t.now = s.now
  | .record => t.recordRev = s.recordRev
  | .trace => t.traceRev = s.traceRev
  | .draws => t.acqDraws = s.acqDraws ∧ t.upperDraws = s.upperDraws ∧ t.drawCount = s.drawCount
  | .cfg => t.cfg = s.cfg
  | .testMode => t.testMode = s.testMode
  | .inbox => t.inbox = s.inbox

/-- What each instruction may write: R37, with a composite operation writing what its parts write and a failure writing
STATUS and BUSY (60_exceptions.md R236). Nothing writes the parameters, the test-mode switch or the host's commands. -/
def mayWrite : Instr → List Reg
  | .openCmd => [.status, .trace]
  | .writeCmd _ => [.latch, .binding, .busy, .upc, .now, .status, .held, .trace, .draws]
  | .closeCmd => [.binding, .held, .status, .trace]
  | .validate _ _ _ => [.status, .busy, .trace]
  | .coreWrite => [.binding, .temp, .dtmp, .busy, .upc, .status, .held, .gpio, .now, .record, .trace, .draws]
  | .resolve _ _ => [.status, .busy, .trace]
  | .acquire _ => [.held, .trace, .draws]
  | .pinOpen _ _ => [.binding, .temp, .dtmp, .busy, .status, .held, .gpio, .trace, .draws]
  | .release => [.binding, .held, .trace]
  | .chain _ _ _ _ => [.temp, .gpio, .now, .record, .trace]
  | .byte _ => [.temp, .gpio, .now, .record, .trace]
  | .bit0 => [.temp, .gpio, .now, .record, .trace]
  | .bit1 => [.temp, .gpio, .now, .record, .trace]
  | .resetPulse => [.temp, .gpio, .now, .record, .trace]
  | .rdDir => [.dtmp, .trace, .draws]
  | .wrDir => [.dtmp, .gpio, .trace]
  | .rdLvl => [.temp, .trace, .draws]
  | .wrLvlInit => [.temp, .gpio, .trace]
  | .wrHigh => [.temp, .gpio, .now, .trace]
  | .wrLow => [.temp, .gpio, .now, .trace]
  | .dwell => [.now, .trace]

end Sys2Proof.Machine
end

