-- ==== Sys2Proof/Certificates/Slice0/Obligations.lean ====
section
/-! DEFINITION. The statements about the model, for the provers. Each docstring names the rule it formalises. -/

open Sys2Proof Sys2Proof.Machine

/-! ## Reset, the step, decoding -/

/-- 10_state.md R35 and 70_reset_and_hazards.md R260, the values the spec gives (the values the model chose, logs 3, 4, 6, 9 and
10, are not in it). -/
def Obligations.ResetLeavesTheSpecifiedValues : Prop :=
  State.reset.mapped = false ∧ State.reset.held = [] ∧ State.reset.busy = false ∧ State.reset.status = .ok ∧
  State.reset.trace = [] ∧ State.reset.now = 0

/-- The invariant of Safety.lean holds at reset (with the configuration of log 3). -/
def Obligations.InvariantHoldsAtReset : Prop := EngineInv State.reset ∧ HeldBalance State.reset

/-- An idle engine runs the command its decoder reads from the host's next submission, with that submission taken. -/
def Obligations.StepRunsTheDecodedCommand : Prop :=
  ∀ (s : State) (c : Submission) (rest : List Submission) (i : Instr),
    s.busy = false → s.inbox = c :: rest → decode (.command c) = .ok i → step s = exec i { s with inbox := rest }

/-- A busy engine runs `MPROG[UPC]` and then counts (45_host_operations.md R191); in the test mode the pair of a phase that
begins there is recorded first (41_pulse_primitives.md R123; log 10). -/
def Obligations.StepRunsTheMicroOperationAtUpc : Prop :=
  ∀ (s : State) (x : Slot), s.busy = true → s.latch.pos ≠ 0 → (mprog s.cfg s.latch)[s.upc]? = some x →
    step s = match exec x.op.toInstr (noteMark x s) with
      | .next t => .next { t with upc := t.upc + 1 }
      | .fault e => .fault e
      | .refused r => .refused r

/-- A table word the decoder reads is what the next step fetches and runs, from every state. -/
def Obligations.TableWordsAreFetchedAndRun : Prop :=
  ∀ (s : State) (nbits w : Nat) (i : Instr), decodeTableWord nbits w = some i →
    step (s.withFetchWord nbits w) = exec i { s with busy := false }

/-- The engine waits for a command: an idle step with none waiting changes nothing (the model's form of 60_exceptions.md
R245; log 2). -/
def Obligations.IdleEngineWaits : Prop :=
  ∀ s : State, s.busy = false → s.inbox = [] → step s = .next s

/-- 45_host_operations.md R188: a fourth hook has no meaning; it is refused, as is a hook that carries nothing but was given
a block (log 12). -/
def Obligations.NoOtherCommandHasAMeaning : Prop :=
  ∀ (s : State) (blk : List Byte) (rest : List Submission), s.busy = false →
    (s.inbox = ⟨3, blk⟩ :: rest → step s = .refused .noSuchCommand) ∧
    (blk ≠ [] → (s.inbox = ⟨0, blk⟩ :: rest ∨ s.inbox = ⟨2, blk⟩ :: rest) → step s = .refused .operandOnHook)

/-- Words written out from 30_encoding.md R81, R85, R87: OPEN, CLOSE, the block of 95_test_vectors.md V-REQ-2, the pulses. -/
def Obligations.WrittenOutWordsDecode : Prop :=
  decode (.command ⟨0b00, []⟩) = .ok .openCmd ∧
  decode (.command ⟨0b10, []⟩) = .ok .closeCmd ∧
  decode (.command ⟨0b01, [0x03, 0, 0, 0, 0x14, 0, 0, 0, 0x02, 0, 0, 0, 0x12, 0x34, 0x56, 0x00]⟩) =
    .ok (.writeCmd [0x03, 0, 0, 0, 0x14, 0, 0, 0, 0x02, 0, 0, 0, 0x12, 0x34, 0x56, 0x00]) ∧
  requestOfBlock [0x03, 0, 0, 0, 0x14, 0, 0, 0, 0x02, 0, 0, 0, 0x12, 0x34, 0x56, 0x00] =
    some { bank := 3, pin := 20, pos := 2, r := 0x12, g := 0x34, b := 0x56 } ∧
  decode (.pulse false) = .ok .bit0 ∧ decode (.pulse true) = .ok .bit1

/-- 30_encoding.md R82: the fields are little-endian sums, unsigned, and byte 15 is not read; R84 (a): no other size has
fields. -/
def Obligations.RequestFieldsAreLittleEndianSums : Prop :=
  ∀ blk : List Byte,
    (blk.length ≠ 16 → requestOfBlock blk = none) ∧
    (blk.length = 16 → ∃ q, requestOfBlock blk = some q ∧
      q.bank.toNat = blk[0]!.toNat + 256 * blk[1]!.toNat + 65536 * blk[2]!.toNat + 16777216 * blk[3]!.toNat ∧
      q.pin.toNat = blk[4]!.toNat + 256 * blk[5]!.toNat + 65536 * blk[6]!.toNat + 16777216 * blk[7]!.toNat ∧
      q.pos.toNat = blk[8]!.toNat + 256 * blk[9]!.toNat + 65536 * blk[10]!.toNat + 16777216 * blk[11]!.toNat ∧
      q.r = blk[12]! ∧ q.g = blk[13]! ∧ q.b = blk[14]!)

/-- Decode and encode agree, in both directions, down to every byte of the request block: every WRITE with every request and
every pad byte, and every other encodable instruction; and every submission the decoder accepts is the encoding of its
instruction. -/
def Obligations.EncodingsRoundTrip : Prop :=
  (∀ (q : Request) (pad : Byte), ∃ c, encode (.writeCmd (blockOfRequest q pad)) = some (.command c) ∧ c.wellFormed = true ∧
    decode (.command c) = .ok (.writeCmd (blockOfRequest q pad)) ∧ requestOfBlock c.block = some q) ∧
  (∀ i e, encode i = some e → decode e = .ok i) ∧
  (∀ e i, decode e = .ok i → encode i = some e) ∧
  (∀ blk q, requestOfBlock blk = some q → ∃ pad, blk = blockOfRequest q pad) ∧
  (∀ c, c.wellFormed = true ↔ ∃ i, decode (.command c) = .ok i)

/-! ## The resolver -/

/-- The three ways RESOLVE ends (40_pin_resolver.md R100 to R102), the addresses written out with the values of R6 and R51. That a
RESOLVE executed by itself leaves its result in no register and takes a failure as inside a WRITE (60_exceptions.md R236), with
STATUS, BUSY and Ret, is the model's reading (logs 20, 25), and the field `cause` is its bookkeeping (log 18). -/
def Obligations.ResolveFollowsTheFormula : Prop :=
  ∀ (s : State) (bank pin : Word),
    (bank.toNat > 4 ∨ pin.toNat > 31 → exec (.resolve bank pin) s = .next
      { s with status := .invalidAddressParameters, cause := some (.invalidAddressParameters bank pin), busy := false,
               traceRev := .ret .invalidAddressParameters :: s.traceRev }) ∧
    (bank.toNat ≤ 4 → pin.toNat ≤ 31 → pin.toNat / s.cfg.halfDiv > 1 →
      exec (.resolve bank pin) s = .refused (.noRegisterForPin pin)) ∧
    (bank.toNat ≤ 4 → pin.toNat ≤ 31 → pin.toNat / s.cfg.halfDiv ≤ 1 →
      exec (.resolve bank pin) s = .next s ∧
      ∃ b, resolve s.cfg bank.toNat pin.toNat = .found b ∧ b.off.val = pin.toNat % 16 ∧
        (bank.toNat = 0 → b.lvl = s.cfg.gpio0Base + 0x00 + 0x04 * (pin.toNat / s.cfg.halfDiv) ∧
          b.dir = s.cfg.gpio0Base + 0x08 + 0x04 * (pin.toNat / s.cfg.halfDiv)) ∧
        (1 ≤ bank.toNat →
          b.lvl = s.cfg.gpio1Base + (bank.toNat - 1) * 0x10000 + 0x00 + 0x04 * (pin.toNat / s.cfg.halfDiv) ∧
          b.dir = s.cfg.gpio1Base + (bank.toNat - 1) * 0x10000 + 0x08 + 0x04 * (pin.toNat / s.cfg.halfDiv)))

/-- 40_pin_resolver.md R104: the whole pin table, for both divisors, with what no pin reaches. -/
def Obligations.PinTableForBothDivisors : Prop :=
  (∀ c : Config, c.halfDiv = 15 → ∀ pin < 32,
    pinStep c pin = (if pin ≤ 14 then 0 else if pin ≤ 29 then 1 else 2) ∧
    (pinOff pin).val = (if pin ≤ 15 then pin else pin - 16) ∧
    ¬ (pinStep c pin = 0 ∧ (pinOff pin).val = 15) ∧ ¬ (pinStep c pin = 1 ∧ (pinOff pin).val = 14) ∧
    ∀ pin' < 32, pinStep c pin ≤ 1 → pinStep c pin' = pinStep c pin → pinOff pin' = pinOff pin → pin' = pin) ∧
  (∀ c : Config, c.halfDiv = 16 →
    (∀ pin < 32, pinStep c pin = (if pin ≤ 15 then 0 else 1) ∧ (pinOff pin).val = (if pin ≤ 15 then pin else pin - 16)) ∧
    ∀ half < 2, ∀ off : Fin 16, ∃ pin < 32, pinStep c pin = half ∧ pinOff pin = off ∧
      ∀ pin' < 32, pinStep c pin' = half → pinOff pin' = off → pin' = pin)

/-- 40_pin_resolver.md R103: what holds of every result, and that its two addresses are registers of the map. -/
def Obligations.ResolvedAddressesAgree : Prop :=
  ∀ (c : Config) (bank pin : Nat) (b : Binding), c.wf → resolve c bank pin = .found b →
    b.dir = b.lvl + 0x08 ∧ b.dir ≠ b.lvl ∧ b.dir % 4 = 0 ∧ b.lvl % 4 = 0 ∧ b.off.val ≤ 15 ∧
    isRegister c b.dir = true ∧ isRegister c b.lvl = true ∧ BindingOk c b

/-- No two pins of the five banks share a binding, and no register address belongs to two banks (00_scope.md R7 (b),
40_pin_resolver.md R104, 95_test_vectors.md V-RES invariants). -/
def Obligations.ResolverSeparatesPins : Prop :=
  ∀ (c : Config) (bank pin bank' pin' : Nat) (b b' : Binding), c.wf →
    resolve c bank pin = .found b → resolve c bank' pin' = .found b' →
    (b.lvl = b'.lvl ∨ b.dir = b'.dir ∨ b.lvl = b'.dir → bank = bank') ∧ (b = b' → bank = bank' ∧ pin = pin')

/-! ## The GPIO registers -/

/-- 20_memory.md R57: a write to one of the twenty registers updates its data bits under the mask and nothing else (the event
`Wr` of the micro-operation that writes is recorded with it). -/
def Obligations.MaskedWriteUpdatesMaskedBits : Prop :=
  ∀ (s : State) (a : Nat) (w : Word), isRegister s.cfg a = true → ∃ t, memWrite a w s = .next t ∧
    MaskedStore a w s.mem t.mem ∧ (Memory.wf s.mem → Memory.wf t.mem) ∧
    t = { s with mem := t.mem, traceRev := .wr a w :: s.traceRev }

/-- 20_memory.md R58: a read returns the 16 data bits below an upper half that is a fresh draw, whatever draw comes, and
changes neither the register nor the pin. -/
def Obligations.ReadReturnsDataBitsUnderAnyUpperHalf : Prop :=
  ∀ (s : State) (a : Nat), isRegister s.cfg a = true →
    (∃ v t, memRead a s = .next (v, t) ∧ dataHalf v = regData s.mem a ∧
      t = { s with traceRev := .rd a v :: s.traceRev, upperDraws := t.upperDraws, drawCount := t.drawCount }) ∧
    ∀ (h : Half) (rest : List Half), s.upperDraws = h :: rest → ∃ v t, memRead a s = .next (v, t) ∧
      maskHalf v = h ∧ dataHalf v = regData s.mem a ∧ t.upperDraws = rest ∧ t.drawCount = s.drawCount

/-! ## The micro-operations -/

/-- 44_pin_lifecycle.md R164: RD_DIR copies the direction register into DTMP; WR_DIR sets the pin's two bits in it and writes
it; after both the pin is an output and every other pin's direction bit is as before. -/
def Obligations.DirectionUpdateMakesThePinAnOutput : Prop :=
  ∀ (s : State) (b : Binding), s.binding = some b → isRegister s.cfg b.dir = true →
    (∃ t, exec .rdDir s = .next t ∧ dataHalf t.dtmp = regData s.mem b.dir ∧
      t = { s with dtmp := t.dtmp, traceRev := .rd b.dir t.dtmp :: s.traceRev, upperDraws := t.upperDraws,
                   drawCount := t.drawCount }) ∧
    (∃ t, exec .wrDir s = .next t ∧
      (∀ n < 32, t.dtmp.getLsbD n = (s.dtmp.getLsbD n || n == b.off.val || n == b.off.val + 16)) ∧
      MaskedStore b.dir t.dtmp s.mem t.mem ∧ (regData t.mem b.dir).getLsbD b.off = true ∧
      t = { s with dtmp := t.dtmp, mem := t.mem, traceRev := .wr b.dir t.dtmp :: s.traceRev }) ∧
    (∀ t u, exec .rdDir s = .next t → exec .wrDir t = .next u → SameBitsBut b.off b.dir s.mem u.mem)

/-- 44_pin_lifecycle.md R165: RD_LVL copies the level register into TEMP, all 32 bits, whatever TEMP held; WR_LVL_INIT sets
the pin's two bits in it and writes it; after both the pin's level bit is 1 and every other pin's is as before. -/
def Obligations.LevelInitialisationRaisesThePin : Prop :=
  ∀ (s : State) (b : Binding), s.binding = some b → isRegister s.cfg b.lvl = true →
    (∃ t, exec .rdLvl s = .next t ∧ dataHalf t.temp = regData s.mem b.lvl ∧
      (∀ old, exec .rdLvl { s with temp := old } = .next t) ∧
      t = { s with temp := t.temp, traceRev := .rd b.lvl t.temp :: s.traceRev, upperDraws := t.upperDraws,
                   drawCount := t.drawCount }) ∧
    (∃ t, exec .wrLvlInit s = .next t ∧
      (∀ n < 32, t.temp.getLsbD n = (s.temp.getLsbD n || n == b.off.val || n == b.off.val + 16)) ∧
      MaskedStore b.lvl t.temp s.mem t.mem ∧ (regData t.mem b.lvl).getLsbD b.off = true ∧
      t = { s with temp := t.temp, mem := t.mem, traceRev := .wr b.lvl t.temp :: s.traceRev }) ∧
    (∀ t u, exec .rdLvl s = .next t → exec .wrLvlInit t = .next u → SameBitsBut b.off b.lvl s.mem u.mem)

/-- 41_pulse_primitives.md R115 outside the test mode: WR_HIGH sets and WR_LOW clears bit B_OFF of TEMP and nothing else of it,
writes TEMP to the level register, also when the bit has that value already, and takes one tick. -/
def Obligations.PulseWritesChangeOnlyThePinBit : Prop :=
  ∀ (s : State) (b : Binding), Pulsable s b → s.testing = false →
    ∀ p ∈ [(Instr.wrHigh, true), (Instr.wrLow, false)], ∃ t, exec p.1 s = .next t ∧
      (∀ n < 32, t.temp.getLsbD n = if n = b.off.val then p.2 else s.temp.getLsbD n) ∧
      MaskedStore b.lvl t.temp s.mem t.mem ∧
      (s.temp.getLsbD (b.off + 16) = true → (regData t.mem b.lvl).getLsbD b.off = p.2) ∧
      t = { s with temp := t.temp, mem := t.mem, now := s.now + 1, traceRev := .wr b.lvl t.temp :: s.traceRev }

/-- 41_pulse_primitives.md R119: DWELL is one tick with no register access and no other change of state. -/
def Obligations.DwellOnlyPassesATick : Prop :=
  ∀ s : State, exec .dwell s = .next { s with now := s.now + 1, traceRev := .dwell :: s.traceRev }

/-- 10_state.md R22 and R36, 41_pulse_primitives.md R122 (precondition B_MAPPED = 1): a micro-operation that accesses a
register faults while the binding is unmapped, and faults at an address that is no register (20_memory.md R53). -/
def Obligations.AccessWithoutABindingFaults : Prop :=
  ∀ s : State,
    (s.binding = none → ∀ i ∈ [Instr.rdDir, .wrDir, .rdLvl, .wrLvlInit, .wrHigh, .wrLow],
      exec i s = .fault .bindingUnmapped) ∧
    (∀ b, s.binding = some b →
      (isRegister s.cfg b.dir = false → ∀ i ∈ [Instr.rdDir, .wrDir], exec i s = .fault (.outsideRegisterMap b.dir)) ∧
      (isRegister s.cfg b.lvl = false → ∀ i ∈ [Instr.rdLvl, .wrLvlInit], exec i s = .fault (.outsideRegisterMap b.lvl)) ∧
      (isRegister s.cfg b.lvl = false → s.testing = false → ∀ i ∈ [Instr.wrHigh, .wrLow],
        exec i s = .fault (.outsideRegisterMap b.lvl)))

/-! ## Primitives, bytes, chains -/

/-- 41_pulse_primitives.md R116 and R117 outside the test mode: BIT0 and BIT1 are their high count of writes with the pin's bit
set, then their low count of writes with it cleared, one tick each. -/
def Obligations.BitPulsesAreHighThenLowWrites : Prop :=
  ∀ (s : State) (b : Binding), Pulsable s b → s.testing = false → s.cfg.wf →
    ∀ p ∈ [(Instr.bit0, s.cfg.n0h, s.cfg.n0l), (Instr.bit1, s.cfg.n1h, s.cfg.n1l)], ∃ t, exec p.1 s = .next t ∧
      t.trace = s.trace ++ List.replicate p.2.1 (.wr b.lvl (s.temp ||| BitVec.twoPow 32 b.off)) ++
        List.replicate p.2.2 (.wr b.lvl (s.temp &&& ~~~(BitVec.twoPow 32 b.off))) ∧
      t.temp = s.temp &&& ~~~(BitVec.twoPow 32 b.off) ∧ MaskedStore b.lvl t.temp s.mem t.mem ∧
      t = { s with temp := t.temp, mem := t.mem, now := s.now + p.2.1 + p.2.2, traceRev := t.traceRev }

/-- 41_pulse_primitives.md R118 outside the test mode: RESET is one write with the pin's bit cleared, then NRST - 1 ticks with
no access; it does not raise the line. -/
def Obligations.ResetPulseIsOneLowWriteThenDwell : Prop :=
  ∀ (s : State) (b : Binding), Pulsable s b → s.testing = false → s.cfg.wf → ∃ t, exec .resetPulse s = .next t ∧
    t.trace = s.trace ++ [.wr b.lvl (s.temp &&& ~~~(BitVec.twoPow 32 b.off))] ++
      List.replicate (s.cfg.nrst - 1) .dwell ∧
    t.temp = s.temp &&& ~~~(BitVec.twoPow 32 b.off) ∧ MaskedStore b.lvl t.temp s.mem t.mem ∧
    t = { s with temp := t.temp, mem := t.mem, now := s.now + s.cfg.nrst, traceRev := t.traceRev }

/-- 42_byte_encoder.md R135 and R136: BYTE is exactly eight bit pulses, the i-th a BIT1 iff bit 7 - i is set; it never emits
RESET. -/
def Obligations.ByteIsEightPulsesMostSignificantFirst : Prop :=
  ∀ v : Byte,
    (∀ s : State, exec (.byte v) s =
      execAll ((List.range 8).map fun i => if v.getLsbD (7 - i) then Instr.bit1 else .bit0) s) ∧
    (bytePrims v).length = 8 ∧ (∀ i < 8, (bytePrims v)[i]? = some (if v.getLsbD (7 - i) then .bit1 else .bit0)) ∧
    Prim.reset ∉ bytePrims v

/-- BYTE completes on every mapped pin outside the test mode, in the ticks of 42_byte_encoder.md R135 and with as many level
writes (R137), and leaves the pin low. -/
def Obligations.ByteCompletesInItsTicks : Prop :=
  ∀ (s : State) (b : Binding) (v : Byte), Pulsable s b → s.testing = false → s.cfg.wf → ∃ t l,
    exec (.byte v) s = .next t ∧ t.trace = s.trace ++ l ∧ l.length = bitTicks s.cfg (8 - ones v) (ones v) ∧
    (∀ e ∈ l, e = .wr b.lvl (setPin s.temp b.off) ∨ e = .wr b.lvl (clearPin s.temp b.off)) ∧
    t.temp = clearPin s.temp b.off ∧ MaskedStore b.lvl t.temp s.mem t.mem ∧
    t = { s with temp := t.temp, mem := t.mem, now := s.now + bitTicks s.cfg (8 - ones v) (ones v), traceRev := t.traceRev }

/-- 43_chain_writer.md R145: CHAIN is RESET, three zero bytes for each LED before the target, green, red, blue, RESET; with
position 0 it has no meaning (R151). -/
def Obligations.ChainIsResetZeroBytesColourReset : Prop :=
  ∀ (p : Word) (r g b : Byte) (s : State),
    (p ≠ 0 → exec (.chain p r g b) s =
      execAll ([.resetPulse] ++ List.replicate (3 * (p.toNat - 1)) (.byte 0x00) ++ [.byte g, .byte r, .byte b] ++
        [.resetPulse]) s) ∧
    (p = 0 → exec (.chain p r g b) s = .refused .chainPositionZero)

/-- CHAIN completes on every mapped pin outside the test mode in the ticks, and with the level writes, of 43_chain_writer.md
R146, and leaves the pin low. -/
def Obligations.ChainCompletesInItsTicks : Prop :=
  ∀ (s : State) (x : Binding) (p : Word) (r g b : Byte), Pulsable s x → s.testing = false → s.cfg.wf → p ≠ 0 →
    let o := ones g + ones r + ones b
    let z := 24 * p.toNat - o
    ∃ t l, exec (.chain p r g b) s = .next t ∧ t.trace = s.trace ++ l ∧
      l.length = 2 * s.cfg.nrst + bitTicks s.cfg z o ∧
      l.countP (fun e => e == .wr x.lvl (setPin s.temp x.off) || e == .wr x.lvl (clearPin s.temp x.off)) =
        2 + bitTicks s.cfg z o ∧
      l.count .dwell = 2 * (s.cfg.nrst - 1) ∧
      t.temp = clearPin s.temp x.off ∧ MaskedStore x.lvl t.temp s.mem t.mem ∧
      t = { s with temp := t.temp, mem := t.mem, now := s.now + l.length, traceRev := t.traceRev }

/-- 43_chain_writer.md R146 and R148: the counts of a chain update, and that resets bound it with none between. -/
def Obligations.ResetsBoundTheChainUpdate : Prop :=
  ∀ (p : Nat) (r g b : Byte), 1 ≤ p →
    (wireBytes p r g b).length = 3 * p ∧ (wireBytes p r g b).take (3 * (p - 1)) = List.replicate (3 * (p - 1)) 0 ∧
    (wireBytes p r g b).drop (3 * (p - 1)) = [g, r, b] ∧ (chainPrims p r g b).length = 24 * p + 2 ∧
    ∃ middle, chainPrims p r g b = .reset :: middle ++ [.reset] ∧ Prim.reset ∉ middle ∧ middle.length = 24 * p

/-- 45_host_operations.md R189: the length of the micro-program and how many of each micro-operation it holds. -/
def Obligations.MicroProgramHasTheStatedCounts : Prop :=
  ∀ (c : Config) (q : Request), c.wf → 1 ≤ q.pos.toNat →
    let o := ones q.g + ones q.r + ones q.b
    let z := 24 * q.pos.toNat - o
    let ops := (mprog c q).map Slot.op
    ops.take 4 = [.rdDir, .wrDir, .rdLvl, .wrLvlInit] ∧
    ops.length = 4 + 2 * c.nrst + z * (c.n0h + c.n0l) + o * (c.n1h + c.n1l) ∧
    ops.count .rdDir = 1 ∧ ops.count .rdLvl = 1 ∧ ops.count .wrDir = 1 ∧
    ops.count .wrLvlInit + ops.count .wrHigh + ops.count .wrLow =
      3 + z * (c.n0h + c.n0l) + o * (c.n1h + c.n1l) ∧
    ops.count .dwell = 2 * (c.nrst - 1)

/-- 41_pulse_primitives.md R123: with the test mode on, a primitive accesses no register, appends one pair for each phase to
the record, and updates TEMP as otherwise; so do its two writes and a whole BYTE. That a tick still passes, and that DWELL still
appends its event, is the model's choice (log 10). -/
def Obligations.TestModeRecordsEachPhase : Prop :=
  ∀ (s : State) (b : Binding), s.binding = some b → s.testing = true → s.cfg.wf →
    exec .wrHigh s = .next { s with temp := setPin s.temp b.off, now := s.now + 1 } ∧
    exec .wrLow s = .next { s with temp := clearPin s.temp b.off, now := s.now + 1 } ∧
    (∀ p ∈ [(Instr.bit0, [(true, s.cfg.n0h), (false, s.cfg.n0l)], 0), (.bit1, [(true, s.cfg.n1h), (false, s.cfg.n1l)], 0),
            (.resetPulse, [(false, s.cfg.nrst)], s.cfg.nrst - 1)],
      ∃ t, exec p.1 s = .next t ∧ t.record = s.record ++ p.2.1 ∧
        t = { s with temp := clearPin s.temp b.off, recordRev := t.recordRev,
                     now := s.now + (p.2.1.map Prod.snd).sum,
                     traceRev := List.replicate p.2.2 .dwell ++ s.traceRev }) ∧
    ∀ v, ∃ t, exec (.byte v) s = .next t ∧ t.record = s.record ++ (bitsOfByte v).flatMap (bitWave s.cfg) ∧
      t = { s with temp := clearPin s.temp b.off, recordRev := t.recordRev,
                   now := s.now + bitTicks s.cfg (8 - ones v) (ones v) }

/-- The record a whole CHAIN leaves in the test mode: one pair for each phase of each primitive, with no register access
(41_pulse_primitives.md R121, R123; 95_test_vectors.md P5). The ticks and the DWELL events are the model's choice (log 10). -/
def Obligations.TestModeRecordsAWholeChain : Prop :=
  ∀ (s : State) (x : Binding) (p : Word) (r g b : Byte), s.binding = some x → s.testing = true → s.cfg.wf → p ≠ 0 →
    let o := ones g + ones r + ones b
    ∃ t, exec (.chain p r g b) s = .next t ∧
      t.record = s.record ++ wave s.cfg (wireBits p.toNat r g b) ∧
      t.trace = s.trace ++ List.replicate (2 * (s.cfg.nrst - 1)) .dwell ∧
      t = { s with temp := clearPin s.temp x.off, recordRev := t.recordRev, traceRev := t.traceRev,
                   now := s.now + (2 * s.cfg.nrst + bitTicks s.cfg (24 * p.toNat - o) o) }

/-! ## The pin's life -/

/-- 44_pin_lifecycle.md R160: ACQUIRE completes with the environment's answer, either answer, and holds the address exactly
when it is yes. -/
def Obligations.AcquireHoldsWhatTheEnvironmentGrants : Prop :=
  ∀ (s : State) (a : Nat), ∃ ok t, exec (.acquire a) s = .next t ∧
    (∀ x, x ∈ t.held ↔ x ∈ s.held ∨ (ok = true ∧ x = a)) ∧ (heldWf s.held → heldWf t.held) ∧
    (∀ answer rest, s.acqDraws = answer :: rest → ok = answer ∧ t.acqDraws = rest ∧ t.drawCount = s.drawCount) ∧
    t = { s with held := t.held, traceRev := .acq a ok :: s.traceRev, acqDraws := t.acqDraws, drawCount := t.drawCount }

/-- 44_pin_lifecycle.md R166: RELEASE of a mapped binding releases both addresses and clears the sentinel, with no register
access; of an unmapped one, so also a second time, it does nothing; an address of the binding that is not held, or no longer
held since it was the first one, is the fault of R161. -/
def Obligations.ReleaseClearsTheBindingOnce : Prop :=
  ∀ s : State,
    (s.binding = none → exec .release s = .next s) ∧
    (∀ b, s.binding = some b → b.dir ∈ s.held → b.lvl ∈ s.held → b.dir ≠ b.lvl → ∃ t, exec .release s = .next t ∧
      (∀ x, x ∈ t.held ↔ x ∈ s.held ∧ x ≠ b.dir ∧ x ≠ b.lvl) ∧
      t = { s with binding := none, held := t.held, traceRev := .rel b.lvl :: .rel b.dir :: s.traceRev } ∧
      exec .release t = .next t) ∧
    (∀ b, s.binding = some b → b.dir ∉ s.held → exec .release s = .fault (.notHeld b.dir)) ∧
    (∀ b, s.binding = some b → b.dir ∈ s.held → b.lvl ∉ s.held ∨ b.dir = b.lvl →
      exec .release s = .fault (.notHeld b.lvl))

/-- 44_pin_lifecycle.md R163 when both acquisitions succeed: the old pair is released, the new pair held and bound, the pin is
an output and drives high, every other pin's bits are as before. -/
def Obligations.PinOpenConfiguresThePin : Prop :=
  ∀ (s : State) (bank pin : Word) (x : Binding) (rest : List Bool), Releasable s → s.acqDraws = true :: true :: rest →
    resolve s.cfg bank.toNat pin.toNat = .found x → ∃ t v w, exec (.pinOpen bank pin) s = .next t ∧
      dataHalf v = regData s.mem x.dir ∧ dataHalf w = regData s.mem x.lvl ∧
      t.trace = s.trace ++ releaseEvents s.binding ++
        [.acq x.dir true, .acq x.lvl true, .rd x.dir v, .wr x.dir (enablePin v x.off), .rd x.lvl w,
         .wr x.lvl (enablePin w x.off)] ∧
      pinLevel t.mem x = some true ∧ t.temp.getLsbD x.off = true ∧ t.temp.getLsbD (x.off + 16) = true ∧
      SameBitsBut x.off x.dir s.mem t.mem ∧ SameBitsBut x.off x.lvl s.mem t.mem ∧ SameOutside x.dir x.lvl s.mem t.mem ∧
      t = { s with binding := some x, held := heldOf (some x), dtmp := enablePin v x.off, temp := enablePin w x.off,
                   mem := t.mem, traceRev := t.traceRev, acqDraws := rest, upperDraws := t.upperDraws,
                   drawCount := t.drawCount }

/-- 44_pin_lifecycle.md R162 and R167: where PIN_OPEN ends in a failure. A failure in RESOLVE leaves the old binding mapped; a
failed acquisition leaves B_MAPPED = 0 and nothing held, the first address released before the failure is reported. That a
PIN_OPEN executed by itself takes its failures as inside a WRITE (60_exceptions.md R236), with STATUS, BUSY and Ret, is the
model's reading (log 25), and the field `cause` is its bookkeeping (log 18). -/
def Obligations.PinOpenFailuresTearDown : Prop :=
  ∀ (s : State) (bank pin : Word),
    (bank.toNat > 4 ∨ pin.toNat > 31 → exec (.pinOpen bank pin) s = .next
      { s with status := .invalidAddressParameters, cause := some (.invalidAddressParameters bank pin), busy := false,
               traceRev := .ret .invalidAddressParameters :: s.traceRev }) ∧
    (bank.toNat ≤ 4 → pin.toNat ≤ 31 → pin.toNat / s.cfg.halfDiv > 1 →
      exec (.pinOpen bank pin) s = .refused (.noRegisterForPin pin)) ∧
    (∀ x rest, Releasable s → resolve s.cfg bank.toNat pin.toNat = .found x →
      (s.acqDraws = false :: rest → ∃ t, exec (.pinOpen bank pin) s = .next t ∧
        t.trace = s.trace ++ releaseEvents s.binding ++ [.acq x.dir false, .ret .resourceUnavailable] ∧
        t = { s with binding := none, held := [], status := .resourceUnavailable, cause := some (.resourceUnavailable x.dir),
                     busy := false, acqDraws := rest, traceRev := t.traceRev }) ∧
      (s.acqDraws = true :: false :: rest → ∃ t, exec (.pinOpen bank pin) s = .next t ∧
        t.trace = s.trace ++ releaseEvents s.binding ++
          [.acq x.dir true, .acq x.lvl false, .rel x.dir, .ret .resourceUnavailable] ∧
        t = { s with binding := none, held := [], status := .resourceUnavailable, cause := some (.resourceUnavailable x.lvl),
                     busy := false, acqDraws := rest, traceRev := t.traceRev }))

/-! ## Host commands -/

/-- 45_host_operations.md R180: OPEN is a no-op but for STATUS and the status returned. -/
def Obligations.OpenOnlyReturnsOk : Prop :=
  ∀ s : State, s.busy = false →
    exec .openCmd s = .next { s with status := .ok, cause := none, traceRev := .ret .ok :: s.traceRev }

/-- 45_host_operations.md R186: CLOSE releases the binding and returns OK, with no register access, whatever came before. -/
def Obligations.CloseReleasesTheBinding : Prop :=
  ∀ s : State, s.busy = false → Releasable s → ∃ t, exec .closeCmd s = .next t ∧
    t.trace = s.trace ++ releaseEvents s.binding ++ [.ret .ok] ∧
    t = { s with binding := none, held := [], status := .ok, cause := none, traceRev := t.traceRev }

/-- 45_host_operations.md R182: VALIDATE tests bank, pin, position in this order, changes nothing when they pass, and raises
InvalidRequest with the first that does not. That a VALIDATE executed by itself takes a failure as inside a WRITE
(60_exceptions.md R236), with STATUS, BUSY and Ret, is the model's reading (log 25), and the field `cause` is its bookkeeping
(log 18). -/
def Obligations.ValidateTestsBankPinPosition : Prop :=
  ∀ (s : State) (bank pin pos : Word),
    let failed := fun f => Host.Outcome.next (φ := Fault) (ρ := Refusal)
      { s with status := .invalidRequest, cause := some (.invalidRequest f), busy := false,
               traceRev := .ret .invalidRequest :: s.traceRev }
    (bank.toNat > 4 → exec (.validate bank pin pos) s = failed .bank) ∧
    (bank.toNat ≤ 4 → pin.toNat > 31 → exec (.validate bank pin pos) s = failed .pin) ∧
    (bank.toNat ≤ 4 → pin.toNat ≤ 31 → (pos.toNat < 1 ∨ pos.toNat > s.cfg.ledMax) →
      exec (.validate bank pin pos) s = failed .position) ∧
    (bank.toNat ≤ 4 → pin.toNat ≤ 31 → 1 ≤ pos.toNat → pos.toNat ≤ s.cfg.ledMax →
      exec (.validate bank pin pos) s = .next s)

/-- A WRITE that fails in the size check or in VALIDATE returns InvalidRequest and changes nothing else: latch, binding, HELD,
TEMP and registers are as before (60_exceptions.md R235, R236; 45_host_operations.md R183). -/
def Obligations.InvalidWritesChangeNothingElse : Prop :=
  ∀ (s : State) (blk : List Byte), s.busy = false →
    let failed := fun f => Host.Outcome.next (φ := Fault) (ρ := Refusal)
      { s with status := .invalidRequest, cause := some (.invalidRequest f), traceRev := .ret .invalidRequest :: s.traceRev }
    (blk.length ≠ 16 → exec (.writeCmd blk) s = failed .size) ∧
    (∀ q, requestOfBlock blk = some q →
      (q.bank.toNat > 4 → exec (.writeCmd blk) s = failed .bank) ∧
      (q.bank.toNat ≤ 4 → q.pin.toNat > 31 → exec (.writeCmd blk) s = failed .pin) ∧
      (q.bank.toNat ≤ 4 → q.pin.toNat ≤ 31 → (q.pos.toNat < 1 ∨ q.pos.toNat > s.cfg.ledMax) →
        exec (.writeCmd blk) s = failed .position))

/-- A WRITE whose acquisition fails returns ResourceUnavailable with the new request latched, B_MAPPED = 0 and nothing held; one
that reaches a pin without a register is refused (60_exceptions.md R236, 45_host_operations.md R195, 40_pin_resolver.md
R102). -/
def Obligations.UnavailableWritesLeaveNothingHeld : Prop :=
  ∀ (s : State) (blk : List Byte) (q : Request), s.busy = false → Releasable s → requestOfBlock blk = some q → RequestOk s.cfg q →
    (pinStep s.cfg q.pin.toNat > 1 → exec (.writeCmd blk) s = .refused (.noRegisterForPin q.pin)) ∧
    (∀ x rest, resolve s.cfg q.bank.toNat q.pin.toNat = .found x →
      (s.acqDraws = false :: rest → ∃ t, exec (.writeCmd blk) s = .next t ∧
        t.trace = s.trace ++ releaseEvents s.binding ++ [.acq x.dir false, .ret .resourceUnavailable] ∧
        t = { s with latch := q, binding := none, held := [], status := .resourceUnavailable,
                     cause := some (.resourceUnavailable x.dir), acqDraws := rest, traceRev := t.traceRev }) ∧
      (s.acqDraws = true :: false :: rest → ∃ t, exec (.writeCmd blk) s = .next t ∧
        t.trace = s.trace ++ releaseEvents s.binding ++
          [.acq x.dir true, .acq x.lvl false, .rel x.dir, .ret .resourceUnavailable] ∧
        t = { s with latch := q, binding := none, held := [], status := .resourceUnavailable,
                     cause := some (.resourceUnavailable x.lvl), acqDraws := rest, traceRev := t.traceRev }))

/-- 60_exceptions.md R237: failures come before any effect on the outside. A WRITE that ends at once, and every other step of an
idle engine, leaves memory as it was and adds no register access and no tick to the trace. -/
def Obligations.IdleStepsNeverTouchTheOutside : Prop :=
  ∀ s t : State, s.busy = false → step s = .next t →
    t.mem = s.mem ∧ t.temp = s.temp ∧ t.dtmp = s.dtmp ∧
    ∃ l, t.trace = s.trace ++ l ∧ ∀ e ∈ l, e.outside = false

/-- 45_host_operations.md R194: while BUSY = 1 no host command is taken. OPEN, WRITE and CLOSE are refused, and the step is the
same whatever the host has waiting. -/
def Obligations.BusyEngineTakesNoCommand : Prop :=
  ∀ s : State, s.busy = true →
    exec .openCmd s = .refused .commandWhileBusy ∧ exec .closeCmd s = .refused .commandWhileBusy ∧
    (∀ blk, exec (.writeCmd blk) s = .refused .commandWhileBusy) ∧
    ∀ q, AlikeBy (fun t u => u = { t with inbox := q } ∧ t.inbox = s.inbox) (step s) (step { s with inbox := q })

/-- A valid WRITE with both acquisitions granted is accepted: its next state has BUSY = 1, the request latched, the new binding
mapped and held, UPC = 0 (45_host_operations.md R181, R183, R184; 44_pin_lifecycle.md R163), and outside the test mode the
sequencer's steps then run it to completion: `OK`, BUSY = 0, the line driven low, TEMP as R185 says, every other pin's bits as
before. The cut into an acceptance, the micro-operations and one completing step is the model's reading (log 1). -/
def Obligations.WriteIsAcceptedAndRunsToCompletion : Prop :=
  ∀ (s : State) (blk : List Byte) (q : Request) (x : Binding) (rest : List Bool),
    s.busy = false → Releasable s → s.cfg.wf → requestOfBlock blk = some q → RequestOk s.cfg q →
    resolve s.cfg q.bank.toNat q.pin.toNat = .found x → s.acqDraws = true :: true :: rest →
    ∃ t, exec (.writeCmd blk) s = .next t ∧
      t.trace = s.trace ++ releaseEvents s.binding ++ [.acq x.dir true, .acq x.lvl true] ∧
      t = { s with latch := q, binding := some x, held := heldOf (some x), busy := true, upc := 0, now := 0,
                   acqDraws := rest, traceRev := t.traceRev } ∧
      (s.testing = false → ∃ u, run ((mprog s.cfg q).length + 1) t = .next u ∧
        (∃ w, dataHalf w = regData s.mem x.lvl ∧ .rd x.lvl w ∈ u.trace ∧
          u.temp = (w ||| BitVec.twoPow 32 (x.off + 16)) &&& ~~~(BitVec.twoPow 32 x.off)) ∧
        pinLevel u.mem x = some false ∧
        SameBitsBut x.off x.dir s.mem u.mem ∧ SameBitsBut x.off x.lvl s.mem u.mem ∧ SameOutside x.dir x.lvl s.mem u.mem ∧
        u.trace.getLast? = some (.ret .ok) ∧
        u = { s with latch := q, binding := some x, held := heldOf (some x), busy := false, status := .ok, cause := none,
                     upc := (mprog s.cfg q).length, now := (mprog s.cfg q).length - 4, acqDraws := rest, temp := u.temp,
                     dtmp := u.dtmp, mem := u.mem, traceRev := u.traceRev, upperDraws := u.upperDraws,
                     drawCount := u.drawCount })

/-- CORE_WRITE entered directly (45_host_operations.md R184) completes when its pin resolves and both acquisitions are granted,
whatever BUSY is: the whole micro-program has run. Outside the test mode the pin is an output driving low; in it the record holds
the waveform, and the pin is as the configuration left it, driving high (41_pulse_primitives.md R123; that the configuration
still accesses its registers there is the model's reading, log 10). With position 0 it has no meaning (43_chain_writer.md
R151). -/
def Obligations.CoreWriteRunsTheWholeMicroProgram : Prop :=
  ∀ (s : State) (x : Binding) (rest : List Bool), Releasable s → s.cfg.wf →
    resolve s.cfg s.latch.bank.toNat s.latch.pin.toNat = .found x → s.acqDraws = true :: true :: rest →
    (s.latch.pos = 0 → exec .coreWrite s = .refused .chainPositionZero) ∧
    (s.latch.pos ≠ 0 → ∃ t, exec .coreWrite s = .next t ∧
      pinLevel t.mem x = some s.testing ∧ t.temp.getLsbD x.off = false ∧ t.temp.getLsbD (x.off + 16) = true ∧
      t.record = s.record ++
        (if s.testing then wave s.cfg (wireBits s.latch.pos.toNat s.latch.r s.latch.g s.latch.b) else []) ∧
      SameBitsBut x.off x.dir s.mem t.mem ∧ SameBitsBut x.off x.lvl s.mem t.mem ∧ SameOutside x.dir x.lvl s.mem t.mem ∧
      t = { s with binding := some x, held := heldOf (some x), upc := (mprog s.cfg s.latch).length,
                   now := (mprog s.cfg s.latch).length - 4, acqDraws := rest, temp := t.temp, dtmp := t.dtmp, mem := t.mem,
                   traceRev := t.traceRev, recordRev := t.recordRev, upperDraws := t.upperDraws, drawCount := t.drawCount })

/-- How CORE_WRITE entered directly fails (45_host_operations.md R184). A bank or a pin out of range raises
InvalidAddressParameters (40_pin_resolver.md R101) and changes nothing else; a pin without a register is refused (R102); a denied
acquisition raises ResourceUnavailable with the old pair and any first address released, the binding unmapped and nothing held
(44_pin_lifecycle.md R162, R167), whatever the position. That such a failure sets STATUS and BUSY and emits Ret as inside a
WRITE (60_exceptions.md R236) is the model's reading (log 25), that it comes before the refusal of position 0 too (log 15), and
the field `cause` is its bookkeeping (log 18). -/
def Obligations.CoreWriteFailuresTearDown : Prop :=
  ∀ s : State,
    (s.latch.bank.toNat > 4 ∨ s.latch.pin.toNat > 31 → exec .coreWrite s = .next
      { s with status := .invalidAddressParameters, cause := some (.invalidAddressParameters s.latch.bank s.latch.pin),
               busy := false, traceRev := .ret .invalidAddressParameters :: s.traceRev }) ∧
    (s.latch.bank.toNat ≤ 4 → s.latch.pin.toNat ≤ 31 → s.latch.pin.toNat / s.cfg.halfDiv > 1 →
      exec .coreWrite s = .refused (.noRegisterForPin s.latch.pin)) ∧
    (∀ x rest, Releasable s → resolve s.cfg s.latch.bank.toNat s.latch.pin.toNat = .found x →
      (s.acqDraws = false :: rest → ∃ t, exec .coreWrite s = .next t ∧
        t.trace = s.trace ++ releaseEvents s.binding ++ [.acq x.dir false, .ret .resourceUnavailable] ∧
        t = { s with binding := none, held := [], status := .resourceUnavailable, cause := some (.resourceUnavailable x.dir),
                     busy := false, acqDraws := rest, traceRev := t.traceRev }) ∧
      (s.acqDraws = true :: false :: rest → ∃ t, exec .coreWrite s = .next t ∧
        t.trace = s.trace ++ releaseEvents s.binding ++
          [.acq x.dir true, .acq x.lvl false, .rel x.dir, .ret .resourceUnavailable] ∧
        t = { s with binding := none, held := [], status := .resourceUnavailable, cause := some (.resourceUnavailable x.lvl),
                     busy := false, acqDraws := rest, traceRev := t.traceRev }))

/-- The loop of CORE_WRITE and the sequencer are the same machine (45_host_operations.md R184, R191): stepping a busy engine
through its micro-program gives what the loop gives, outcome for outcome. That CORE_WRITE entered directly is one instruction is
the model's choice (log 24), and this says that nothing depends on it. -/
def Obligations.SequencerRefinesCoreWrite : Prop :=
  ∀ s t : State, s.busy = true → enterCore s = .next (.going t) →
    run (mprog t.cfg t.latch).length t = exec .coreWrite s

/-! ## Whole-machine rules -/

/-- Every step keeps the invariant: HELD is what the binding says (10_state.md R29), the binding lies in one bank (R34 b), the
pin's write-enable bit stays set in TEMP (R34 c), the shadow agrees with the level register in every other pin's bit (R34 d),
memory keeps its canonical form, UPC and NOW keep step. -/
def Obligations.EveryStepKeepsTheInvariant : Prop :=
  ∀ s t : State, EngineInv s → step s = .next t → EngineInv t

/-- From a state that meets the invariant no step faults: the preconditions of 60_exceptions.md R232 are never broken; and a
step is refused only for what is no command, or for pin 30 or 31 with HALF_DIV = 15 (40_pin_resolver.md R102). -/
def Obligations.NoStepFromTheInvariantFaults : Prop :=
  ∀ s : State, EngineInv s → (∀ f, step s ≠ .fault f) ∧
    ∀ r, step s = .refused r → s.busy = false ∧
      (r = .noSuchCommand ∨ r = .operandOnHook ∨
        ∃ pin, r = .noRegisterForPin pin ∧ s.cfg.halfDiv = 15 ∧ (pin.toNat = 30 ∨ pin.toNat = 31))

/-- 44_pin_lifecycle.md R169: every address is released as often as it was acquired, once less while it is held; every step
keeps it. With HELD empty, as after a CLOSE, each acquisition has had exactly one release. -/
def Obligations.EveryAcquisitionIsReleasedExactlyOnce : Prop :=
  ∀ s t : State, EngineInv s → HeldBalance s → step s = .next t → HeldBalance t ∧
    (t.held = [] → ∀ a, acquiredCount a t.trace = releasedCount a t.trace)

/-- 10_state.md R36, without choosing a value: no rule reads a register before it is written. Two idle engines that differ only
in the latch, TEMP, DTMP and UPC go through the same outcomes, and never differ in anything else, for any number of steps. So
no run from reset shows the values that log 4 names. -/
def Obligations.UnwrittenRegistersAreNeverRead : Prop :=
  ∀ (k : Nat) (s t : State), s.busy = false → SameButDead s t → AlikeBy SameButDead (run k s) (run k t)

/-- 45_host_operations.md R192, 60_exceptions.md R237: run to completion. In a state that meets the invariant a busy engine
always has a next state: UPC goes up by one and the request, the binding, HELD and STATUS stay, until the micro-program has
ended; then the WRITE returns OK and the engine is idle. -/
def Obligations.BusyEngineRunsToCompletion : Prop :=
  ∀ s : State, EngineInv s → s.busy = true → ∃ t, step s = .next t ∧
    (s.upc < (mprog s.cfg s.latch).length → t.upc = s.upc + 1 ∧ t.busy = true ∧ t.latch = s.latch ∧ t.binding = s.binding ∧
      t.held = s.held ∧ t.status = s.status ∧ t.cfg = s.cfg ∧ t.inbox = s.inbox) ∧
    (s.upc = (mprog s.cfg s.latch).length →
      t = { s with status := .ok, cause := none, busy := false, traceRev := .ret .ok :: s.traceRev })

/-- 10_state.md R34 (d): in the timed window every word written to the level register equals TEMP before it in all bits but bit
B_OFF, every other data bit of the level register keeps its value, and every other register its bytes. -/
def Obligations.TimedWindowTouchesOnlyThePin : Prop :=
  ∀ (s t : State) (b : Binding), EngineInv s → s.busy = true → s.binding = some b → 4 ≤ s.upc → step s = .next t →
    (∀ n < 32, n ≠ b.off.val → t.temp.getLsbD n = s.temp.getLsbD n) ∧
    (∀ a w, t.traceRev = .wr a w :: s.traceRev → a = b.lvl ∧ w = t.temp) ∧
    SameBitsBut b.off b.lvl s.mem t.mem ∧
    (∀ x, x ≠ b.lvl → x ≠ b.lvl + 1 → readByte t.mem x = readByte s.mem x)

/-- 10_state.md R37: each instruction writes only what the access table gives it, and nothing writes the parameters, the
test-mode switch or the host's commands (R32). -/
def Obligations.EachInstructionWritesOnlyItsState : Prop :=
  ∀ (i : Instr) (s t : State), exec i s = .next t → ∀ r, r ∉ mayWrite i → r.same s t

/-- Every instruction keeps the canonical forms of memory and of HELD, from every state. The two forms are the model's own (logs 6
and 27); the spec asks for equal registers (10_state.md R28) and a set (R29) only. -/
def Obligations.EveryInstructionKeepsCanonicalForms : Prop :=
  ∀ (i : Instr) (s t : State), exec i s = .next t →
    (Memory.wf s.mem → Memory.wf t.mem) ∧ (heldWf s.held → heldWf t.held)

/-! ## The line and the LED chain -/

/-- 46_line_and_receiver.md R210: the trace of an accepted WRITE's timed window puts the stated waveform on the line, tick by
tick, ending in the status returned. -/
def Obligations.WritePutsTheWaveformOnTheLine : Prop :=
  ∀ (s : State) (blk : List Byte) (q : Request) (x : Binding) (rest : List Bool) (t u : State),
    s.busy = false → Releasable s → s.cfg.wf → s.testing = false → requestOfBlock blk = some q → RequestOk s.cfg q →
    resolve s.cfg q.bank.toNat q.pin.toNat = .found x → s.acqDraws = true :: true :: rest →
    exec (.writeCmd blk) s = .next t → run ((mprog s.cfg q).length + 1) t = .next u →
    ∃ v w l, u.trace = t.trace ++ [.rd x.dir v, .wr x.dir (enablePin v x.off), .rd x.lvl w, .wr x.lvl (enablePin w x.off)] ++
        l ++ [.ret .ok] ∧
      (∀ e ∈ l, e = .dwell ∨ e = .wr x.lvl (enablePin w x.off) ∨ e = .wr x.lvl (clearPin (enablePin w x.off) x.off)) ∧
      traceLevels x true l = levelsOf (wave s.cfg (wireBits q.pos.toNat q.r q.g q.b))

/-- 46_line_and_receiver.md R216: after a conformant WRITE the LEDs before the target are black and the target shows the
colour, for all real tick durations (R212 has them positive, which is not needed; log 30); LEDs after it are unconstrained. It
rests on log 22: that LEDs count their bits anew after each reset is the spec's general knowledge (G7), PRESUMED. -/
def Obligations.ConformantWriteShowsTheColour : Prop :=
  ∀ (c : Config) (d : Nat → Duration) (p : Nat) (r g b : Byte), c.wf → 1 ≤ p →
    let bits := wireBits p r g b
    let line := intervals d 0 (levelsOf (wave c bits))
    conformant bits line = true →
      (∀ k, 1 ≤ k → k < p → shownAfterWrite bits line k = some { r := 0, g := 0, b := 0 }) ∧
      shownAfterWrite bits line p = some { r := r, g := g, b := b } ∧
      ∀ k, p < k → shownAfterWrite bits line k = none

/-- 46_line_and_receiver.md R213, last part: with every tick equal to TICK_NS a nominally conformant calibration (00_scope.md
R7 (c)) gives a conformant waveform. -/
def Obligations.NominalCalibrationGivesAConformantWave : Prop :=
  ∀ (c : Config) (p : Nat) (r g b : Byte), c.wf → c.nominal → 1 ≤ p →
    conformant (wireBits p r g b) (intervals (fun _ => c.tickNs) 0 (levelsOf (wave c (wireBits p r g b)))) = true

/-- 20_memory.md R59: the pin is driven exactly when its direction data bit is 1, and then its level is its level data bit. -/
def Obligations.PinLevelFollowsTheDataBits : Prop :=
  ∀ (m : Memory) (b : Binding),
    ((regData m b.dir).getLsbD b.off = true → pinLevel m b = some ((regData m b.lvl).getLsbD b.off)) ∧
    ((regData m b.dir).getLsbD b.off = false → pinLevel m b = none)

/-- 60_exceptions.md R230: the codes of the four outcomes, and the outcome each failure is reported as. -/
def Obligations.OutcomesHaveTheStatedCodes : Prop :=
  Status.code .ok = 0 ∧ (∀ f, (Failure.invalidRequest f).status.code = 1) ∧
  (∀ b p, (Failure.invalidAddressParameters b p).status.code = 2) ∧ (∀ a, (Failure.resourceUnavailable a).status.code = 3)
end

