-- ==== Sys2Proof/Laws/State.lean ====
section
/-! SUPPORT. One lemma for each field of State and each one-field update, so that no proof unfolds a record update. -/

namespace Sys2Proof.Machine.State

/-! `setLatch` -/

@[simp] theorem setLatch_latch (s : State) (v : Request) : (s.setLatch v).latch = v := rfl
@[simp] theorem setLatch_binding (s : State) (v : Request) : (s.setLatch v).binding = s.binding := rfl
@[simp] theorem setLatch_temp (s : State) (v : Request) : (s.setLatch v).temp = s.temp := rfl
@[simp] theorem setLatch_dtmp (s : State) (v : Request) : (s.setLatch v).dtmp = s.dtmp := rfl
@[simp] theorem setLatch_busy (s : State) (v : Request) : (s.setLatch v).busy = s.busy := rfl
@[simp] theorem setLatch_upc (s : State) (v : Request) : (s.setLatch v).upc = s.upc := rfl
@[simp] theorem setLatch_status (s : State) (v : Request) : (s.setLatch v).status = s.status := rfl
@[simp] theorem setLatch_cause (s : State) (v : Request) : (s.setLatch v).cause = s.cause := rfl
@[simp] theorem setLatch_held (s : State) (v : Request) : (s.setLatch v).held = s.held := rfl
@[simp] theorem setLatch_mem (s : State) (v : Request) : (s.setLatch v).mem = s.mem := rfl
@[simp] theorem setLatch_traceRev (s : State) (v : Request) : (s.setLatch v).traceRev = s.traceRev := rfl
@[simp] theorem setLatch_now (s : State) (v : Request) : (s.setLatch v).now = s.now := rfl
@[simp] theorem setLatch_testMode (s : State) (v : Request) : (s.setLatch v).testMode = s.testMode := rfl
@[simp] theorem setLatch_recordRev (s : State) (v : Request) : (s.setLatch v).recordRev = s.recordRev := rfl
@[simp] theorem setLatch_cfg (s : State) (v : Request) : (s.setLatch v).cfg = s.cfg := rfl
@[simp] theorem setLatch_inbox (s : State) (v : Request) : (s.setLatch v).inbox = s.inbox := rfl
@[simp] theorem setLatch_acqDraws (s : State) (v : Request) : (s.setLatch v).acqDraws = s.acqDraws := rfl
@[simp] theorem setLatch_upperDraws (s : State) (v : Request) : (s.setLatch v).upperDraws = s.upperDraws := rfl
@[simp] theorem setLatch_drawCount (s : State) (v : Request) : (s.setLatch v).drawCount = s.drawCount := rfl

/-! `setBinding` -/

@[simp] theorem setBinding_latch (s : State) (v : Option Binding) : (s.setBinding v).latch = s.latch := rfl
@[simp] theorem setBinding_binding (s : State) (v : Option Binding) : (s.setBinding v).binding = v := rfl
@[simp] theorem setBinding_temp (s : State) (v : Option Binding) : (s.setBinding v).temp = s.temp := rfl
@[simp] theorem setBinding_dtmp (s : State) (v : Option Binding) : (s.setBinding v).dtmp = s.dtmp := rfl
@[simp] theorem setBinding_busy (s : State) (v : Option Binding) : (s.setBinding v).busy = s.busy := rfl
@[simp] theorem setBinding_upc (s : State) (v : Option Binding) : (s.setBinding v).upc = s.upc := rfl
@[simp] theorem setBinding_status (s : State) (v : Option Binding) : (s.setBinding v).status = s.status := rfl
@[simp] theorem setBinding_cause (s : State) (v : Option Binding) : (s.setBinding v).cause = s.cause := rfl
@[simp] theorem setBinding_held (s : State) (v : Option Binding) : (s.setBinding v).held = s.held := rfl
@[simp] theorem setBinding_mem (s : State) (v : Option Binding) : (s.setBinding v).mem = s.mem := rfl
@[simp] theorem setBinding_traceRev (s : State) (v : Option Binding) : (s.setBinding v).traceRev = s.traceRev := rfl
@[simp] theorem setBinding_now (s : State) (v : Option Binding) : (s.setBinding v).now = s.now := rfl
@[simp] theorem setBinding_testMode (s : State) (v : Option Binding) : (s.setBinding v).testMode = s.testMode := rfl
@[simp] theorem setBinding_recordRev (s : State) (v : Option Binding) : (s.setBinding v).recordRev = s.recordRev := rfl
@[simp] theorem setBinding_cfg (s : State) (v : Option Binding) : (s.setBinding v).cfg = s.cfg := rfl
@[simp] theorem setBinding_inbox (s : State) (v : Option Binding) : (s.setBinding v).inbox = s.inbox := rfl
@[simp] theorem setBinding_acqDraws (s : State) (v : Option Binding) : (s.setBinding v).acqDraws = s.acqDraws := rfl
@[simp] theorem setBinding_upperDraws (s : State) (v : Option Binding) : (s.setBinding v).upperDraws = s.upperDraws := rfl
@[simp] theorem setBinding_drawCount (s : State) (v : Option Binding) : (s.setBinding v).drawCount = s.drawCount := rfl

/-! `setTemp` -/

@[simp] theorem setTemp_latch (s : State) (v : Word) : (s.setTemp v).latch = s.latch := rfl
@[simp] theorem setTemp_binding (s : State) (v : Word) : (s.setTemp v).binding = s.binding := rfl
@[simp] theorem setTemp_temp (s : State) (v : Word) : (s.setTemp v).temp = v := rfl
@[simp] theorem setTemp_dtmp (s : State) (v : Word) : (s.setTemp v).dtmp = s.dtmp := rfl
@[simp] theorem setTemp_busy (s : State) (v : Word) : (s.setTemp v).busy = s.busy := rfl
@[simp] theorem setTemp_upc (s : State) (v : Word) : (s.setTemp v).upc = s.upc := rfl
@[simp] theorem setTemp_status (s : State) (v : Word) : (s.setTemp v).status = s.status := rfl
@[simp] theorem setTemp_cause (s : State) (v : Word) : (s.setTemp v).cause = s.cause := rfl
@[simp] theorem setTemp_held (s : State) (v : Word) : (s.setTemp v).held = s.held := rfl
@[simp] theorem setTemp_mem (s : State) (v : Word) : (s.setTemp v).mem = s.mem := rfl
@[simp] theorem setTemp_traceRev (s : State) (v : Word) : (s.setTemp v).traceRev = s.traceRev := rfl
@[simp] theorem setTemp_now (s : State) (v : Word) : (s.setTemp v).now = s.now := rfl
@[simp] theorem setTemp_testMode (s : State) (v : Word) : (s.setTemp v).testMode = s.testMode := rfl
@[simp] theorem setTemp_recordRev (s : State) (v : Word) : (s.setTemp v).recordRev = s.recordRev := rfl
@[simp] theorem setTemp_cfg (s : State) (v : Word) : (s.setTemp v).cfg = s.cfg := rfl
@[simp] theorem setTemp_inbox (s : State) (v : Word) : (s.setTemp v).inbox = s.inbox := rfl
@[simp] theorem setTemp_acqDraws (s : State) (v : Word) : (s.setTemp v).acqDraws = s.acqDraws := rfl
@[simp] theorem setTemp_upperDraws (s : State) (v : Word) : (s.setTemp v).upperDraws = s.upperDraws := rfl
@[simp] theorem setTemp_drawCount (s : State) (v : Word) : (s.setTemp v).drawCount = s.drawCount := rfl

/-! `setDtmp` -/

@[simp] theorem setDtmp_latch (s : State) (v : Word) : (s.setDtmp v).latch = s.latch := rfl
@[simp] theorem setDtmp_binding (s : State) (v : Word) : (s.setDtmp v).binding = s.binding := rfl
@[simp] theorem setDtmp_temp (s : State) (v : Word) : (s.setDtmp v).temp = s.temp := rfl
@[simp] theorem setDtmp_dtmp (s : State) (v : Word) : (s.setDtmp v).dtmp = v := rfl
@[simp] theorem setDtmp_busy (s : State) (v : Word) : (s.setDtmp v).busy = s.busy := rfl
@[simp] theorem setDtmp_upc (s : State) (v : Word) : (s.setDtmp v).upc = s.upc := rfl
@[simp] theorem setDtmp_status (s : State) (v : Word) : (s.setDtmp v).status = s.status := rfl
@[simp] theorem setDtmp_cause (s : State) (v : Word) : (s.setDtmp v).cause = s.cause := rfl
@[simp] theorem setDtmp_held (s : State) (v : Word) : (s.setDtmp v).held = s.held := rfl
@[simp] theorem setDtmp_mem (s : State) (v : Word) : (s.setDtmp v).mem = s.mem := rfl
@[simp] theorem setDtmp_traceRev (s : State) (v : Word) : (s.setDtmp v).traceRev = s.traceRev := rfl
@[simp] theorem setDtmp_now (s : State) (v : Word) : (s.setDtmp v).now = s.now := rfl
@[simp] theorem setDtmp_testMode (s : State) (v : Word) : (s.setDtmp v).testMode = s.testMode := rfl
@[simp] theorem setDtmp_recordRev (s : State) (v : Word) : (s.setDtmp v).recordRev = s.recordRev := rfl
@[simp] theorem setDtmp_cfg (s : State) (v : Word) : (s.setDtmp v).cfg = s.cfg := rfl
@[simp] theorem setDtmp_inbox (s : State) (v : Word) : (s.setDtmp v).inbox = s.inbox := rfl
@[simp] theorem setDtmp_acqDraws (s : State) (v : Word) : (s.setDtmp v).acqDraws = s.acqDraws := rfl
@[simp] theorem setDtmp_upperDraws (s : State) (v : Word) : (s.setDtmp v).upperDraws = s.upperDraws := rfl
@[simp] theorem setDtmp_drawCount (s : State) (v : Word) : (s.setDtmp v).drawCount = s.drawCount := rfl

/-! `setBusy` -/

@[simp] theorem setBusy_latch (s : State) (v : Bool) : (s.setBusy v).latch = s.latch := rfl
@[simp] theorem setBusy_binding (s : State) (v : Bool) : (s.setBusy v).binding = s.binding := rfl
@[simp] theorem setBusy_temp (s : State) (v : Bool) : (s.setBusy v).temp = s.temp := rfl
@[simp] theorem setBusy_dtmp (s : State) (v : Bool) : (s.setBusy v).dtmp = s.dtmp := rfl
@[simp] theorem setBusy_busy (s : State) (v : Bool) : (s.setBusy v).busy = v := rfl
@[simp] theorem setBusy_upc (s : State) (v : Bool) : (s.setBusy v).upc = s.upc := rfl
@[simp] theorem setBusy_status (s : State) (v : Bool) : (s.setBusy v).status = s.status := rfl
@[simp] theorem setBusy_cause (s : State) (v : Bool) : (s.setBusy v).cause = s.cause := rfl
@[simp] theorem setBusy_held (s : State) (v : Bool) : (s.setBusy v).held = s.held := rfl
@[simp] theorem setBusy_mem (s : State) (v : Bool) : (s.setBusy v).mem = s.mem := rfl
@[simp] theorem setBusy_traceRev (s : State) (v : Bool) : (s.setBusy v).traceRev = s.traceRev := rfl
@[simp] theorem setBusy_now (s : State) (v : Bool) : (s.setBusy v).now = s.now := rfl
@[simp] theorem setBusy_testMode (s : State) (v : Bool) : (s.setBusy v).testMode = s.testMode := rfl
@[simp] theorem setBusy_recordRev (s : State) (v : Bool) : (s.setBusy v).recordRev = s.recordRev := rfl
@[simp] theorem setBusy_cfg (s : State) (v : Bool) : (s.setBusy v).cfg = s.cfg := rfl
@[simp] theorem setBusy_inbox (s : State) (v : Bool) : (s.setBusy v).inbox = s.inbox := rfl
@[simp] theorem setBusy_acqDraws (s : State) (v : Bool) : (s.setBusy v).acqDraws = s.acqDraws := rfl
@[simp] theorem setBusy_upperDraws (s : State) (v : Bool) : (s.setBusy v).upperDraws = s.upperDraws := rfl
@[simp] theorem setBusy_drawCount (s : State) (v : Bool) : (s.setBusy v).drawCount = s.drawCount := rfl

/-! `setUpc` -/

@[simp] theorem setUpc_latch (s : State) (v : Nat) : (s.setUpc v).latch = s.latch := rfl
@[simp] theorem setUpc_binding (s : State) (v : Nat) : (s.setUpc v).binding = s.binding := rfl
@[simp] theorem setUpc_temp (s : State) (v : Nat) : (s.setUpc v).temp = s.temp := rfl
@[simp] theorem setUpc_dtmp (s : State) (v : Nat) : (s.setUpc v).dtmp = s.dtmp := rfl
@[simp] theorem setUpc_busy (s : State) (v : Nat) : (s.setUpc v).busy = s.busy := rfl
@[simp] theorem setUpc_upc (s : State) (v : Nat) : (s.setUpc v).upc = v := rfl
@[simp] theorem setUpc_status (s : State) (v : Nat) : (s.setUpc v).status = s.status := rfl
@[simp] theorem setUpc_cause (s : State) (v : Nat) : (s.setUpc v).cause = s.cause := rfl
@[simp] theorem setUpc_held (s : State) (v : Nat) : (s.setUpc v).held = s.held := rfl
@[simp] theorem setUpc_mem (s : State) (v : Nat) : (s.setUpc v).mem = s.mem := rfl
@[simp] theorem setUpc_traceRev (s : State) (v : Nat) : (s.setUpc v).traceRev = s.traceRev := rfl
@[simp] theorem setUpc_now (s : State) (v : Nat) : (s.setUpc v).now = s.now := rfl
@[simp] theorem setUpc_testMode (s : State) (v : Nat) : (s.setUpc v).testMode = s.testMode := rfl
@[simp] theorem setUpc_recordRev (s : State) (v : Nat) : (s.setUpc v).recordRev = s.recordRev := rfl
@[simp] theorem setUpc_cfg (s : State) (v : Nat) : (s.setUpc v).cfg = s.cfg := rfl
@[simp] theorem setUpc_inbox (s : State) (v : Nat) : (s.setUpc v).inbox = s.inbox := rfl
@[simp] theorem setUpc_acqDraws (s : State) (v : Nat) : (s.setUpc v).acqDraws = s.acqDraws := rfl
@[simp] theorem setUpc_upperDraws (s : State) (v : Nat) : (s.setUpc v).upperDraws = s.upperDraws := rfl
@[simp] theorem setUpc_drawCount (s : State) (v : Nat) : (s.setUpc v).drawCount = s.drawCount := rfl

/-! `setStatus` -/

@[simp] theorem setStatus_latch (s : State) (v : Status) : (s.setStatus v).latch = s.latch := rfl
@[simp] theorem setStatus_binding (s : State) (v : Status) : (s.setStatus v).binding = s.binding := rfl
@[simp] theorem setStatus_temp (s : State) (v : Status) : (s.setStatus v).temp = s.temp := rfl
@[simp] theorem setStatus_dtmp (s : State) (v : Status) : (s.setStatus v).dtmp = s.dtmp := rfl
@[simp] theorem setStatus_busy (s : State) (v : Status) : (s.setStatus v).busy = s.busy := rfl
@[simp] theorem setStatus_upc (s : State) (v : Status) : (s.setStatus v).upc = s.upc := rfl
@[simp] theorem setStatus_status (s : State) (v : Status) : (s.setStatus v).status = v := rfl
@[simp] theorem setStatus_cause (s : State) (v : Status) : (s.setStatus v).cause = s.cause := rfl
@[simp] theorem setStatus_held (s : State) (v : Status) : (s.setStatus v).held = s.held := rfl
@[simp] theorem setStatus_mem (s : State) (v : Status) : (s.setStatus v).mem = s.mem := rfl
@[simp] theorem setStatus_traceRev (s : State) (v : Status) : (s.setStatus v).traceRev = s.traceRev := rfl
@[simp] theorem setStatus_now (s : State) (v : Status) : (s.setStatus v).now = s.now := rfl
@[simp] theorem setStatus_testMode (s : State) (v : Status) : (s.setStatus v).testMode = s.testMode := rfl
@[simp] theorem setStatus_recordRev (s : State) (v : Status) : (s.setStatus v).recordRev = s.recordRev := rfl
@[simp] theorem setStatus_cfg (s : State) (v : Status) : (s.setStatus v).cfg = s.cfg := rfl
@[simp] theorem setStatus_inbox (s : State) (v : Status) : (s.setStatus v).inbox = s.inbox := rfl
@[simp] theorem setStatus_acqDraws (s : State) (v : Status) : (s.setStatus v).acqDraws = s.acqDraws := rfl
@[simp] theorem setStatus_upperDraws (s : State) (v : Status) : (s.setStatus v).upperDraws = s.upperDraws := rfl
@[simp] theorem setStatus_drawCount (s : State) (v : Status) : (s.setStatus v).drawCount = s.drawCount := rfl

/-! `setCause` -/

@[simp] theorem setCause_latch (s : State) (v : Option Failure) : (s.setCause v).latch = s.latch := rfl
@[simp] theorem setCause_binding (s : State) (v : Option Failure) : (s.setCause v).binding = s.binding := rfl
@[simp] theorem setCause_temp (s : State) (v : Option Failure) : (s.setCause v).temp = s.temp := rfl
@[simp] theorem setCause_dtmp (s : State) (v : Option Failure) : (s.setCause v).dtmp = s.dtmp := rfl
@[simp] theorem setCause_busy (s : State) (v : Option Failure) : (s.setCause v).busy = s.busy := rfl
@[simp] theorem setCause_upc (s : State) (v : Option Failure) : (s.setCause v).upc = s.upc := rfl
@[simp] theorem setCause_status (s : State) (v : Option Failure) : (s.setCause v).status = s.status := rfl
@[simp] theorem setCause_cause (s : State) (v : Option Failure) : (s.setCause v).cause = v := rfl
@[simp] theorem setCause_held (s : State) (v : Option Failure) : (s.setCause v).held = s.held := rfl
@[simp] theorem setCause_mem (s : State) (v : Option Failure) : (s.setCause v).mem = s.mem := rfl
@[simp] theorem setCause_traceRev (s : State) (v : Option Failure) : (s.setCause v).traceRev = s.traceRev := rfl
@[simp] theorem setCause_now (s : State) (v : Option Failure) : (s.setCause v).now = s.now := rfl
@[simp] theorem setCause_testMode (s : State) (v : Option Failure) : (s.setCause v).testMode = s.testMode := rfl
@[simp] theorem setCause_recordRev (s : State) (v : Option Failure) : (s.setCause v).recordRev = s.recordRev := rfl
@[simp] theorem setCause_cfg (s : State) (v : Option Failure) : (s.setCause v).cfg = s.cfg := rfl
@[simp] theorem setCause_inbox (s : State) (v : Option Failure) : (s.setCause v).inbox = s.inbox := rfl
@[simp] theorem setCause_acqDraws (s : State) (v : Option Failure) : (s.setCause v).acqDraws = s.acqDraws := rfl
@[simp] theorem setCause_upperDraws (s : State) (v : Option Failure) : (s.setCause v).upperDraws = s.upperDraws := rfl
@[simp] theorem setCause_drawCount (s : State) (v : Option Failure) : (s.setCause v).drawCount = s.drawCount := rfl

/-! `setHeld` -/

@[simp] theorem setHeld_latch (s : State) (v : List Nat) : (s.setHeld v).latch = s.latch := rfl
@[simp] theorem setHeld_binding (s : State) (v : List Nat) : (s.setHeld v).binding = s.binding := rfl
@[simp] theorem setHeld_temp (s : State) (v : List Nat) : (s.setHeld v).temp = s.temp := rfl
@[simp] theorem setHeld_dtmp (s : State) (v : List Nat) : (s.setHeld v).dtmp = s.dtmp := rfl
@[simp] theorem setHeld_busy (s : State) (v : List Nat) : (s.setHeld v).busy = s.busy := rfl
@[simp] theorem setHeld_upc (s : State) (v : List Nat) : (s.setHeld v).upc = s.upc := rfl
@[simp] theorem setHeld_status (s : State) (v : List Nat) : (s.setHeld v).status = s.status := rfl
@[simp] theorem setHeld_cause (s : State) (v : List Nat) : (s.setHeld v).cause = s.cause := rfl
@[simp] theorem setHeld_held (s : State) (v : List Nat) : (s.setHeld v).held = v := rfl
@[simp] theorem setHeld_mem (s : State) (v : List Nat) : (s.setHeld v).mem = s.mem := rfl
@[simp] theorem setHeld_traceRev (s : State) (v : List Nat) : (s.setHeld v).traceRev = s.traceRev := rfl
@[simp] theorem setHeld_now (s : State) (v : List Nat) : (s.setHeld v).now = s.now := rfl
@[simp] theorem setHeld_testMode (s : State) (v : List Nat) : (s.setHeld v).testMode = s.testMode := rfl
@[simp] theorem setHeld_recordRev (s : State) (v : List Nat) : (s.setHeld v).recordRev = s.recordRev := rfl
@[simp] theorem setHeld_cfg (s : State) (v : List Nat) : (s.setHeld v).cfg = s.cfg := rfl
@[simp] theorem setHeld_inbox (s : State) (v : List Nat) : (s.setHeld v).inbox = s.inbox := rfl
@[simp] theorem setHeld_acqDraws (s : State) (v : List Nat) : (s.setHeld v).acqDraws = s.acqDraws := rfl
@[simp] theorem setHeld_upperDraws (s : State) (v : List Nat) : (s.setHeld v).upperDraws = s.upperDraws := rfl
@[simp] theorem setHeld_drawCount (s : State) (v : List Nat) : (s.setHeld v).drawCount = s.drawCount := rfl

/-! `setMem` -/

@[simp] theorem setMem_latch (s : State) (v : Memory) : (s.setMem v).latch = s.latch := rfl
@[simp] theorem setMem_binding (s : State) (v : Memory) : (s.setMem v).binding = s.binding := rfl
@[simp] theorem setMem_temp (s : State) (v : Memory) : (s.setMem v).temp = s.temp := rfl
@[simp] theorem setMem_dtmp (s : State) (v : Memory) : (s.setMem v).dtmp = s.dtmp := rfl
@[simp] theorem setMem_busy (s : State) (v : Memory) : (s.setMem v).busy = s.busy := rfl
@[simp] theorem setMem_upc (s : State) (v : Memory) : (s.setMem v).upc = s.upc := rfl
@[simp] theorem setMem_status (s : State) (v : Memory) : (s.setMem v).status = s.status := rfl
@[simp] theorem setMem_cause (s : State) (v : Memory) : (s.setMem v).cause = s.cause := rfl
@[simp] theorem setMem_held (s : State) (v : Memory) : (s.setMem v).held = s.held := rfl
@[simp] theorem setMem_mem (s : State) (v : Memory) : (s.setMem v).mem = v := rfl
@[simp] theorem setMem_traceRev (s : State) (v : Memory) : (s.setMem v).traceRev = s.traceRev := rfl
@[simp] theorem setMem_now (s : State) (v : Memory) : (s.setMem v).now = s.now := rfl
@[simp] theorem setMem_testMode (s : State) (v : Memory) : (s.setMem v).testMode = s.testMode := rfl
@[simp] theorem setMem_recordRev (s : State) (v : Memory) : (s.setMem v).recordRev = s.recordRev := rfl
@[simp] theorem setMem_cfg (s : State) (v : Memory) : (s.setMem v).cfg = s.cfg := rfl
@[simp] theorem setMem_inbox (s : State) (v : Memory) : (s.setMem v).inbox = s.inbox := rfl
@[simp] theorem setMem_acqDraws (s : State) (v : Memory) : (s.setMem v).acqDraws = s.acqDraws := rfl
@[simp] theorem setMem_upperDraws (s : State) (v : Memory) : (s.setMem v).upperDraws = s.upperDraws := rfl
@[simp] theorem setMem_drawCount (s : State) (v : Memory) : (s.setMem v).drawCount = s.drawCount := rfl

/-! `setNow` -/

@[simp] theorem setNow_latch (s : State) (v : Nat) : (s.setNow v).latch = s.latch := rfl
@[simp] theorem setNow_binding (s : State) (v : Nat) : (s.setNow v).binding = s.binding := rfl
@[simp] theorem setNow_temp (s : State) (v : Nat) : (s.setNow v).temp = s.temp := rfl
@[simp] theorem setNow_dtmp (s : State) (v : Nat) : (s.setNow v).dtmp = s.dtmp := rfl
@[simp] theorem setNow_busy (s : State) (v : Nat) : (s.setNow v).busy = s.busy := rfl
@[simp] theorem setNow_upc (s : State) (v : Nat) : (s.setNow v).upc = s.upc := rfl
@[simp] theorem setNow_status (s : State) (v : Nat) : (s.setNow v).status = s.status := rfl
@[simp] theorem setNow_cause (s : State) (v : Nat) : (s.setNow v).cause = s.cause := rfl
@[simp] theorem setNow_held (s : State) (v : Nat) : (s.setNow v).held = s.held := rfl
@[simp] theorem setNow_mem (s : State) (v : Nat) : (s.setNow v).mem = s.mem := rfl
@[simp] theorem setNow_traceRev (s : State) (v : Nat) : (s.setNow v).traceRev = s.traceRev := rfl
@[simp] theorem setNow_now (s : State) (v : Nat) : (s.setNow v).now = v := rfl
@[simp] theorem setNow_testMode (s : State) (v : Nat) : (s.setNow v).testMode = s.testMode := rfl
@[simp] theorem setNow_recordRev (s : State) (v : Nat) : (s.setNow v).recordRev = s.recordRev := rfl
@[simp] theorem setNow_cfg (s : State) (v : Nat) : (s.setNow v).cfg = s.cfg := rfl
@[simp] theorem setNow_inbox (s : State) (v : Nat) : (s.setNow v).inbox = s.inbox := rfl
@[simp] theorem setNow_acqDraws (s : State) (v : Nat) : (s.setNow v).acqDraws = s.acqDraws := rfl
@[simp] theorem setNow_upperDraws (s : State) (v : Nat) : (s.setNow v).upperDraws = s.upperDraws := rfl
@[simp] theorem setNow_drawCount (s : State) (v : Nat) : (s.setNow v).drawCount = s.drawCount := rfl

/-! `setInbox` -/

@[simp] theorem setInbox_latch (s : State) (v : List Submission) : (s.setInbox v).latch = s.latch := rfl
@[simp] theorem setInbox_binding (s : State) (v : List Submission) : (s.setInbox v).binding = s.binding := rfl
@[simp] theorem setInbox_temp (s : State) (v : List Submission) : (s.setInbox v).temp = s.temp := rfl
@[simp] theorem setInbox_dtmp (s : State) (v : List Submission) : (s.setInbox v).dtmp = s.dtmp := rfl
@[simp] theorem setInbox_busy (s : State) (v : List Submission) : (s.setInbox v).busy = s.busy := rfl
@[simp] theorem setInbox_upc (s : State) (v : List Submission) : (s.setInbox v).upc = s.upc := rfl
@[simp] theorem setInbox_status (s : State) (v : List Submission) : (s.setInbox v).status = s.status := rfl
@[simp] theorem setInbox_cause (s : State) (v : List Submission) : (s.setInbox v).cause = s.cause := rfl
@[simp] theorem setInbox_held (s : State) (v : List Submission) : (s.setInbox v).held = s.held := rfl
@[simp] theorem setInbox_mem (s : State) (v : List Submission) : (s.setInbox v).mem = s.mem := rfl
@[simp] theorem setInbox_traceRev (s : State) (v : List Submission) : (s.setInbox v).traceRev = s.traceRev := rfl
@[simp] theorem setInbox_now (s : State) (v : List Submission) : (s.setInbox v).now = s.now := rfl
@[simp] theorem setInbox_testMode (s : State) (v : List Submission) : (s.setInbox v).testMode = s.testMode := rfl
@[simp] theorem setInbox_recordRev (s : State) (v : List Submission) : (s.setInbox v).recordRev = s.recordRev := rfl
@[simp] theorem setInbox_cfg (s : State) (v : List Submission) : (s.setInbox v).cfg = s.cfg := rfl
@[simp] theorem setInbox_inbox (s : State) (v : List Submission) : (s.setInbox v).inbox = v := rfl
@[simp] theorem setInbox_acqDraws (s : State) (v : List Submission) : (s.setInbox v).acqDraws = s.acqDraws := rfl
@[simp] theorem setInbox_upperDraws (s : State) (v : List Submission) : (s.setInbox v).upperDraws = s.upperDraws := rfl
@[simp] theorem setInbox_drawCount (s : State) (v : List Submission) : (s.setInbox v).drawCount = s.drawCount := rfl

/-! `setAcqDraws` -/

@[simp] theorem setAcqDraws_latch (s : State) (v : List Bool) : (s.setAcqDraws v).latch = s.latch := rfl
@[simp] theorem setAcqDraws_binding (s : State) (v : List Bool) : (s.setAcqDraws v).binding = s.binding := rfl
@[simp] theorem setAcqDraws_temp (s : State) (v : List Bool) : (s.setAcqDraws v).temp = s.temp := rfl
@[simp] theorem setAcqDraws_dtmp (s : State) (v : List Bool) : (s.setAcqDraws v).dtmp = s.dtmp := rfl
@[simp] theorem setAcqDraws_busy (s : State) (v : List Bool) : (s.setAcqDraws v).busy = s.busy := rfl
@[simp] theorem setAcqDraws_upc (s : State) (v : List Bool) : (s.setAcqDraws v).upc = s.upc := rfl
@[simp] theorem setAcqDraws_status (s : State) (v : List Bool) : (s.setAcqDraws v).status = s.status := rfl
@[simp] theorem setAcqDraws_cause (s : State) (v : List Bool) : (s.setAcqDraws v).cause = s.cause := rfl
@[simp] theorem setAcqDraws_held (s : State) (v : List Bool) : (s.setAcqDraws v).held = s.held := rfl
@[simp] theorem setAcqDraws_mem (s : State) (v : List Bool) : (s.setAcqDraws v).mem = s.mem := rfl
@[simp] theorem setAcqDraws_traceRev (s : State) (v : List Bool) : (s.setAcqDraws v).traceRev = s.traceRev := rfl
@[simp] theorem setAcqDraws_now (s : State) (v : List Bool) : (s.setAcqDraws v).now = s.now := rfl
@[simp] theorem setAcqDraws_testMode (s : State) (v : List Bool) : (s.setAcqDraws v).testMode = s.testMode := rfl
@[simp] theorem setAcqDraws_recordRev (s : State) (v : List Bool) : (s.setAcqDraws v).recordRev = s.recordRev := rfl
@[simp] theorem setAcqDraws_cfg (s : State) (v : List Bool) : (s.setAcqDraws v).cfg = s.cfg := rfl
@[simp] theorem setAcqDraws_inbox (s : State) (v : List Bool) : (s.setAcqDraws v).inbox = s.inbox := rfl
@[simp] theorem setAcqDraws_acqDraws (s : State) (v : List Bool) : (s.setAcqDraws v).acqDraws = v := rfl
@[simp] theorem setAcqDraws_upperDraws (s : State) (v : List Bool) : (s.setAcqDraws v).upperDraws = s.upperDraws := rfl
@[simp] theorem setAcqDraws_drawCount (s : State) (v : List Bool) : (s.setAcqDraws v).drawCount = s.drawCount := rfl

/-! `setUpperDraws` -/

@[simp] theorem setUpperDraws_latch (s : State) (v : List Half) : (s.setUpperDraws v).latch = s.latch := rfl
@[simp] theorem setUpperDraws_binding (s : State) (v : List Half) : (s.setUpperDraws v).binding = s.binding := rfl
@[simp] theorem setUpperDraws_temp (s : State) (v : List Half) : (s.setUpperDraws v).temp = s.temp := rfl
@[simp] theorem setUpperDraws_dtmp (s : State) (v : List Half) : (s.setUpperDraws v).dtmp = s.dtmp := rfl
@[simp] theorem setUpperDraws_busy (s : State) (v : List Half) : (s.setUpperDraws v).busy = s.busy := rfl
@[simp] theorem setUpperDraws_upc (s : State) (v : List Half) : (s.setUpperDraws v).upc = s.upc := rfl
@[simp] theorem setUpperDraws_status (s : State) (v : List Half) : (s.setUpperDraws v).status = s.status := rfl
@[simp] theorem setUpperDraws_cause (s : State) (v : List Half) : (s.setUpperDraws v).cause = s.cause := rfl
@[simp] theorem setUpperDraws_held (s : State) (v : List Half) : (s.setUpperDraws v).held = s.held := rfl
@[simp] theorem setUpperDraws_mem (s : State) (v : List Half) : (s.setUpperDraws v).mem = s.mem := rfl
@[simp] theorem setUpperDraws_traceRev (s : State) (v : List Half) : (s.setUpperDraws v).traceRev = s.traceRev := rfl
@[simp] theorem setUpperDraws_now (s : State) (v : List Half) : (s.setUpperDraws v).now = s.now := rfl
@[simp] theorem setUpperDraws_testMode (s : State) (v : List Half) : (s.setUpperDraws v).testMode = s.testMode := rfl
@[simp] theorem setUpperDraws_recordRev (s : State) (v : List Half) : (s.setUpperDraws v).recordRev = s.recordRev := rfl
@[simp] theorem setUpperDraws_cfg (s : State) (v : List Half) : (s.setUpperDraws v).cfg = s.cfg := rfl
@[simp] theorem setUpperDraws_inbox (s : State) (v : List Half) : (s.setUpperDraws v).inbox = s.inbox := rfl
@[simp] theorem setUpperDraws_acqDraws (s : State) (v : List Half) : (s.setUpperDraws v).acqDraws = s.acqDraws := rfl
@[simp] theorem setUpperDraws_upperDraws (s : State) (v : List Half) : (s.setUpperDraws v).upperDraws = v := rfl
@[simp] theorem setUpperDraws_drawCount (s : State) (v : List Half) : (s.setUpperDraws v).drawCount = s.drawCount := rfl

/-! `setDrawCount` -/

@[simp] theorem setDrawCount_latch (s : State) (v : Nat) : (s.setDrawCount v).latch = s.latch := rfl
@[simp] theorem setDrawCount_binding (s : State) (v : Nat) : (s.setDrawCount v).binding = s.binding := rfl
@[simp] theorem setDrawCount_temp (s : State) (v : Nat) : (s.setDrawCount v).temp = s.temp := rfl
@[simp] theorem setDrawCount_dtmp (s : State) (v : Nat) : (s.setDrawCount v).dtmp = s.dtmp := rfl
@[simp] theorem setDrawCount_busy (s : State) (v : Nat) : (s.setDrawCount v).busy = s.busy := rfl
@[simp] theorem setDrawCount_upc (s : State) (v : Nat) : (s.setDrawCount v).upc = s.upc := rfl
@[simp] theorem setDrawCount_status (s : State) (v : Nat) : (s.setDrawCount v).status = s.status := rfl
@[simp] theorem setDrawCount_cause (s : State) (v : Nat) : (s.setDrawCount v).cause = s.cause := rfl
@[simp] theorem setDrawCount_held (s : State) (v : Nat) : (s.setDrawCount v).held = s.held := rfl
@[simp] theorem setDrawCount_mem (s : State) (v : Nat) : (s.setDrawCount v).mem = s.mem := rfl
@[simp] theorem setDrawCount_traceRev (s : State) (v : Nat) : (s.setDrawCount v).traceRev = s.traceRev := rfl
@[simp] theorem setDrawCount_now (s : State) (v : Nat) : (s.setDrawCount v).now = s.now := rfl
@[simp] theorem setDrawCount_testMode (s : State) (v : Nat) : (s.setDrawCount v).testMode = s.testMode := rfl
@[simp] theorem setDrawCount_recordRev (s : State) (v : Nat) : (s.setDrawCount v).recordRev = s.recordRev := rfl
@[simp] theorem setDrawCount_cfg (s : State) (v : Nat) : (s.setDrawCount v).cfg = s.cfg := rfl
@[simp] theorem setDrawCount_inbox (s : State) (v : Nat) : (s.setDrawCount v).inbox = s.inbox := rfl
@[simp] theorem setDrawCount_acqDraws (s : State) (v : Nat) : (s.setDrawCount v).acqDraws = s.acqDraws := rfl
@[simp] theorem setDrawCount_upperDraws (s : State) (v : Nat) : (s.setDrawCount v).upperDraws = s.upperDraws := rfl
@[simp] theorem setDrawCount_drawCount (s : State) (v : Nat) : (s.setDrawCount v).drawCount = v := rfl

/-! `emit` -/

@[simp] theorem emit_latch (s : State) (v : Event) : (s.emit v).latch = s.latch := rfl
@[simp] theorem emit_binding (s : State) (v : Event) : (s.emit v).binding = s.binding := rfl
@[simp] theorem emit_temp (s : State) (v : Event) : (s.emit v).temp = s.temp := rfl
@[simp] theorem emit_dtmp (s : State) (v : Event) : (s.emit v).dtmp = s.dtmp := rfl
@[simp] theorem emit_busy (s : State) (v : Event) : (s.emit v).busy = s.busy := rfl
@[simp] theorem emit_upc (s : State) (v : Event) : (s.emit v).upc = s.upc := rfl
@[simp] theorem emit_status (s : State) (v : Event) : (s.emit v).status = s.status := rfl
@[simp] theorem emit_cause (s : State) (v : Event) : (s.emit v).cause = s.cause := rfl
@[simp] theorem emit_held (s : State) (v : Event) : (s.emit v).held = s.held := rfl
@[simp] theorem emit_mem (s : State) (v : Event) : (s.emit v).mem = s.mem := rfl
@[simp] theorem emit_traceRev (s : State) (v : Event) : (s.emit v).traceRev = v :: s.traceRev := rfl
@[simp] theorem emit_now (s : State) (v : Event) : (s.emit v).now = s.now := rfl
@[simp] theorem emit_testMode (s : State) (v : Event) : (s.emit v).testMode = s.testMode := rfl
@[simp] theorem emit_recordRev (s : State) (v : Event) : (s.emit v).recordRev = s.recordRev := rfl
@[simp] theorem emit_cfg (s : State) (v : Event) : (s.emit v).cfg = s.cfg := rfl
@[simp] theorem emit_inbox (s : State) (v : Event) : (s.emit v).inbox = s.inbox := rfl
@[simp] theorem emit_acqDraws (s : State) (v : Event) : (s.emit v).acqDraws = s.acqDraws := rfl
@[simp] theorem emit_upperDraws (s : State) (v : Event) : (s.emit v).upperDraws = s.upperDraws := rfl
@[simp] theorem emit_drawCount (s : State) (v : Event) : (s.emit v).drawCount = s.drawCount := rfl

/-! `addRecord` -/

@[simp] theorem addRecord_latch (s : State) (v : Segment) : (s.addRecord v).latch = s.latch := rfl
@[simp] theorem addRecord_binding (s : State) (v : Segment) : (s.addRecord v).binding = s.binding := rfl
@[simp] theorem addRecord_temp (s : State) (v : Segment) : (s.addRecord v).temp = s.temp := rfl
@[simp] theorem addRecord_dtmp (s : State) (v : Segment) : (s.addRecord v).dtmp = s.dtmp := rfl
@[simp] theorem addRecord_busy (s : State) (v : Segment) : (s.addRecord v).busy = s.busy := rfl
@[simp] theorem addRecord_upc (s : State) (v : Segment) : (s.addRecord v).upc = s.upc := rfl
@[simp] theorem addRecord_status (s : State) (v : Segment) : (s.addRecord v).status = s.status := rfl
@[simp] theorem addRecord_cause (s : State) (v : Segment) : (s.addRecord v).cause = s.cause := rfl
@[simp] theorem addRecord_held (s : State) (v : Segment) : (s.addRecord v).held = s.held := rfl
@[simp] theorem addRecord_mem (s : State) (v : Segment) : (s.addRecord v).mem = s.mem := rfl
@[simp] theorem addRecord_traceRev (s : State) (v : Segment) : (s.addRecord v).traceRev = s.traceRev := rfl
@[simp] theorem addRecord_now (s : State) (v : Segment) : (s.addRecord v).now = s.now := rfl
@[simp] theorem addRecord_testMode (s : State) (v : Segment) : (s.addRecord v).testMode = s.testMode := rfl
@[simp] theorem addRecord_recordRev (s : State) (v : Segment) : (s.addRecord v).recordRev = v :: s.recordRev := rfl
@[simp] theorem addRecord_cfg (s : State) (v : Segment) : (s.addRecord v).cfg = s.cfg := rfl
@[simp] theorem addRecord_inbox (s : State) (v : Segment) : (s.addRecord v).inbox = s.inbox := rfl
@[simp] theorem addRecord_acqDraws (s : State) (v : Segment) : (s.addRecord v).acqDraws = s.acqDraws := rfl
@[simp] theorem addRecord_upperDraws (s : State) (v : Segment) : (s.addRecord v).upperDraws = s.upperDraws := rfl
@[simp] theorem addRecord_drawCount (s : State) (v : Segment) : (s.addRecord v).drawCount = s.drawCount := rfl

/-! `tick` -/

@[simp] theorem tick_latch (s : State) : s.tick.latch = s.latch := rfl
@[simp] theorem tick_binding (s : State) : s.tick.binding = s.binding := rfl
@[simp] theorem tick_temp (s : State) : s.tick.temp = s.temp := rfl
@[simp] theorem tick_dtmp (s : State) : s.tick.dtmp = s.dtmp := rfl
@[simp] theorem tick_busy (s : State) : s.tick.busy = s.busy := rfl
@[simp] theorem tick_upc (s : State) : s.tick.upc = s.upc := rfl
@[simp] theorem tick_status (s : State) : s.tick.status = s.status := rfl
@[simp] theorem tick_cause (s : State) : s.tick.cause = s.cause := rfl
@[simp] theorem tick_held (s : State) : s.tick.held = s.held := rfl
@[simp] theorem tick_mem (s : State) : s.tick.mem = s.mem := rfl
@[simp] theorem tick_traceRev (s : State) : s.tick.traceRev = s.traceRev := rfl
@[simp] theorem tick_now (s : State) : s.tick.now = s.now + 1 := rfl
@[simp] theorem tick_testMode (s : State) : s.tick.testMode = s.testMode := rfl
@[simp] theorem tick_recordRev (s : State) : s.tick.recordRev = s.recordRev := rfl
@[simp] theorem tick_cfg (s : State) : s.tick.cfg = s.cfg := rfl
@[simp] theorem tick_inbox (s : State) : s.tick.inbox = s.inbox := rfl
@[simp] theorem tick_acqDraws (s : State) : s.tick.acqDraws = s.acqDraws := rfl
@[simp] theorem tick_upperDraws (s : State) : s.tick.upperDraws = s.upperDraws := rfl
@[simp] theorem tick_drawCount (s : State) : s.tick.drawCount = s.drawCount := rfl

/-! The views. -/

@[simp] theorem emit_trace (s : State) (e : Event) : (s.emit e).trace = s.trace ++ [e] := by simp [trace]

@[simp] theorem addRecord_record (s : State) (p : Segment) : (s.addRecord p).record = s.record ++ [p] := by simp [record]

theorem trace_congr {s t : State} (h : s.traceRev = t.traceRev) : s.trace = t.trace := by simp [trace, h]

theorem testing_congr {s t : State} (hc : s.cfg = t.cfg) (hm : s.testMode = t.testMode) : s.testing = t.testing := by
  simp [testing, hc, hm]

end Sys2Proof.Machine.State
end

