-- ==== Sys2Proof/Laws/Memory.lean ====
section
/-! SUPPORT. Read after write, the canonical form, and the masked write bit by bit (20_memory.md R57, R58). -/

namespace Sys2Proof.Machine

theorem Memory.lookup_store_same (m : Memory) (a : Nat) (v : Byte) : (m.store a v).lookup a = some v := by
  induction m with
  | nil => simp [Memory.store, Memory.lookup]
  | cons p m ih =>
    obtain ⟨x, u⟩ := p
    by_cases h1 : a < x
    · simp [Memory.store, Memory.lookup, h1]
    · by_cases h2 : a = x
      · simp [Memory.store, Memory.lookup, h2]
      · have h3 : ¬ x = a := fun h => h2 h.symm
        simp [Memory.store, Memory.lookup, h1, h2, h3, ih]

theorem Memory.lookup_store_ne (m : Memory) {a b : Nat} (v : Byte) (h : b ≠ a) :
    (m.store a v).lookup b = m.lookup b := by
  have ha : ¬ a = b := fun e => h e.symm
  induction m with
  | nil => simp [Memory.store, Memory.lookup, ha]
  | cons p m ih =>
    obtain ⟨x, u⟩ := p
    by_cases h1 : a < x
    · simp [Memory.store, Memory.lookup, h1, ha]
    · by_cases h2 : a = x
      · subst h2
        simp [Memory.store, Memory.lookup, ha]
      · by_cases h3 : x = b
        · subst h3
          simp [Memory.store, Memory.lookup, h1, h2]
        · simp [Memory.store, Memory.lookup, h1, h2, h3, ih]

@[simp] theorem readByte_store_same (m : Memory) (a : Nat) (v : Byte) : readByte (m.store a v) a = v := by
  simp [readByte, Memory.lookup_store_same]

theorem readByte_store_ne (m : Memory) {a b : Nat} (v : Byte) (h : b ≠ a) :
    readByte (m.store a v) b = readByte m b := by
  simp [readByte, Memory.lookup_store_ne m v h]

theorem Memory.mem_store {m : Memory} {a : Nat} {v : Byte} {q : Host.Cell} (h : q ∈ m.store a v) :
    q = (a, v) ∨ q ∈ m := by
  induction m with
  | nil => simpa [Memory.store] using h
  | cons p m ih =>
    obtain ⟨x, u⟩ := p
    by_cases h1 : a < x
    · simpa [Memory.store, h1] using h
    · by_cases h2 : a = x
      · simp only [Memory.store, h2, if_true, if_false, lt_irrefl, List.mem_cons] at h
        rcases h with h | h
        · exact .inl (by rw [h, h2])
        · exact .inr (List.mem_cons_of_mem _ h)
      · simp only [Memory.store, h1, h2, if_false, List.mem_cons] at h
        rcases h with h | h
        · exact .inr (by simp [h])
        · rcases ih h with h | h
          · exact .inl h
          · exact .inr (List.mem_cons_of_mem _ h)

theorem Memory.wf_store {m : Memory} (hm : m.wf) (a : Nat) (v : Byte) : (m.store a v).wf := by
  induction m with
  | nil => simp [Memory.store]
  | cons p m ih =>
    obtain ⟨x, u⟩ := p
    obtain ⟨hx, hw⟩ := List.pairwise_cons.mp hm
    by_cases h1 : a < x
    · simp only [Memory.store, h1, if_true]
      refine List.pairwise_cons.mpr ⟨fun q hq => ?_, hm⟩
      rcases List.mem_cons.mp hq with rfl | hq
      · exact h1
      · exact Nat.lt_trans h1 (hx q hq)
    · by_cases h2 : a = x
      · subst h2
        simp only [Memory.store, lt_irrefl, if_true, if_false]
        exact List.pairwise_cons.mpr ⟨hx, hw⟩
      · simp only [Memory.store, h1, h2, if_false]
        refine List.pairwise_cons.mpr ⟨fun q hq => ?_, ih hw⟩
        rcases Memory.mem_store hq with rfl | hq
        · exact Nat.lt_of_le_of_ne (Nat.not_lt.mp h1) (fun h => h2 h.symm)
        · exact hx q hq

theorem Memory.wf_storeData {m : Memory} (hm : m.wf) (a : Nat) (d : Half) : Memory.wf (storeData m a d) :=
  Memory.wf_store (Memory.wf_store hm _ _) _ _

theorem readByte_storeData_ne (m : Memory) {a b : Nat} (d : Half) (h0 : b ≠ a) (h1 : b ≠ a + 1) :
    readByte (storeData m a d) b = readByte m b := by
  rw [storeData, readByte_store_ne _ _ h1, readByte_store_ne _ _ h0]

@[simp] theorem regData_storeData_same (m : Memory) (a : Nat) (d : Half) : regData (storeData m a d) a = d := by
  have h : readByte (storeData m a d) a = d.extractLsb' 0 8 := by
    rw [storeData, readByte_store_ne _ _ (by omega), readByte_store_same]
  have h' : readByte (storeData m a d) (a + 1) = d.extractLsb' 8 8 := by
    rw [storeData, readByte_store_same]
  rw [regData, h, h']
  ext i hi
  rw [BitVec.getElem_append]
  by_cases hlt : i < 8
  · simp [hlt, BitVec.getLsbD_eq_getElem hi]
  · have : 8 + (i - 8) = i := by omega
    simp [hlt, this, BitVec.getLsbD_eq_getElem hi]

/-- Two registers whose data bytes do not meet: a store to one leaves the other. -/
theorem regData_storeData_ne (m : Memory) {a b : Nat} (d : Half) (h : a + 2 ≤ b ∨ b + 2 ≤ a) :
    regData (storeData m a d) b = regData m b := by
  rw [regData, regData, readByte_storeData_ne _ _ (by omega) (by omega), readByte_storeData_ne _ _ (by omega) (by omega)]

/-- R57, bit by bit. -/
theorem maskedWrite_bit (old : Half) (w : Word) {n : Nat} (hn : n < 16) :
    (maskedWrite old w).getLsbD n = if w.getLsbD (16 + n) then w.getLsbD n else old.getLsbD n := by
  cases hm : w.getLsbD (16 + n) <;> simp [maskedWrite, maskHalf, dataHalf, hn, hm]

/-- R58: the low half of a word read is the register's data. -/
theorem readWord_low (a : Nat) (s : State) {n : Nat} (hn : n < 16) :
    (readWord a s).1.getLsbD n = (regData s.mem a).getLsbD n := by
  simp only [readWord, BitVec.getLsbD_append]
  simp [hn]

theorem readWord_high (a : Nat) (s : State) (n : Nat) :
    (readWord a s).1.getLsbD (16 + n) = (drawUpper a s).1.getLsbD n := by
  simp only [readWord, BitVec.getLsbD_append]
  simp

end Sys2Proof.Machine
end

