-- ==== Sys2Proof/Laws/Outcome.lean ====
section
/-! SUPPORT. Sequencing of outcomes, and running a list of things one after another. -/

namespace Sys2Proof.Machine

variable {α β γ : Type}

@[simp] theorem andThen_next (a : α) (f : α → Out β) : andThen (.next a) f = f a := rfl
@[simp] theorem andThen_fault (e : Fault) (f : α → Out β) : andThen (.fault e) f = .fault e := rfl
@[simp] theorem andThen_refused (r : Refusal) (f : α → Out β) : andThen (.refused r) f = .refused r := rfl

theorem andThen_assoc (o : Out α) (f : α → Out β) (g : β → Out γ) :
    andThen (andThen o f) g = andThen o fun a => andThen (f a) g := by
  cases o <;> rfl

@[simp] theorem andThen_pure (o : Out α) : andThen o .next = o := by cases o <;> rfl

theorem andThen_eq_next {o : Out α} {f : α → Out β} {b : β} :
    andThen o f = .next b ↔ ∃ a, o = .next a ∧ f a = .next b := by
  cases o <;> simp

@[simp] theorem thenGo_going (s : State) (f : State → Out Flow) : thenGo (.next (.going s)) f = f s := rfl
@[simp] theorem thenGo_raised (s : State) (f : State → Out Flow) : thenGo (.next (.raised s)) f = .next (.raised s) := rfl
@[simp] theorem thenGo_raise (e : Failure) (s : State) (f : State → Out Flow) : thenGo (raise e s) f = raise e s := rfl
@[simp] theorem thenGo_fault (e : Fault) (f : State → Out Flow) : thenGo (.fault e) f = .fault e := rfl
@[simp] theorem thenGo_refused (r : Refusal) (f : State → Out Flow) : thenGo (.refused r) f = .refused r := rfl

@[simp] theorem settle_going (s : State) : settle (.next (.going s)) = .next s := rfl
@[simp] theorem settle_raise (e : Failure) (s : State) : settle (raise e s) = .next (failWith e s) := rfl
@[simp] theorem settle_fault (e : Fault) : settle (.fault e) = .fault e := rfl
@[simp] theorem settle_refused (r : Refusal) : settle (.refused r) = .refused r := rfl
@[simp] theorem settle_going_out (o : Out State) : settle (going o) = o := by cases o <;> rfl

/-- What an operation that goes on leaves: it went on, or it raised. -/
theorem settle_eq_next {o : Out Flow} {t : State} :
    settle o = .next t ↔ o = .next (.going t) ∨ o = .next (.raised t) := by
  rcases o with (f | _ | _)
  · cases f <;> simp [settle, Flow.state]
  · simp
  · simp

theorem settle_thenGo_going (o : Out Flow) (f : State → Out State) :
    settle (thenGo o fun s => going (f s)) =
      andThen o fun
        | .going s => f s
        | .raised s => .next s := by
  rcases o with (x | _ | _)
  · cases x
    · simp
    · rfl
  · rfl
  · rfl

@[simp] theorem runList_nil (f : α → State → Out State) (s : State) : runList f [] s = .next s := rfl

@[simp] theorem runList_cons (f : α → State → Out State) (a : α) (l : List α) (s : State) :
    runList f (a :: l) s = andThen (f a s) (runList f l) := rfl

theorem runList_append (f : α → State → Out State) (l l' : List α) (s : State) :
    runList f (l ++ l') s = andThen (runList f l s) (runList f l') := by
  induction l generalizing s with
  | nil => rfl
  | cons a l ih =>
    simp only [List.cons_append, runList_cons, andThen_assoc]
    congr 1
    funext s'
    exact ih s'

/-- Running the expansion of a list is running its members' expansions in a row. -/
theorem runList_flatMap (f : α → State → Out State) (g : β → List α) (l : List β) (s : State) :
    runList f (l.flatMap g) s = runList (fun b => runList f (g b)) l s := by
  induction l generalizing s with
  | nil => rfl
  | cons b l ih =>
    simp only [List.flatMap_cons, runList_append, runList_cons]
    congr 1
    funext s'
    exact ih s'

theorem runList_congr {f g : α → State → Out State} {l : List α} (h : ∀ a ∈ l, f a = g a) (s : State) :
    runList f l s = runList g l s := by
  induction l generalizing s with
  | nil => rfl
  | cons a l ih =>
    rw [runList_cons, runList_cons, h a (by simp)]
    congr 1
    funext s'
    exact ih (fun b hb => h b (by simp [hb])) s'

theorem runList_map (f : α → State → Out State) (g : β → α) (l : List β) (s : State) :
    runList f (l.map g) s = runList (fun b => f (g b)) l s := by
  induction l generalizing s with
  | nil => rfl
  | cons b l ih =>
    simp only [List.map_cons, runList_cons]
    congr 1
    funext s'
    exact ih s'

/-- A property that every member keeps is kept by the whole run. -/
theorem runList_keeps {f : α → State → Out State} {P : State → Prop} {l : List α}
    (h : ∀ a ∈ l, ∀ s t, P s → f a s = .next t → P t) {s t : State} (hs : P s) (ht : runList f l s = .next t) : P t := by
  induction l generalizing s with
  | nil => cases ht; exact hs
  | cons a l ih =>
    obtain ⟨s', h1, h2⟩ := andThen_eq_next.mp ht
    exact ih (fun b hb => h b (by simp [hb])) (h a (by simp) s s' hs h1) h2

/-- If every member completes under `P` and keeps it, the run completes. -/
theorem runList_completes {f : α → State → Out State} {P : State → Prop} {l : List α}
    (h : ∀ a ∈ l, ∀ s, P s → ∃ t, f a s = .next t ∧ P t) {s : State} (hs : P s) :
    ∃ t, runList f l s = .next t ∧ P t := by
  induction l generalizing s with
  | nil => exact ⟨s, rfl, hs⟩
  | cons a l ih =>
    obtain ⟨s', h1, h2⟩ := h a (by simp) s hs
    obtain ⟨t, h3, h4⟩ := ih (fun b hb => h b (by simp [hb])) h2
    exact ⟨t, by rw [runList_cons, h1, andThen_next, h3], h4⟩

/-- A micro-operation is one instruction by two names. -/
@[simp] theorem exec_toInstr (op : MicroOp) (s : State) : exec op.toInstr s = runMicro op s := by cases op <;> rfl

end Sys2Proof.Machine
end

