-- ==== Sys2Proof/Laws/Frame.lean ====
section
/-! SUPPORT. What each shared operation can do, said once: the draws, the register accesses, the micro-operations. -/

namespace Sys2Proof.Machine

/-! ## Draws -/

/-- A draw of an upper half changes only the draws. -/
theorem drawUpper_state (a : Nat) (s : State) :
    (drawUpper a s).2 = { s with upperDraws := (drawUpper a s).2.upperDraws, drawCount := (drawUpper a s).2.drawCount } := by
  unfold drawUpper
  split <;> rfl

/-- A draw of an answer changes only the draws. -/
theorem drawAcq_state (a : Nat) (s : State) :
    (drawAcq a s).2 = { s with acqDraws := (drawAcq a s).2.acqDraws, drawCount := (drawAcq a s).2.drawCount } := by
  unfold drawAcq
  split <;> rfl

theorem drawAcq_cons {s : State} {x : Bool} {l : List Bool} (h : s.acqDraws = x :: l) (a : Nat) :
    drawAcq a s = (x, s.setAcqDraws l) := by simp [drawAcq, h]

theorem drawUpper_cons {s : State} {x : Half} {l : List Half} (h : s.upperDraws = x :: l) (a : Nat) :
    drawUpper a s = (x, s.setUpperDraws l) := by simp [drawUpper, h]

/-! ## Register accesses -/

theorem memWrite_next {a : Nat} {w : Word} {s : State} (h : isRegister s.cfg a = true) :
    memWrite a w s = .next ((s.setMem (storeData s.mem a (maskedWrite (regData s.mem a) w))).emit (.wr a w)) := by
  simp [memWrite, h]

theorem memWrite_eq_next {a : Nat} {w : Word} {s t : State} (h : memWrite a w s = .next t) :
    isRegister s.cfg a = true ∧
      t = (s.setMem (storeData s.mem a (maskedWrite (regData s.mem a) w))).emit (.wr a w) := by
  unfold memWrite at h
  split at h
  · exact ⟨‹_›, by simpa using h.symm⟩
  · cases h

theorem memRead_next {a : Nat} {s : State} (h : isRegister s.cfg a = true) :
    memRead a s = .next ((readWord a s).1, (drawUpper a s).2.emit (.rd a (readWord a s).1)) := by
  simp [memRead, h, readWord]

theorem memRead_eq_next {a : Nat} {s : State} {r : Word × State} (h : memRead a s = .next r) :
    isRegister s.cfg a = true ∧ r = ((readWord a s).1, (drawUpper a s).2.emit (.rd a (readWord a s).1)) := by
  unfold memRead at h
  split at h
  · exact ⟨‹_›, by simpa [readWord] using h.symm⟩
  · cases h

@[simp] theorem withBinding_some {s : State} {b : Binding} (h : s.binding = some b) (f : Binding → Out State) :
    withBinding s f = f b := by simp [withBinding, h]

theorem withBinding_eq_next {s t : State} {f : Binding → Out State} (h : withBinding s f = .next t) :
    ∃ b, s.binding = some b ∧ f b = .next t := by
  unfold withBinding at h
  split at h
  · exact ⟨_, ‹_›, h⟩
  · cases h

/-! ## The micro-operations -/

theorem execRdDir_next {s : State} {b : Binding} (hb : s.binding = some b) (hr : isRegister s.cfg b.dir = true) :
    execRdDir s = .next (((drawUpper b.dir s).2.emit (.rd b.dir (readWord b.dir s).1)).setDtmp (readWord b.dir s).1) := by
  simp [execRdDir, hb, memRead_next hr]

theorem execRdLvl_next {s : State} {b : Binding} (hb : s.binding = some b) (hr : isRegister s.cfg b.lvl = true) :
    execRdLvl s = .next (((drawUpper b.lvl s).2.emit (.rd b.lvl (readWord b.lvl s).1)).setTemp (readWord b.lvl s).1) := by
  simp [execRdLvl, hb, memRead_next hr]

theorem execWrDir_next {s : State} {b : Binding} (hb : s.binding = some b) (hr : isRegister s.cfg b.dir = true) :
    execWrDir s = .next (((s.setDtmp (enablePin s.dtmp b.off)).setMem
      (storeData s.mem b.dir (maskedWrite (regData s.mem b.dir) (enablePin s.dtmp b.off)))).emit
        (.wr b.dir (enablePin s.dtmp b.off))) := by
  simp [execWrDir, hb, memWrite, hr]

theorem execWrLvlInit_next {s : State} {b : Binding} (hb : s.binding = some b) (hr : isRegister s.cfg b.lvl = true) :
    execWrLvlInit s = .next (((s.setTemp (enablePin s.temp b.off)).setMem
      (storeData s.mem b.lvl (maskedWrite (regData s.mem b.lvl) (enablePin s.temp b.off)))).emit
        (.wr b.lvl (enablePin s.temp b.off))) := by
  simp [execWrLvlInit, hb, memWrite, hr]

/-- A pulse write outside the test mode. -/
theorem pulseWrite_next {s : State} {b : Binding} {w : Word} (hr : isRegister s.cfg b.lvl = true)
    (ht : s.testing = false) :
    pulseWrite b w s = .next (((s.setTemp w).setMem (storeData s.mem b.lvl (maskedWrite (regData s.mem b.lvl) w))).emit
      (.wr b.lvl w)).tick := by
  simp [pulseWrite, ht, memWrite, hr]

/-- A pulse write in the test mode. -/
theorem pulseWrite_testing {s : State} {b : Binding} {w : Word} (ht : s.testing = true) :
    pulseWrite b w s = .next (s.setTemp w).tick := by
  simp [pulseWrite, ht]

/-- What no micro-operation changes. -/
structure MicroFrame (s t : State) : Prop where
  latch : t.latch = s.latch
  binding : t.binding = s.binding
  busy : t.busy = s.busy
  upc : t.upc = s.upc
  status : t.status = s.status
  cause : t.cause = s.cause
  held : t.held = s.held
  testMode : t.testMode = s.testMode
  cfg : t.cfg = s.cfg
  inbox : t.inbox = s.inbox
  acqDraws : t.acqDraws = s.acqDraws

theorem MicroFrame.rfl' (s : State) : MicroFrame s s := ⟨rfl, rfl, rfl, rfl, rfl, rfl, rfl, rfl, rfl, rfl, rfl⟩

theorem MicroFrame.trans {s t u : State} (h : MicroFrame s t) (k : MicroFrame t u) : MicroFrame s u :=
  ⟨k.latch.trans h.latch, k.binding.trans h.binding, k.busy.trans h.busy, k.upc.trans h.upc, k.status.trans h.status,
   k.cause.trans h.cause, k.held.trans h.held, k.testMode.trans h.testMode, k.cfg.trans h.cfg, k.inbox.trans h.inbox,
   k.acqDraws.trans h.acqDraws⟩

theorem MicroFrame.testing {s t : State} (h : MicroFrame s t) : t.testing = s.testing :=
  State.testing_congr h.cfg h.testMode

theorem drawUpper_frame (a : Nat) (s : State) : MicroFrame s (drawUpper a s).2 := by
  unfold drawUpper
  split <;> constructor <;> rfl

/-- What a micro-operation that answers a next state has done, micro-operation by micro-operation. -/
theorem runMicro_cases {op : MicroOp} {s t : State} (h : runMicro op s = .next t) :
    (op = .dwell ∧ t = (s.emit .dwell).tick) ∨
    ∃ b, s.binding = some b ∧
      ((op = .rdDir ∧ isRegister s.cfg b.dir = true ∧
          t = ((drawUpper b.dir s).2.emit (.rd b.dir (readWord b.dir s).1)).setDtmp (readWord b.dir s).1) ∨
       (op = .wrDir ∧ isRegister s.cfg b.dir = true ∧
          t = ((s.setDtmp (enablePin s.dtmp b.off)).setMem
            (storeData s.mem b.dir (maskedWrite (regData s.mem b.dir) (enablePin s.dtmp b.off)))).emit
              (.wr b.dir (enablePin s.dtmp b.off))) ∨
       (op = .rdLvl ∧ isRegister s.cfg b.lvl = true ∧
          t = ((drawUpper b.lvl s).2.emit (.rd b.lvl (readWord b.lvl s).1)).setTemp (readWord b.lvl s).1) ∨
       (op = .wrLvlInit ∧ isRegister s.cfg b.lvl = true ∧
          t = ((s.setTemp (enablePin s.temp b.off)).setMem
            (storeData s.mem b.lvl (maskedWrite (regData s.mem b.lvl) (enablePin s.temp b.off)))).emit
              (.wr b.lvl (enablePin s.temp b.off))) ∨
       (∃ w, ((op = .wrHigh ∧ w = setPin s.temp b.off) ∨ (op = .wrLow ∧ w = clearPin s.temp b.off)) ∧
         ((s.testing = true ∧ t = (s.setTemp w).tick) ∨
          (s.testing = false ∧ isRegister s.cfg b.lvl = true ∧
            t = (((s.setTemp w).setMem (storeData s.mem b.lvl (maskedWrite (regData s.mem b.lvl) w))).emit
              (.wr b.lvl w)).tick)))) := by
  have pulse : ∀ {b : Binding} {w : Word}, pulseWrite b w s = .next t →
      (s.testing = true ∧ t = (s.setTemp w).tick) ∨
      (s.testing = false ∧ isRegister s.cfg b.lvl = true ∧
        t = (((s.setTemp w).setMem (storeData s.mem b.lvl (maskedWrite (regData s.mem b.lvl) w))).emit
          (.wr b.lvl w)).tick) := by
    intro b w hp
    unfold pulseWrite at hp
    split at hp
    · exact .inl ⟨‹_›, by simpa using hp.symm⟩
    · obtain ⟨u, h1, h2⟩ := andThen_eq_next.mp hp
      obtain ⟨hr, rfl⟩ := memWrite_eq_next h1
      exact .inr ⟨by simpa using ‹¬ s.testing = true›, by simpa using hr, by simpa using h2.symm⟩
  cases op with
  | dwell => exact .inl ⟨rfl, by simpa [runMicro, execDwell] using h.symm⟩
  | rdDir =>
    obtain ⟨b, hb, h⟩ := withBinding_eq_next h
    obtain ⟨r, h1, h2⟩ := andThen_eq_next.mp h
    obtain ⟨hr, rfl⟩ := memRead_eq_next h1
    exact .inr ⟨b, hb, .inl ⟨rfl, hr, by simpa using h2.symm⟩⟩
  | wrDir =>
    obtain ⟨b, hb, h⟩ := withBinding_eq_next h
    obtain ⟨hr, ht⟩ := memWrite_eq_next h
    exact .inr ⟨b, hb, .inr (.inl ⟨rfl, by simpa using hr, by simpa using ht⟩)⟩
  | rdLvl =>
    obtain ⟨b, hb, h⟩ := withBinding_eq_next h
    obtain ⟨r, h1, h2⟩ := andThen_eq_next.mp h
    obtain ⟨hr, rfl⟩ := memRead_eq_next h1
    exact .inr ⟨b, hb, .inr (.inr (.inl ⟨rfl, hr, by simpa using h2.symm⟩))⟩
  | wrLvlInit =>
    obtain ⟨b, hb, h⟩ := withBinding_eq_next h
    obtain ⟨hr, ht⟩ := memWrite_eq_next h
    exact .inr ⟨b, hb, .inr (.inr (.inr (.inl ⟨rfl, by simpa using hr, by simpa using ht⟩)))⟩
  | wrHigh =>
    obtain ⟨b, hb, h⟩ := withBinding_eq_next h
    exact .inr ⟨b, hb, .inr (.inr (.inr (.inr ⟨_, .inl ⟨rfl, rfl⟩, pulse h⟩)))⟩
  | wrLow =>
    obtain ⟨b, hb, h⟩ := withBinding_eq_next h
    exact .inr ⟨b, hb, .inr (.inr (.inr (.inr ⟨_, .inr ⟨rfl, rfl⟩, pulse h⟩)))⟩

/-- The frame every micro-operation keeps. -/
theorem runMicro_frame {op : MicroOp} {s t : State} (h : runMicro op s = .next t) : MicroFrame s t := by
  rcases runMicro_cases h with ⟨-, rfl⟩ | ⟨b, -, h⟩
  · constructor <;> rfl
  rcases h with ⟨-, -, rfl⟩ | ⟨-, -, rfl⟩ | ⟨-, -, rfl⟩ | ⟨-, -, rfl⟩ | ⟨w, -, ⟨-, rfl⟩ | ⟨-, -, rfl⟩⟩
  · exact (drawUpper_frame b.dir s).trans (by constructor <;> rfl)
  · constructor <;> rfl
  · exact (drawUpper_frame b.lvl s).trans (by constructor <;> rfl)
  all_goals constructor <;> rfl

theorem noteMark_frame (x : Slot) (s : State) : MicroFrame s (noteMark x s) := by
  unfold noteMark
  split <;> constructor <;> rfl

/-- Outside the test mode nothing is recorded. -/
theorem noteMark_quiet (x : Slot) {s : State} (h : s.testing = false) : noteMark x s = s := by simp [noteMark, h]

theorem runSlot_frame {x : Slot} {s t : State} (h : runSlot x s = .next t) : MicroFrame s t :=
  (noteMark_frame x s).trans (runMicro_frame h)

theorem runSlots_frame {l : List Slot} {s t : State} (h : runSlots l s = .next t) : MicroFrame s t :=
  runList_keeps (P := fun u => MicroFrame s u) (fun _ _ _ _ hu h => hu.trans (runSlot_frame h)) (MicroFrame.rfl' s) h

end Sys2Proof.Machine
end

