-- ==== Sys2Proof/Laws/Pin.lean ====
section
/-! SUPPORT. The register map, HELD, and the resolver, acquisition and release (20_memory.md R52, 40_pin_resolver.md,
44_pin_lifecycle.md). -/

namespace Sys2Proof.Machine

/-! ## The register map -/

theorem isRegister_iff {c : Config} {a : Nat} :
    isRegister c a = true ↔ ∃ bank ≤ 4, a = bankBase c bank ∨ a = bankBase c bank + 4 ∨ a = bankBase c bank + 8 ∨
      a = bankBase c bank + 12 := by
  simp only [isRegister, registerAddrs, bankRegisters, List.contains_iff_mem, List.mem_flatMap, List.mem_range, List.mem_cons,
    List.not_mem_nil, or_false, BANK_MAX, LEVEL_OFF, DIR_OFF, HALF_STRIDE, Nat.add_zero, Nat.add_assoc, Nat.reduceAdd]
  constructor
  · rintro ⟨k, hk, h⟩; exact ⟨k, by omega, h⟩
  · rintro ⟨k, hk, h⟩; exact ⟨k, by omega, h⟩

theorem BindingOk.cases {c : Config} {b : Binding} (h : BindingOk c b) :
    ∃ bank ≤ 4, ∃ half ≤ 1, b.lvl = bankBase c bank + 4 * half ∧ b.dir = b.lvl + 8 := by
  obtain ⟨bank, hb, half, hh, h1, h2⟩ := h
  simp only [List.mem_range, BANK_MAX, LEVEL_OFF, DIR_OFF, HALF_STRIDE] at hb h1 h2
  exact ⟨bank, by omega, half, by simp at hh; omega, by omega, by omega⟩

theorem BindingOk.lvl_isRegister {c : Config} {b : Binding} (h : BindingOk c b) : isRegister c b.lvl = true := by
  obtain ⟨bank, hb, half, hh, h1, h2⟩ := h.cases
  exact isRegister_iff.mpr ⟨bank, hb, by omega⟩

theorem BindingOk.dir_isRegister {c : Config} {b : Binding} (h : BindingOk c b) : isRegister c b.dir = true := by
  obtain ⟨bank, hb, half, hh, h1, h2⟩ := h.cases
  exact isRegister_iff.mpr ⟨bank, hb, by omega⟩

theorem BindingOk.dir_eq {c : Config} {b : Binding} (h : BindingOk c b) : b.dir = b.lvl + 8 := by
  obtain ⟨_, _, _, _, _, h⟩ := h.cases
  exact h

/-! ## The resolver -/

/-- What RESOLVE found. -/
theorem resolve_found {c : Config} {bank pin : Nat} {b : Binding} (h : resolve c bank pin = .found b) :
    bank ≤ 4 ∧ pin ≤ 31 ∧ pinStep c pin ≤ 1 ∧ b.lvl = bankBase c bank + 4 * pinStep c pin ∧ b.dir = b.lvl + 8 ∧
      b.off = pinOff pin := by
  unfold resolve at h
  split at h
  · cases h
  · split at h
    · cases h
    · simp only [Resolved.found.injEq] at h
      subst h
      simp only [BANK_MAX, PIN_MAX, LEVEL_OFF, DIR_OFF, HALF_STRIDE] at *
      exact ⟨by omega, by omega, by omega, by omega, by omega, trivial⟩

theorem resolve_ok {c : Config} {bank pin : Nat} {b : Binding} (h : resolve c bank pin = .found b) : BindingOk c b := by
  obtain ⟨h1, -, h2, h3, h4, -⟩ := resolve_found h
  refine ⟨bank, by simp [BANK_MAX]; omega, pinStep c pin, by simp; omega, ?_, ?_⟩ <;>
    simp only [LEVEL_OFF, DIR_OFF, HALF_STRIDE] <;> omega

theorem resolve_outOfRange {c : Config} {bank pin : Nat} (h : bank > 4 ∨ pin > 31) : resolve c bank pin = .outOfRange := by
  simp [resolve, BANK_MAX, PIN_MAX, h]

theorem resolve_noRegister {c : Config} {bank pin : Nat} (hb : bank ≤ 4) (hp : pin ≤ 31) (hs : pinStep c pin > 1) :
    resolve c bank pin = .noRegister := by
  have : ¬ (bank > 4 ∨ pin > 31) := by omega
  simp [resolve, BANK_MAX, PIN_MAX, this, hs]

theorem resolve_isFound {c : Config} {bank pin : Nat} (hb : bank ≤ 4) (hp : pin ≤ 31) (hs : pinStep c pin ≤ 1) :
    ∃ b, resolve c bank pin = .found b := by
  have h1 : ¬ (bank > 4 ∨ pin > 31) := by omega
  have h2 : ¬ pinStep c pin > 1 := by omega
  exact ⟨_, by simp only [resolve, BANK_MAX, PIN_MAX, h1, h2, if_false]; rfl⟩

/-! ## HELD -/

theorem mem_heldInsert {a x : Nat} {h : List Nat} : x ∈ heldInsert a h ↔ x ∈ h ∨ x = a := by
  induction h with
  | nil => simp [heldInsert]
  | cons y h ih =>
    unfold heldInsert
    split
    · simp only [List.mem_cons]; tauto
    · split
      · simp only [List.mem_cons]
        constructor
        · tauto
        · rintro (h | rfl) <;> tauto
      · simp only [List.mem_cons, ih]; tauto

theorem mem_heldErase {a x : Nat} {h : List Nat} : x ∈ heldErase a h ↔ x ∈ h ∧ x ≠ a := by
  simp [heldErase]

theorem heldWf_insert {h : List Nat} (hw : heldWf h) (a : Nat) : heldWf (heldInsert a h) := by
  induction h with
  | nil => simp [heldInsert, heldWf]
  | cons y h ih =>
    obtain ⟨hy, hw'⟩ := List.pairwise_cons.mp hw
    unfold heldInsert
    split
    · refine List.pairwise_cons.mpr ⟨fun z hz => ?_, hw⟩
      rcases List.mem_cons.mp hz with rfl | hz
      · assumption
      · exact Nat.lt_trans ‹_› (hy z hz)
    · split
      · exact hw
      · refine List.pairwise_cons.mpr ⟨fun z hz => ?_, ih hw'⟩
        rcases mem_heldInsert.mp hz with hz | rfl
        · exact hy z hz
        · omega

theorem heldWf_erase {h : List Nat} (hw : heldWf h) (a : Nat) : heldWf (heldErase a h) := List.Pairwise.filter _ hw

/-! ## Acquisition and release -/

/-- One acquisition, whatever the answer. -/
theorem acquire_spec (a : Nat) (s : State) : ∃ x l n, acquire a s = (x, { s with
    held := if x then heldInsert a s.held else s.held
    traceRev := .acq a x :: s.traceRev
    acqDraws := l
    drawCount := n }) := by
  refine ⟨(drawAcq a s).1, (drawAcq a s).2.acqDraws, (drawAcq a s).2.drawCount, ?_⟩
  have h : drawAcq a s = ((drawAcq a s).1,
      { s with acqDraws := (drawAcq a s).2.acqDraws, drawCount := (drawAcq a s).2.drawCount }) :=
    Prod.ext rfl (drawAcq_state a s)
  generalize (drawAcq a s).2.acqDraws = l at h
  generalize (drawAcq a s).2.drawCount = n at h
  generalize (drawAcq a s).1 = x at h
  simp only [acquire, h]
  cases x <;> rfl

theorem acquire_cons {s : State} {x : Bool} {l : List Bool} (h : s.acqDraws = x :: l) (a : Nat) :
    acquire a s = (x, { s with
      held := if x then heldInsert a s.held else s.held
      traceRev := .acq a x :: s.traceRev
      acqDraws := l }) := by
  simp only [acquire, drawAcq_cons h]
  cases x <;> rfl

/-- A release of a held address. -/
theorem releaseAddr_next {a : Nat} {s : State} (h : a ∈ s.held) :
    releaseAddr a s = .next ((s.setHeld (heldErase a s.held)).emit (.rel a)) := by simp [releaseAddr, h]

/-- RELEASE of a binding that can be released. -/
theorem releaseBinding_next {s : State} (h : Releasable s) :
    releaseBinding s = .next { s with
      binding := none, held := [], traceRev := (releaseEvents s.binding).reverse ++ s.traceRev } := by
  obtain ⟨hh, hne⟩ := h
  cases hb : s.binding with
  | none =>
    rw [hb] at hh
    simp only [releaseBinding, hb, releaseEvents, List.reverse_nil, List.nil_append]
    simp only [heldOf] at hh
    rw [← hh, ← hb]
  | some b =>
    have hn := hne b hb
    rw [hb] at hh
    simp only [heldOf] at hh
    have h1 : b.dir ∈ s.held := by simp [hh]
    have h2 : b.lvl ∈ heldErase b.dir s.held := mem_heldErase.mpr ⟨by simp [hh], fun e => hn e.symm⟩
    simp only [releaseBinding, hb, releaseAddr_next h1, andThen_next]
    rw [releaseAddr_next (by simpa using h2)]
    simp only [andThen_next, State.emit_held, State.setHeld_held]
    have h3 : heldErase b.lvl (heldErase b.dir s.held) = [] := by
      have : ¬ b.lvl = b.dir := fun e => hn e.symm
      simp [hh, heldErase, this]
    rw [h3]
    rfl

theorem EngineInv.releasable {s : State} (h : EngineInv s) : Releasable s :=
  ⟨h.heldOk, fun b hb => by have := (h.bindingOk b hb).dir_eq; omega⟩

/-- Both acquisitions granted. -/
theorem acquirePair_granted {s : State} {b : Binding} {rest : List Bool} (hh : s.held = []) (hd : b.dir = b.lvl + 8)
    (ha : s.acqDraws = true :: true :: rest) :
    acquirePair b s = .next (.going { s with
      binding := some b, held := heldOf (some b), acqDraws := rest
      traceRev := .acq b.lvl true :: .acq b.dir true :: s.traceRev }) := by
  have h1 : ¬ b.dir < b.lvl := by omega
  have h2 : b.lvl < b.dir := by omega
  simp only [acquirePair, acquire_cons ha]
  simp [acquire, drawAcq, hh, heldInsert, h2, heldOf, State.setBinding, State.setHeld, State.emit, State.setAcqDraws]

/-- The first acquisition refused. -/
theorem acquirePair_noDir {s : State} {b : Binding} {rest : List Bool} (ha : s.acqDraws = false :: rest) :
    acquirePair b s = raise (.resourceUnavailable b.dir)
      { s with acqDraws := rest, traceRev := .acq b.dir false :: s.traceRev } := by
  simp [acquirePair, acquire_cons ha]

/-- The second acquisition refused: the first is released before the failure is raised (R162). -/
theorem acquirePair_noLvl {s : State} {b : Binding} {rest : List Bool} (hh : s.held = [])
    (ha : s.acqDraws = true :: false :: rest) :
    acquirePair b s = raise (.resourceUnavailable b.lvl)
      { s with acqDraws := rest
               traceRev := .rel b.dir :: .acq b.lvl false :: .acq b.dir true :: s.traceRev } := by
  simp only [acquirePair, acquire_cons ha]
  simp [acquire, drawAcq, hh, heldInsert, releaseAddr, heldErase, State.setHeld, State.emit, State.setAcqDraws]

/-- RESOLVE and RELEASE done, what is left of `mapPin` is the acquisition. -/
theorem mapPin_found {s : State} {bank pin : Word} {b : Binding} (hr : resolve s.cfg bank.toNat pin.toNat = .found b)
    (hs : Releasable s) :
    mapPin bank pin s = acquirePair b { s with
      binding := none, held := [], traceRev := (releaseEvents s.binding).reverse ++ s.traceRev } := by
  simp [mapPin, withResolved, hr, releaseBinding_next hs]

theorem mapPin_outOfRange {s : State} {bank pin : Word} (h : bank.toNat > 4 ∨ pin.toNat > 31) :
    mapPin bank pin s = raise (.invalidAddressParameters bank pin) s := by
  simp [mapPin, withResolved, resolve_outOfRange h]

theorem mapPin_noRegister {s : State} {bank pin : Word} (hb : bank.toNat ≤ 4) (hp : pin.toNat ≤ 31)
    (hs : pinStep s.cfg pin.toNat > 1) : mapPin bank pin s = .refused (.noRegisterForPin pin) := by
  simp [mapPin, withResolved, resolve_noRegister hb hp hs]

/-- The two ways a pair is acquired or not, for any draws: it goes on with the pair held and bound, or raises with nothing
held. -/
theorem acquirePair_cases (b : Binding) {s : State} (hh : s.held = []) (hd : b.dir = b.lvl + 8) :
    ∃ l n, acquirePair b s = .next (.going { s with
          binding := some b, held := heldOf (some b), acqDraws := l, drawCount := n
          traceRev := .acq b.lvl true :: .acq b.dir true :: s.traceRev }) ∨
      acquirePair b s = raise (.resourceUnavailable b.lvl) { s with
          acqDraws := l, drawCount := n
          traceRev := .rel b.dir :: .acq b.lvl false :: .acq b.dir true :: s.traceRev } ∨
      acquirePair b s = raise (.resourceUnavailable b.dir) { s with
          acqDraws := l, drawCount := n, traceRev := .acq b.dir false :: s.traceRev } := by
  have h1 : ¬ b.dir < b.lvl := by omega
  have h2 : b.lvl < b.dir := by omega
  obtain ⟨x, l, n, e1⟩ := acquire_spec b.dir s
  cases x with
  | false =>
    refine ⟨l, n, .inr (.inr ?_)⟩
    simp [acquirePair, e1]
  | true =>
    simp only [if_true, hh, heldInsert] at e1
    obtain ⟨y, l', n', e2⟩ := acquire_spec b.lvl { s with
      held := [b.dir], traceRev := .acq b.dir true :: s.traceRev, acqDraws := l, drawCount := n }
    cases y with
    | false =>
      refine ⟨l', n', .inr (.inl ?_)⟩
      simp only [acquirePair, e1, e2]
      simp [hh, releaseAddr, heldErase, State.setHeld, State.emit]
    | true =>
      refine ⟨l', n', .inl ?_⟩
      simp only [acquirePair, e1, e2]
      simp [heldInsert, h2, heldOf, State.setBinding]

end Sys2Proof.Machine
end

