-- ==== Sys2Proof/Laws/Timed.lean ====
section
/-! SUPPORT. The timed micro-operations in a row outside the test mode (41_pulse_primitives.md R115 to R121): what they write,
how long they take, and what the line shows. -/

namespace Sys2Proof.Machine

/-! ## Bits of the shadow -/

theorem setPin_bit (w : Word) (off : Fin 16) {n : Nat} (hn : n < 32) :
    (setPin w off).getLsbD n = if n = off.val then true else w.getLsbD n := by
  by_cases h : n = off.val
  · subst h; simp [setPin, bit, hn]
  · have : ¬ off.val = n := fun e => h e.symm
    simp [setPin, bit, BitVec.getLsbD_or, BitVec.getLsbD_twoPow, h, this]

theorem clearPin_bit (w : Word) (off : Fin 16) {n : Nat} (hn : n < 32) :
    (clearPin w off).getLsbD n = if n = off.val then false else w.getLsbD n := by
  by_cases h : n = off.val
  · subst h; simp [clearPin, bit, hn]
  · simp [clearPin, bit, hn, h]

theorem enablePin_bit (w : Word) (off : Fin 16) {n : Nat} (_hn : n < 32) :
    (enablePin w off).getLsbD n = (w.getLsbD n || n == off.val || n == off.val + 16) := by
  have h1 : (off.val = n) = (n = off.val) := propext eq_comm
  have h2 : (off.val + 16 = n) = (n = off.val + 16) := propext eq_comm
  have h3 : off.val < 32 := by omega
  have h4 : off.val + 16 < 32 := by omega
  rw [Bool.eq_iff_iff]
  simp only [enablePin, bit, MASK_SHIFT, BitVec.getLsbD_or, BitVec.getLsbD_twoPow, Bool.or_eq_true, Bool.and_eq_true,
    decide_eq_true_eq, beq_iff_eq, h1, h2, h3, h4, true_and]

theorem eq_of_bits {v w : Word} (h : ∀ n < 32, v.getLsbD n = w.getLsbD n) : v = w :=
  BitVec.eq_of_getLsbD_eq fun n hn => h n hn

@[simp] theorem setPin_clearPin (w : Word) (off : Fin 16) : setPin (clearPin w off) off = setPin w off :=
  eq_of_bits fun n hn => by simp only [setPin_bit, clearPin_bit, hn]; split <;> rfl

@[simp] theorem setPin_setPin (w : Word) (off : Fin 16) : setPin (setPin w off) off = setPin w off :=
  eq_of_bits fun n hn => by simp only [setPin_bit, hn]; split <;> rfl

@[simp] theorem clearPin_setPin (w : Word) (off : Fin 16) : clearPin (setPin w off) off = clearPin w off :=
  eq_of_bits fun n hn => by simp only [setPin_bit, clearPin_bit, hn]; split <;> rfl

@[simp] theorem clearPin_clearPin (w : Word) (off : Fin 16) : clearPin (clearPin w off) off = clearPin w off :=
  eq_of_bits fun n hn => by simp only [clearPin_bit, hn]; split <;> rfl

/-! ## Masked stores -/

/-- The store of a masked write. -/
theorem maskedStore_storeData (m : Memory) (a : Nat) (w : Word) :
    MaskedStore a w m (storeData m a (maskedWrite (regData m a) w)) :=
  ⟨fun n hn => by rw [regData_storeData_same, maskedWrite_bit _ _ hn], fun x h0 h1 => readByte_storeData_ne m _ h0 h1⟩

/-- Two masked stores under one mask are the second. -/
theorem MaskedStore.trans {a : Nat} {w w' : Word} {m m' m'' : Memory} (h : MaskedStore a w m m')
    (h' : MaskedStore a w' m' m'') (hm : ∀ n < 16, w.getLsbD (16 + n) = w'.getLsbD (16 + n)) : MaskedStore a w' m m'' := by
  refine ⟨fun n hn => ?_, fun x h0 h1 => (h'.2 x h0 h1).trans (h.2 x h0 h1)⟩
  rw [h'.1 n hn]
  split
  · rfl
  · rw [h.1 n hn, hm n hn, if_neg ‹_›]

/-- The pin's data bit after a masked write with its write-enable bit set. -/
theorem MaskedStore.pin {w : Word} {n : Fin 16} {a : Nat} {m m' : Memory} (h : MaskedStore a w m m')
    (hm : w.getLsbD (n + 16) = true) : (regData m' a).getLsbD n = w.getLsbD n := by
  rw [h.1 n n.isLt, Nat.add_comm, hm, if_pos rfl]

/-- The pin's data bit after a write of an enabled word (R164, R165). -/
theorem MaskedStore.enabled {w : Word} {n : Fin 16} {a : Nat} {m m' : Memory} (h : MaskedStore a (enablePin w n) m m') :
    (regData m' a).getLsbD n = true := by
  rw [h.1 n n.isLt, enablePin_bit _ _ (by omega), enablePin_bit _ _ (by omega)]
  simp [Nat.add_comm]

/-- A masked write of a word whose data half is the register's but for one bit leaves every other data bit, whatever the
mask. -/
theorem MaskedStore.sameBits {w : Word} {n : Fin 16} {a : Nat} {m m' : Memory} (h : MaskedStore a w m m')
    (hw : ∀ k < 16, k ≠ n.val → w.getLsbD k = (regData m a).getLsbD k) : SameBitsBut n a m m' := by
  intro k hk hne
  rw [h.1 k hk, hw k hk hne, ite_self]

theorem MaskedStore.sameOutside {w : Word} {a : Nat} {m m' : Memory} (h : MaskedStore a w m m') (b : Nat) :
    SameOutside a b m m' := fun x h0 h1 _ _ => h.2 x h0 h1

/-- A masked write to one register leaves the data bits of another. -/
theorem MaskedStore.regData_ne {w : Word} {a b : Nat} {m m' : Memory} (h : MaskedStore a w m m')
    (hab : a + 2 ≤ b ∨ b + 2 ≤ a) : regData m' b = regData m b := by
  rw [regData, regData, h.2 b (by omega) (by omega), h.2 (b + 1) (by omega) (by omega)]

/-- R58: the data half of a word read. -/
theorem dataHalf_readWord (a : Nat) (s : State) : dataHalf (readWord a s).1 = regData s.mem a := by
  apply BitVec.eq_of_getLsbD_eq
  intro n hn
  rw [← readWord_low a s hn]
  simp only [dataHalf, BitVec.getLsbD_extractLsb', hn]
  simp

/-- The data bits of an enabled word, but the pin's. -/
theorem enablePin_data {w : Word} {n : Fin 16} {d : Half} (hw : dataHalf w = d) {k : Nat} (hk : k < 16) (hne : k ≠ n.val) :
    (enablePin w n).getLsbD k = d.getLsbD k := by
  have h1 : ¬ k = n.val + 16 := by omega
  have e : w.getLsbD k = d.getLsbD k := by rw [← hw]; simp [dataHalf, hk]
  rw [enablePin_bit _ _ (by omega), e, beq_false_of_ne hne, beq_false_of_ne h1, Bool.or_false, Bool.or_false]

/-! ## Timed micro-operations -/

/-- The micro-operations of a pulse. -/
def isTimed : MicroOp → Bool
  | .wrHigh => true
  | .wrLow => true
  | .dwell => true
  | _ => false

/-- The shadow after a micro-operation of a pulse. -/
def tempOf (off : Fin 16) : MicroOp → Word → Word
  | .wrHigh, w => setPin w off
  | .wrLow, w => clearPin w off
  | _, w => w

/-- The shadow after a row of them. -/
def tempAfter (off : Fin 16) (w : Word) (ops : List MicroOp) : Word := ops.foldl (fun v op => tempOf off op v) w

/-- The events of a row of them. -/
def eventsOf (b : Binding) : Word → List MicroOp → List Event
  | _, [] => []
  | w, .wrHigh :: ops => .wr b.lvl (setPin w b.off) :: eventsOf b (setPin w b.off) ops
  | w, .wrLow :: ops => .wr b.lvl (clearPin w b.off) :: eventsOf b (clearPin w b.off) ops
  | w, _ :: ops => .dwell :: eventsOf b w ops

/-- The levels of a row of them. -/
def opLevels : Bool → List MicroOp → List Bool
  | _, [] => []
  | _, .wrHigh :: ops => true :: opLevels true ops
  | _, .wrLow :: ops => false :: opLevels false ops
  | prev, _ :: ops => prev :: opLevels prev ops

theorem tempOf_mask (off : Fin 16) (op : MicroOp) (w : Word) {n : Nat} (h1 : 16 ≤ n) (h2 : n < 32) :
    (tempOf off op w).getLsbD n = w.getLsbD n := by
  have : ¬ n = off.val := by omega
  cases op <;> simp only [tempOf, setPin_bit, clearPin_bit, h2, this, if_false]

theorem tempAfter_mask (off : Fin 16) (w : Word) (ops : List MicroOp) {n : Nat} (h1 : 16 ≤ n) (h2 : n < 32) :
    (tempAfter off w ops).getLsbD n = w.getLsbD n := by
  induction ops generalizing w with
  | nil => rfl
  | cons op ops ih => exact (ih (tempOf off op w)).trans (tempOf_mask off op w h1 h2)

theorem tempAfter_dwells (off : Fin 16) (w : Word) (ops : List MicroOp) (h : ∀ op ∈ ops, op = .dwell) :
    tempAfter off w ops = w := by
  induction ops generalizing w with
  | nil => rfl
  | cons op ops ih =>
    obtain rfl := h op (by simp)
    exact ih w fun op' h' => h op' (by simp [h'])

/-- Every shadow of a row is the pin set, the pin cleared, or untouched. -/
theorem tempAfter_cases (off : Fin 16) (w : Word) (ops : List MicroOp) :
    tempAfter off w ops = w ∨ tempAfter off w ops = setPin w off ∨ tempAfter off w ops = clearPin w off := by
  induction ops generalizing w with
  | nil => exact .inl rfl
  | cons op ops ih =>
    have h := ih (tempOf off op w)
    have e : tempAfter off w (op :: ops) = tempAfter off (tempOf off op w) ops := rfl
    rw [e]
    cases op <;> simp only [tempOf, setPin_setPin, setPin_clearPin, clearPin_setPin, clearPin_clearPin] at h ⊢ <;> tauto

theorem tempAfter_append (off : Fin 16) (w : Word) (l l' : List MicroOp) :
    tempAfter off w (l ++ l') = tempAfter off (tempAfter off w l) l' := by simp [tempAfter]

/-- The main lemma: a row of timed micro-operations outside the test mode. -/
theorem runSlots_timed {s : State} {b : Binding} (hp : Pulsable s b) (ht : s.testing = false) {l : List Slot}
    (hl : ∀ x ∈ l, isTimed x.op = true) :
    ∃ m, runSlots l s = .next { s with
        temp := tempAfter b.off s.temp (l.map Slot.op)
        mem := m
        now := s.now + l.length
        traceRev := (eventsOf b s.temp (l.map Slot.op)).reverse ++ s.traceRev } ∧
      (((∀ x ∈ l, x.op = .dwell) ∧ m = s.mem) ∨ MaskedStore b.lvl (tempAfter b.off s.temp (l.map Slot.op)) s.mem m) ∧
      (Memory.wf s.mem → Memory.wf m) := by
  induction l generalizing s with
  | nil => exact ⟨s.mem, rfl, .inl ⟨by simp, rfl⟩, id⟩
  | cons x l ih =>
    obtain ⟨hb, hr⟩ := hp
    have write : ∀ w, tempOf b.off x.op s.temp = w → runSlot x s = pulseWrite b w s →
        eventsOf b s.temp ((x :: l).map Slot.op) = .wr b.lvl w :: eventsOf b w (l.map Slot.op) →
        ∃ m, runSlots (x :: l) s = .next { s with
            temp := tempAfter b.off s.temp ((x :: l).map Slot.op)
            mem := m
            now := s.now + (x :: l).length
            traceRev := (eventsOf b s.temp ((x :: l).map Slot.op)).reverse ++ s.traceRev } ∧
          (((∀ y ∈ x :: l, y.op = .dwell) ∧ m = s.mem) ∨
            MaskedStore b.lvl (tempAfter b.off s.temp ((x :: l).map Slot.op)) s.mem m) ∧
          (Memory.wf s.mem → Memory.wf m) := by
      intro w hw hx he
      have hx' := hx.trans (pulseWrite_next (w := w) hr ht)
      obtain ⟨m, h1, h2, h3⟩ := ih (s := (((s.setTemp w).setMem
        (storeData s.mem b.lvl (maskedWrite (regData s.mem b.lvl) w))).emit (.wr b.lvl w)).tick)
        ⟨hb, hr⟩ ht (fun y hy => hl y (by simp [hy]))
      have ht' : tempAfter b.off s.temp ((x :: l).map Slot.op) = tempAfter b.off w (l.map Slot.op) := by
        rw [← hw]; rfl
      refine ⟨m, ?_, .inr ?_, fun hm => h3 (Memory.wf_storeData hm _ _)⟩
      · have hrun : runSlots (x :: l) s = andThen (runSlot x s) (runSlots l) := rfl
        rw [hrun, hx', andThen_next, h1, he, ht']
        simp only [State.tick_temp, State.emit_temp, State.setMem_temp, State.setTemp_temp, State.tick_now, State.emit_now,
          State.setMem_now, State.setTemp_now, State.tick_traceRev, State.emit_traceRev, State.setMem_traceRev,
          State.setTemp_traceRev, List.length_cons, List.reverse_cons, List.append_assoc, List.singleton_append]
        have : s.now + 1 + l.length = s.now + (l.length + 1) := by omega
        rw [this]
        rfl
      · rw [ht']
        have hs := maskedStore_storeData s.mem b.lvl w
        rcases h2 with ⟨hd, rfl⟩ | h2
        · rw [State.tick_mem, State.emit_mem, State.setMem_mem]
          rw [tempAfter_dwells _ _ _ (by simpa using hd)]
          exact hs
        · refine hs.trans h2 fun n hn => ?_
          exact (tempAfter_mask b.off w _ (by omega) (by omega)).symm
    have hx := hl x (by simp)
    obtain ⟨op, mark⟩ := x
    cases op with
    | rdDir => cases hx
    | wrDir => cases hx
    | rdLvl => cases hx
    | wrLvlInit => cases hx
    | wrHigh => exact write _ rfl (by simp [runSlot, noteMark_quiet _ ht, runMicro, execWrHigh, hb, tempOf]) rfl
    | wrLow => exact write _ rfl (by simp [runSlot, noteMark_quiet _ ht, runMicro, execWrLow, hb, tempOf]) rfl
    | dwell =>
      obtain ⟨m, h1, h2, h3⟩ := ih (s := (s.emit .dwell).tick) ⟨hb, hr⟩ ht (fun y hy => hl y (by simp [hy]))
      refine ⟨m, ?_, ?_, h3⟩
      · have hrun : runSlots (⟨.dwell, mark⟩ :: l) s = andThen (runSlot ⟨.dwell, mark⟩ s) (runSlots l) := rfl
        have hx' : runSlot ⟨.dwell, mark⟩ s = .next (s.emit .dwell).tick := by
          simp [runSlot, noteMark_quiet _ ht, runMicro, execDwell]
        rw [hrun, hx', andThen_next, h1]
        simp only [State.tick_temp, State.emit_temp, State.tick_now, State.emit_now, State.tick_traceRev,
          State.emit_traceRev, List.map_cons, eventsOf, List.length_cons, List.reverse_cons, List.append_assoc,
          List.singleton_append]
        have : s.now + 1 + l.length = s.now + (l.length + 1) := by omega
        rw [this]
        rfl
      · rcases h2 with ⟨hd, rfl⟩ | h2
        · exact .inl ⟨by simpa using hd, rfl⟩
        · exact .inr h2

/-! ## Events and levels -/

theorem eventsOf_append (b : Binding) (w : Word) (l l' : List MicroOp) :
    eventsOf b w (l ++ l') = eventsOf b w l ++ eventsOf b (tempAfter b.off w l) l' := by
  induction l generalizing w with
  | nil => rfl
  | cons op l ih => cases op <;> simp [eventsOf, ih, tempAfter, tempOf]

theorem eventsOf_length (b : Binding) (w : Word) (l : List MicroOp) : (eventsOf b w l).length = l.length := by
  induction l generalizing w with
  | nil => rfl
  | cons op l ih => cases op <;> simp [eventsOf, ih]

theorem eventsOf_high (b : Binding) (w : Word) (n : Nat) :
    eventsOf b w (List.replicate n .wrHigh) = List.replicate n (.wr b.lvl (setPin w b.off)) := by
  induction n generalizing w with
  | zero => rfl
  | succ n ih => simp [List.replicate_succ, eventsOf, ih]

theorem eventsOf_low (b : Binding) (w : Word) (n : Nat) :
    eventsOf b w (List.replicate n .wrLow) = List.replicate n (.wr b.lvl (clearPin w b.off)) := by
  induction n generalizing w with
  | zero => rfl
  | succ n ih => simp [List.replicate_succ, eventsOf, ih]

theorem eventsOf_dwell (b : Binding) (w : Word) (n : Nat) :
    eventsOf b w (List.replicate n .dwell) = List.replicate n .dwell := by
  induction n with
  | zero => rfl
  | succ n ih => simp [List.replicate_succ, eventsOf, ih]

/-- What an event of a row can be. -/
theorem eventsOf_mem {b : Binding} {w : Word} {l : List MicroOp} {e : Event} (he : e ∈ eventsOf b w l) :
    (e = .dwell ∧ ∃ op ∈ l, op ≠ .wrHigh ∧ op ≠ .wrLow) ∨ e = .wr b.lvl (setPin w b.off) ∨
      e = .wr b.lvl (clearPin w b.off) := by
  induction l generalizing w with
  | nil => cases he
  | cons op l ih =>
    have dwell : e ∈ .dwell :: eventsOf b w l → op ≠ .wrHigh → op ≠ .wrLow →
        (e = .dwell ∧ ∃ op' ∈ op :: l, op' ≠ .wrHigh ∧ op' ≠ .wrLow) ∨ e = .wr b.lvl (setPin w b.off) ∨
          e = .wr b.lvl (clearPin w b.off) := by
      intro h n1 n2
      rcases List.mem_cons.mp h with rfl | h
      · exact .inl ⟨rfl, op, by simp, n1, n2⟩
      · rcases ih h with ⟨h, o, ho, h'⟩ | h
        · exact .inl ⟨h, o, by simp [ho], h'⟩
        · exact .inr h
    cases op with
    | wrHigh =>
      rcases List.mem_cons.mp he with rfl | h
      · exact .inr (.inl rfl)
      · rcases ih h with ⟨h, o, ho, h'⟩ | h
        · exact .inl ⟨h, o, by simp [ho], h'⟩
        · exact .inr (by simpa only [setPin_setPin, clearPin_setPin] using h)
    | wrLow =>
      rcases List.mem_cons.mp he with rfl | h
      · exact .inr (.inr rfl)
      · rcases ih h with ⟨h, o, ho, h'⟩ | h
        · exact .inl ⟨h, o, by simp [ho], h'⟩
        · exact .inr (by simpa only [setPin_clearPin, clearPin_clearPin] using h)
    | rdDir => exact dwell he (by simp) (by simp)
    | wrDir => exact dwell he (by simp) (by simp)
    | rdLvl => exact dwell he (by simp) (by simp)
    | wrLvlInit => exact dwell he (by simp) (by simp)
    | dwell => exact dwell he (by simp) (by simp)

/-- With the pin's write-enable bit set, the trace shows the levels of the row. -/
theorem traceLevels_eventsOf (b : Binding) {w : Word} (hw : w.getLsbD (b.off + MASK_SHIFT) = true) (prev : Bool)
    (l : List MicroOp) : traceLevels b prev (eventsOf b w l) = opLevels prev l := by
  have h32 : b.off.val + MASK_SHIFT < 32 := by simp only [MASK_SHIFT]; omega
  have h32' : b.off.val < 32 := by omega
  have hne : ¬ b.off.val + MASK_SHIFT = b.off.val := by simp [MASK_SHIFT]
  induction l generalizing w prev with
  | nil => rfl
  | cons op l ih =>
    have hs : (setPin w b.off).getLsbD (b.off + MASK_SHIFT) = true := by rw [setPin_bit _ _ h32, if_neg hne, hw]
    have hc : (clearPin w b.off).getLsbD (b.off + MASK_SHIFT) = true := by rw [clearPin_bit _ _ h32, if_neg hne, hw]
    have hs' : (setPin w b.off).getLsbD b.off = true := by rw [setPin_bit _ _ h32', if_pos rfl]
    have hc' : (clearPin w b.off).getLsbD b.off = false := by rw [clearPin_bit _ _ h32', if_pos rfl]
    cases op <;> simp [eventsOf, traceLevels, opLevels, ih hw, ih hs, ih hc, hs, hc, hs', hc']

theorem opLevels_high (prev : Bool) (n : Nat) (l : List MicroOp) (hn : 1 ≤ n) :
    opLevels prev (List.replicate n .wrHigh ++ l) = List.replicate n true ++ opLevels true l := by
  induction n generalizing prev with
  | zero => omega
  | succ n ih =>
    cases n with
    | zero => rfl
    | succ n =>
      rw [List.replicate_succ, List.replicate_succ (n := n + 1), List.cons_append, List.cons_append, opLevels,
        ih true (by omega)]

theorem opLevels_low (prev : Bool) (n : Nat) (l : List MicroOp) (hn : 1 ≤ n) :
    opLevels prev (List.replicate n .wrLow ++ l) = List.replicate n false ++ opLevels false l := by
  induction n generalizing prev with
  | zero => omega
  | succ n ih =>
    cases n with
    | zero => rfl
    | succ n =>
      rw [List.replicate_succ, List.replicate_succ (n := n + 1), List.cons_append, List.cons_append, opLevels,
        ih false (by omega)]

theorem opLevels_dwell (prev : Bool) (n : Nat) (l : List MicroOp) :
    opLevels prev (List.replicate n .dwell ++ l) = List.replicate n prev ++ opLevels prev l := by
  induction n with
  | zero => rfl
  | succ n ih => rw [List.replicate_succ, List.replicate_succ, List.cons_append, List.cons_append, opLevels, ih] <;> simp

/-! ## The expansions -/

theorem phase_ops (level : Bool) (op : MicroOp) (n : Nat) : (phase level op n).map Slot.op = List.replicate n op := by
  cases n with
  | zero => rfl
  | succ n => simp [phase, List.replicate_succ]

theorem bit0Slots_ops (c : Config) :
    (bit0Slots c).map Slot.op = List.replicate c.n0h .wrHigh ++ List.replicate c.n0l .wrLow := by
  simp [bit0Slots, phase_ops]

theorem bit1Slots_ops (c : Config) :
    (bit1Slots c).map Slot.op = List.replicate c.n1h .wrHigh ++ List.replicate c.n1l .wrLow := by
  simp [bit1Slots, phase_ops]

theorem resetSlots_ops (c : Config) :
    (resetSlots c).map Slot.op = .wrLow :: List.replicate (c.nrst - 1) .dwell := by
  simp [resetSlots]

theorem primsSlots_cons (c : Config) (p : Prim) (l : List Prim) :
    primsSlots c (p :: l) = primSlots c p ++ primsSlots c l := by simp [primsSlots]

theorem primsSlots_append (c : Config) (l l' : List Prim) :
    primsSlots c (l ++ l') = primsSlots c l ++ primsSlots c l' := by simp [primsSlots]

theorem primSlots_timed (c : Config) (p : Prim) : ∀ x ∈ primSlots c p, isTimed x.op = true := by
  intro x hx
  have hx : x.op ∈ (primSlots c p).map Slot.op := List.mem_map_of_mem hx
  cases p with
  | bit0 =>
    rw [primSlots, bit0Slots_ops] at hx
    simp only [List.mem_append, List.mem_replicate] at hx
    rcases hx with ⟨-, h⟩ | ⟨-, h⟩ <;> rw [h] <;> rfl
  | bit1 =>
    rw [primSlots, bit1Slots_ops] at hx
    simp only [List.mem_append, List.mem_replicate] at hx
    rcases hx with ⟨-, h⟩ | ⟨-, h⟩ <;> rw [h] <;> rfl
  | reset =>
    rw [primSlots, resetSlots_ops] at hx
    simp only [List.mem_cons, List.mem_replicate] at hx
    rcases hx with h | ⟨-, h⟩ <;> rw [h] <;> rfl

theorem primsSlots_timed (c : Config) (l : List Prim) : ∀ x ∈ primsSlots c l, isTimed x.op = true := by
  intro x hx
  obtain ⟨p, -, h⟩ := List.mem_flatMap.mp hx
  exact primSlots_timed c p x h

/-- After a primitive the pin is low in the shadow. -/
theorem tempAfter_prim {c : Config} (hc : c.wf) (off : Fin 16) (w : Word) (p : Prim) :
    tempAfter off w ((primSlots c p).map Slot.op) = clearPin w off := by
  have low : ∀ (v : Word) (n : Nat), 1 ≤ n → tempAfter off v (List.replicate n .wrLow) = clearPin v off := by
    intro v n hn
    induction n generalizing v with
    | zero => omega
    | succ n ih =>
      cases n with
      | zero => rfl
      | succ n =>
        rw [List.replicate_succ]
        show tempAfter off (clearPin v off) _ = _
        rw [ih _ (by omega), clearPin_clearPin]
  have high : ∀ (v : Word) (n : Nat), 1 ≤ n → tempAfter off v (List.replicate n .wrHigh) = setPin v off := by
    intro v n hn
    induction n generalizing v with
    | zero => omega
    | succ n ih =>
      cases n with
      | zero => rfl
      | succ n =>
        rw [List.replicate_succ]
        show tempAfter off (setPin v off) _ = _
        rw [ih _ (by omega), setPin_setPin]
  obtain ⟨-, -, -, -, h0h, h0l, h1h, h1l, -, -⟩ := hc
  cases p with
  | bit0 => rw [primSlots, bit0Slots_ops, tempAfter_append, high _ _ h0h, low _ _ h0l, clearPin_setPin]
  | bit1 => rw [primSlots, bit1Slots_ops, tempAfter_append, high _ _ h1h, low _ _ h1l, clearPin_setPin]
  | reset =>
    rw [primSlots, resetSlots_ops]
    exact tempAfter_dwells off _ _ (fun op h => (List.mem_replicate.mp h).2)

theorem tempAfter_prims {c : Config} (hc : c.wf) (off : Fin 16) (w : Word) {l : List Prim} (hl : l ≠ []) :
    tempAfter off w ((primsSlots c l).map Slot.op) = clearPin w off := by
  induction l generalizing w with
  | nil => exact absurd rfl hl
  | cons p l ih =>
    rw [primsSlots_cons, List.map_append, tempAfter_append, tempAfter_prim hc]
    by_cases h : l = []
    · subst h; rfl
    · rw [ih _ h, clearPin_clearPin]

/-- A primitive puts its waveform on the line, whatever the level before it. -/
theorem opLevels_prim {c : Config} (hc : c.wf) (prev : Bool) (p : Prim) (l : List MicroOp) :
    opLevels prev ((primSlots c p).map Slot.op ++ l) = levelsOf (primWave c p) ++ opLevels false l := by
  obtain ⟨-, -, -, -, h0h, h0l, h1h, h1l, hr, -⟩ := hc
  cases p with
  | bit0 =>
    rw [primSlots, bit0Slots_ops, List.append_assoc, opLevels_high _ _ _ h0h, opLevels_low _ _ _ h0l]
    simp [levelsOf, primWave, bitWave, highTicks, lowTicks]
  | bit1 =>
    rw [primSlots, bit1Slots_ops, List.append_assoc, opLevels_high _ _ _ h1h, opLevels_low _ _ _ h1l]
    simp [levelsOf, primWave, bitWave, highTicks, lowTicks]
  | reset =>
    rw [primSlots, resetSlots_ops, List.cons_append, opLevels, opLevels_dwell]
    obtain ⟨n, hn⟩ : ∃ n, c.nrst = n + 1 := ⟨c.nrst - 1, by omega⟩
    simp [levelsOf, primWave, hn, List.replicate_succ]

theorem opLevels_prims {c : Config} (hc : c.wf) (prev : Bool) (l : List Prim) :
    opLevels prev ((primsSlots c l).map Slot.op) = levelsOf (l.flatMap (primWave c)) := by
  induction l generalizing prev with
  | nil => rfl
  | cons p l ih =>
    rw [primsSlots_cons, List.map_append, opLevels_prim hc, ih]
    simp [levelsOf]

end Sys2Proof.Machine
end

