-- ==== Sys2Proof/Laws/Chain.lean ====
section
/-! SUPPORT. The expansions of bytes and chains (42_byte_encoder.md, 43_chain_writer.md): their lengths and counts, the events
of a chain, and rows of timed micro-operations in the test mode. -/

namespace Sys2Proof.Machine

/-! ## Counts -/

theorem ones_le (v : Byte) : ones v ≤ 8 := by
  have := List.count_le_length (l := bitsOfByte v) (a := true)
  simpa [bitsOfByte, ones] using this

theorem zeros_eq (v : Byte) : (bitsOfByte v).count false = 8 - ones v := by
  have := List.count_true_add_count_false (bitsOfByte v)
  have h : (bitsOfByte v).length = 8 := rfl
  unfold ones
  omega

theorem wireBits_count {p : Nat} (r g b : Byte) (hp : 1 ≤ p) :
    (wireBits p r g b).count true = ones g + ones r + ones b ∧
      (wireBits p r g b).count false = 24 * p - (ones g + ones r + ones b) := by
  have hg := ones_le g
  have hr := ones_le r
  have hb := ones_le b
  have hz : ∀ n, ((List.replicate n (0 : Byte)).flatMap bitsOfByte) = List.replicate (8 * n) false := by
    intro n
    induction n with
    | zero => rfl
    | succ n ih =>
      have h8 : bitsOfByte 0 = List.replicate 8 false := by decide
      rw [List.replicate_succ, List.flatMap_cons, ih, h8, ← List.replicate_add]
      congr 1
      ring
  have e : ∀ v, (bitsOfByte v).count true = ones v := fun _ => rfl
  simp only [wireBits, wireBytes, List.flatMap_append, List.flatMap_cons, List.flatMap_nil, List.append_nil,
    List.count_append, hz, zeros_eq, List.count_replicate, e]
  constructor <;> simp <;> omega

theorem wireBits_length {p : Nat} (r g b : Byte) (hp : 1 ≤ p) : (wireBits p r g b).length = 24 * p := by
  obtain ⟨h1, h2⟩ := wireBits_count r g b hp
  have h := List.count_true_add_count_false (wireBits p r g b)
  have hg := ones_le g
  have hr := ones_le r
  have hb := ones_le b
  omega

theorem resetSlots_length {c : Config} (hc : c.wf) : (resetSlots c).length = c.nrst := by
  obtain ⟨-, -, -, -, -, -, -, -, hr, -⟩ := hc
  simp only [resetSlots, List.length_cons, List.length_replicate]
  omega

/-- The ticks of a row of bit pulses (R121). -/
theorem bitSlots_length (c : Config) (l : List Bool) :
    (primsSlots c (l.map primOfBit)).length = bitTicks c (l.count false) (l.count true) := by
  have h0 := congrArg List.length (bit0Slots_ops c)
  have h1 := congrArg List.length (bit1Slots_ops c)
  simp only [List.length_map, List.length_append, List.length_replicate] at h0 h1
  induction l with
  | nil => simp [primsSlots, bitTicks]
  | cons x l ih =>
    rw [List.map_cons, primsSlots_cons, List.length_append, ih]
    cases x <;> simp [primOfBit, primSlots, h0, h1, bitTicks] <;> ring

/-- A bit pulse holds no DWELL. -/
theorem bitSlots_op (c : Config) (l : List Bool) :
    ∀ x ∈ primsSlots c (l.map primOfBit), x.op = .wrHigh ∨ x.op = .wrLow := by
  intro x hx
  obtain ⟨p, hp, hx⟩ := List.mem_flatMap.mp hx
  obtain ⟨y, -, rfl⟩ := List.mem_map.mp hp
  have hx : x.op ∈ (primSlots c (primOfBit y)).map Slot.op := List.mem_map_of_mem hx
  cases y <;> simp only [primOfBit, primSlots, Bool.false_eq_true, if_false, if_true] at hx
  · rw [bit0Slots_ops] at hx
    simp only [List.mem_append, List.mem_replicate] at hx
    tauto
  · rw [bit1Slots_ops] at hx
    simp only [List.mem_append, List.mem_replicate] at hx
    tauto

/-! ## Chains -/

theorem wireBytes_prims (p : Nat) (r g b : Byte) :
    (wireBytes p r g b).flatMap bytePrims = (wireBits p r g b).map primOfBit := by
  simp only [wireBits, List.map_flatMap]
  rfl

theorem chainPrims_eq (p : Nat) (r g b : Byte) :
    chainPrims p r g b = .reset :: (wireBits p r g b).map primOfBit ++ [.reset] := by
  rw [chainPrims, wireBytes_prims]
  rfl

theorem chainPrims_slots (c : Config) (p : Nat) (r g b : Byte) :
    primsSlots c (chainPrims p r g b) =
      resetSlots c ++ primsSlots c ((wireBits p r g b).map primOfBit) ++ resetSlots c := by
  rw [chainPrims_eq, primsSlots_append, primsSlots_cons]
  simp [primsSlots, primSlots]

theorem chainPrims_slots_length {c : Config} (hc : c.wf) {p : Nat} (r g b : Byte) (hp : 1 ≤ p) :
    (primsSlots c (chainPrims p r g b)).length =
      2 * c.nrst + bitTicks c (24 * p - (ones g + ones r + ones b)) (ones g + ones r + ones b) := by
  obtain ⟨h1, h2⟩ := wireBits_count r g b hp
  rw [chainPrims_slots, List.length_append, List.length_append, resetSlots_length hc, bitSlots_length, h1, h2]
  ring

/-- The waveform of a chain (46_line_and_receiver.md R210). -/
theorem chainPrims_wave (c : Config) (p : Nat) (r g b : Byte) :
    (chainPrims p r g b).flatMap (primWave c) = wave c (wireBits p r g b) := by
  have h : ∀ l : List Bool, (l.map primOfBit).flatMap (primWave c) = l.flatMap (bitWave c) := by
    intro l
    induction l with
    | nil => rfl
    | cons x l ih => cases x <;> simp [primOfBit, primWave, ih]
  rw [chainPrims_eq]
  simp [h, primWave, wave]

theorem chain_position {p : Word} (h : p ≠ 0) : 1 ≤ p.toNat := by
  have : p.toNat ≠ 0 := fun h' => h (BitVec.eq_of_toNat_eq (by simpa using h'))
  omega

/-- A composite of primitives is those primitives, executed in a row (00_scope.md R14). -/
theorem execAll_prims (l : List Prim) (s : State) :
    execAll (l.map Prim.toInstr) s = runSlots (primsSlots s.cfg l) s := by
  induction l generalizing s with
  | nil => rfl
  | cons p l ih =>
    have hp : exec p.toInstr s = runSlots (primSlots s.cfg p) s := by cases p <;> rfl
    have : execAll ((p :: l).map Prim.toInstr) s = andThen (exec p.toInstr s) (execAll (l.map Prim.toInstr)) := rfl
    rw [this, hp, primsSlots_cons, runSlots, runList_append]
    generalize ho : runList runSlot (primSlots s.cfg p) s = o
    rcases o with t | _ | _
    · have hf : t.cfg = s.cfg := (runSlots_frame ho).cfg
      simp only [andThen_next]
      rw [ih, hf]
      rfl
    · rfl
    · rfl

/-! ## The test mode -/

/-- A row of timed micro-operations in the test mode: no access, one pair for each phase (41_pulse_primitives.md R123). -/
theorem runSlots_testing {s : State} {b : Binding} (hb : s.binding = some b) (ht : s.testing = true) {l : List Slot}
    (hl : ∀ x ∈ l, isTimed x.op = true) :
    runSlots l s = .next { s with
      temp := tempAfter b.off s.temp (l.map Slot.op)
      recordRev := (l.filterMap Slot.mark).reverse ++ s.recordRev
      now := s.now + l.length
      traceRev := List.replicate ((l.map Slot.op).count .dwell) .dwell ++ s.traceRev } := by
  induction l generalizing s with
  | nil => rfl
  | cons x l ih =>
    have hrun : runSlots (x :: l) s = andThen (runSlot x s) (runSlots l) := rfl
    have hx := hl x (by simp)
    obtain ⟨op, mark⟩ := x
    have hn : noteMark ⟨op, mark⟩ s = { s with recordRev := mark.toList ++ s.recordRev } := by
      cases mark <;> simp [noteMark, ht, State.addRecord]
    have hadd : s.now + 1 + l.length = s.now + (l.length + 1) := by omega
    have hrev : (List.filterMap Slot.mark (⟨op, mark⟩ :: l)).reverse =
        (l.filterMap Slot.mark).reverse ++ mark.toList := by cases mark <;> simp
    have hlast : ∀ es, List.replicate ((l.map Slot.op).count .dwell) Event.dwell ++ .dwell :: es =
        List.replicate ((l.map Slot.op).count .dwell + 1) .dwell ++ es := by
      intro es
      rw [List.replicate_succ', List.append_assoc]
      rfl
    rw [hrun, hrev]
    have write : ∀ w, tempOf b.off op s.temp = w → op ≠ .dwell →
        runMicro op (noteMark ⟨op, mark⟩ s) = pulseWrite b w (noteMark ⟨op, mark⟩ s) →
        andThen (runSlot ⟨op, mark⟩ s) (runSlots l) = .next { s with
          temp := tempAfter b.off s.temp ((⟨op, mark⟩ :: l).map Slot.op)
          recordRev := (l.filterMap Slot.mark).reverse ++ mark.toList ++ s.recordRev
          now := s.now + (⟨op, mark⟩ :: l : List Slot).length
          traceRev := List.replicate (((⟨op, mark⟩ :: l).map Slot.op).count .dwell) .dwell ++ s.traceRev } := by
      intro w hw hne hr
      rw [runSlot, hr, hn, pulseWrite_testing (s := { s with recordRev := mark.toList ++ s.recordRev }) ht, andThen_next]
      rw [ih (s := (State.setTemp { s with recordRev := mark.toList ++ s.recordRev } w).tick) hb ht
        fun y hy => hl y (by simp [hy])]
      have h1 : tempAfter b.off s.temp ((⟨op, mark⟩ :: l).map Slot.op) = tempAfter b.off w (l.map Slot.op) := by
        rw [← hw]; rfl
      have h2 : ((⟨op, mark⟩ :: l).map Slot.op).count .dwell = (l.map Slot.op).count .dwell := by
        simp [hne]
      rw [h1, h2, List.length_cons, ← hadd, List.append_assoc]
      rfl
    cases op with
    | rdDir => cases hx
    | wrDir => cases hx
    | rdLvl => cases hx
    | wrLvlInit => cases hx
    | wrHigh =>
      refine write _ rfl (by simp) ?_
      rw [hn]
      exact withBinding_some hb _
    | wrLow =>
      refine write _ rfl (by simp) ?_
      rw [hn]
      exact withBinding_some hb _
    | dwell =>
      rw [runSlot, hn]
      show andThen (.next (State.tick (State.emit { s with recordRev := mark.toList ++ s.recordRev } .dwell))) _ = _
      rw [andThen_next]
      rw [ih (s := (State.emit { s with recordRev := mark.toList ++ s.recordRev } .dwell).tick) hb ht
        fun y hy => hl y (by simp [hy])]
      simp only [State.tick_temp, State.emit_temp, State.tick_now, State.emit_now, State.tick_traceRev, State.emit_traceRev,
        List.map_cons, List.count_cons_self, List.length_cons]
      rw [hlast, ← hadd, List.append_assoc]
      rfl

/-- The marks of a primitive are its waveform (R121, R123). -/
theorem primSlots_marks {c : Config} (hc : c.wf) (p : Prim) : (primSlots c p).filterMap Slot.mark = primWave c p := by
  have phase_marks : ∀ (level : Bool) (op : MicroOp) (n : Nat), 1 ≤ n →
      (phase level op n).filterMap Slot.mark = [(level, n)] := by
    intro level op n hn
    obtain ⟨m, rfl⟩ : ∃ m, n = m + 1 := ⟨n - 1, by omega⟩
    simp [phase, List.filterMap_replicate_of_none]
  obtain ⟨-, -, -, -, h0h, h0l, h1h, h1l, -, -⟩ := hc
  cases p with
  | bit0 => simp [primSlots, bit0Slots, phase_marks _ _ _ h0h, phase_marks _ _ _ h0l, primWave, bitWave, highTicks, lowTicks]
  | bit1 => simp [primSlots, bit1Slots, phase_marks _ _ _ h1h, phase_marks _ _ _ h1l, primWave, bitWave, highTicks, lowTicks]
  | reset => simp [primSlots, resetSlots, List.filterMap_replicate_of_none, primWave]

theorem primsSlots_marks {c : Config} (hc : c.wf) (l : List Prim) :
    (primsSlots c l).filterMap Slot.mark = l.flatMap (primWave c) := by
  induction l with
  | nil => rfl
  | cons p l ih => rw [primsSlots_cons, List.filterMap_append, primSlots_marks hc, ih, List.flatMap_cons]

/-- The DWELLs of a chain (43_chain_writer.md R146). -/
theorem chainPrims_dwells (c : Config) (p : Nat) (r g b : Byte) :
    ((primsSlots c (chainPrims p r g b)).map Slot.op).count .dwell = 2 * (c.nrst - 1) := by
  have hmid : ((primsSlots c ((wireBits p r g b).map primOfBit)).map Slot.op).count .dwell = 0 := by
    rw [List.count_eq_zero]
    intro h
    obtain ⟨y, hy, h⟩ := List.mem_map.mp h
    rcases bitSlots_op _ _ _ hy with h' | h' <;> rw [h'] at h <;> cases h
  rw [chainPrims_slots]
  simp only [List.map_append, List.count_append, resetSlots_ops, hmid]
  simp
  omega

end Sys2Proof.Machine
end

