-- ==== Sys2Proof/Laws/Open.lean ====
section
/-! SUPPORT. The configuration micro-operations in a row (44_pin_lifecycle.md R163 to R165), PIN_OPEN, the acceptance of a WRITE,
and a whole micro-program outside the test mode. -/

namespace Sys2Proof.Machine

/-- A read of an upper half from the draws, as fields. -/
theorem drawUpper_spec (a : Nat) (s : State) : ∃ l n, (drawUpper a s).2 = { s with upperDraws := l, drawCount := n } :=
  ⟨_, _, drawUpper_state a s⟩

/-- The four configuration micro-operations, outside and inside the test mode alike (log 10). -/
theorem runSlots_config {s : State} {b : Binding} (hb : s.binding = some b) (hd : isRegister s.cfg b.dir = true)
    (hl : isRegister s.cfg b.lvl = true) :
    ∃ v w m l n, runSlots configSlots s = .next { s with
        dtmp := enablePin v b.off, temp := enablePin w b.off, mem := m, upperDraws := l, drawCount := n
        traceRev := .wr b.lvl (enablePin w b.off) :: .rd b.lvl w :: .wr b.dir (enablePin v b.off) :: .rd b.dir v ::
          s.traceRev } ∧
      dataHalf v = regData s.mem b.dir ∧
      (∃ m', MaskedStore b.dir (enablePin v b.off) s.mem m' ∧ dataHalf w = regData m' b.lvl ∧
        MaskedStore b.lvl (enablePin w b.off) m' m) ∧
      (Memory.wf s.mem → Memory.wf m) := by
  have hrun : runSlots configSlots s =
      andThen (execRdDir (noteMark ⟨.rdDir, none⟩ s)) fun s1 =>
      andThen (execWrDir (noteMark ⟨.wrDir, none⟩ s1)) fun s2 =>
      andThen (execRdLvl (noteMark ⟨.rdLvl, none⟩ s2)) fun s3 =>
      andThen (execWrLvlInit (noteMark ⟨.wrLvlInit, none⟩ s3)) .next := rfl
  have quiet : ∀ op t, noteMark ⟨op, none⟩ t = t := by
    intro op t
    unfold noteMark
    split
    · cases ‹_›
    · rfl
  obtain ⟨l1, n1, h1⟩ := drawUpper_spec b.dir s
  rw [hrun, quiet, execRdDir_next hb hd, h1, andThen_next, quiet]
  have hv' : dataHalf (readWord b.dir s).1 = regData s.mem b.dir := dataHalf_readWord _ _
  generalize (readWord b.dir s).1 = v at hv' ⊢
  generalize hs1 : State.setDtmp _ v = s1
  rw [execWrDir_next (s := s1) (b := b) (by rw [← hs1]; exact hb) (by rw [← hs1]; exact hd), andThen_next, quiet]
  have hd1 : s1.dtmp = v := by rw [← hs1]; rfl
  have hm1 : s1.mem = s.mem := by rw [← hs1]; rfl
  rw [hd1, hm1]
  generalize hs2 : State.emit _ (.wr b.dir (enablePin v b.off)) = s2
  have hm2 : s2.mem = storeData s.mem b.dir (maskedWrite (regData s.mem b.dir) (enablePin v b.off)) := by rw [← hs2]; rfl
  obtain ⟨l2, n2, h2⟩ := drawUpper_spec b.lvl s2
  have hb2 : s2.binding = some b := by rw [← hs2, ← hs1]; exact hb
  have hl2 : isRegister s2.cfg b.lvl = true := by rw [← hs2, ← hs1]; exact hl
  rw [execRdLvl_next hb2 hl2, h2, andThen_next, quiet]
  have hw' : dataHalf (readWord b.lvl s2).1 = regData s2.mem b.lvl := dataHalf_readWord _ _
  generalize (readWord b.lvl s2).1 = w at hw' ⊢
  generalize hs3 : State.setTemp _ w = s3
  have ht3 : s3.temp = w := by rw [← hs3]; rfl
  have hm3 : s3.mem = s2.mem := by rw [← hs3]; rfl
  rw [execWrLvlInit_next (s := s3) (b := b) (by rw [← hs3]; exact hb2) (by rw [← hs3]; exact hl2), andThen_next, ht3, hm3]
  refine ⟨v, w, storeData s2.mem b.lvl (maskedWrite (regData s2.mem b.lvl) (enablePin w b.off)), l2, n2, ?_, hv',
    ⟨s2.mem, ?_, hw', maskedStore_storeData _ _ _⟩, ?_⟩
  · simp only [← hs3, ← hs2, ← hs1, State.emit, State.setMem, State.setTemp, State.setDtmp]
  · rw [hm2]
    exact maskedStore_storeData _ _ _
  · intro hm
    refine Memory.wf_storeData ?_ _ _
    rw [hm2]
    exact Memory.wf_storeData hm _ _

/-- What the two masked writes of the configuration leave of memory: both pin bits set, everything else as before. -/
theorem config_memory {b : Binding} (hd : b.dir = b.lvl + 8) {v w : Word} {m m' m'' : Memory}
    (hv : dataHalf v = regData m b.dir) (h1 : MaskedStore b.dir (enablePin v b.off) m m')
    (hw : dataHalf w = regData m' b.lvl) (h2 : MaskedStore b.lvl (enablePin w b.off) m' m'') :
    dataHalf w = regData m b.lvl ∧ (regData m'' b.dir).getLsbD b.off = true ∧ (regData m'' b.lvl).getLsbD b.off = true ∧
      SameBitsBut b.off b.dir m m'' ∧ SameBitsBut b.off b.lvl m m'' ∧ SameOutside b.dir b.lvl m m'' := by
  have hl : regData m' b.lvl = regData m b.lvl := h1.regData_ne (by omega)
  have hdir : regData m'' b.dir = regData m' b.dir := h2.regData_ne (by omega)
  refine ⟨hw.trans hl, by rw [hdir]; exact h1.enabled, h2.enabled, ?_, ?_, ?_⟩
  · intro k hk hne
    rw [hdir]
    exact h1.sameBits (fun j hj hn => enablePin_data hv hj hn) k hk hne
  · intro k hk hne
    rw [← hl]
    exact h2.sameBits (fun j hj hn => enablePin_data hw hj hn) k hk hne
  · intro x h3 h4 h5 h6
    rw [h2.2 x h5 h6, h1.2 x h3 h4]

/-- The part of PIN_OPEN and CORE_WRITE before the micro-operations, with both acquisitions granted. -/
theorem mapPin_granted {s : State} {bank pin : Word} {x : Binding} {rest : List Bool}
    (hr : resolve s.cfg bank.toNat pin.toNat = .found x) (hs : Releasable s) (ha : s.acqDraws = true :: true :: rest) :
    mapPin bank pin s = .next (.going { s with
      binding := some x, held := heldOf (some x), acqDraws := rest
      traceRev := .acq x.lvl true :: .acq x.dir true :: ((releaseEvents s.binding).reverse ++ s.traceRev) }) := by
  exact (mapPin_found hr hs).trans (acquirePair_granted rfl (resolve_found hr).2.2.2.2.1 ha)

/-- A row of micro-programs' timed part leaves the pin low and everything else as the configuration left it. -/
theorem timed_memory {b : Binding} (hd : b.dir = b.lvl + 8) {w : Word} {m m' : Memory}
    (hm : w.getLsbD (b.off + 16) = true) (hw : ∀ k < 16, k ≠ b.off.val → w.getLsbD k = (regData m b.lvl).getLsbD k)
    (h : MaskedStore b.lvl (clearPin w b.off) m m') :
    regData m' b.dir = regData m b.dir ∧ (regData m' b.lvl).getLsbD b.off = false ∧ SameBitsBut b.off b.lvl m m' ∧
      SameOutside b.dir b.lvl m m' := by
  have hne : ¬ b.off.val + 16 = b.off.val := by omega
  have hp : (clearPin w b.off).getLsbD (b.off + 16) = true := by rw [clearPin_bit _ _ (by omega), if_neg hne, hm]
  refine ⟨h.regData_ne (by omega), ?_, h.sameBits fun k hk hn => ?_, fun x _ _ h3 h4 => h.2 x h3 h4⟩
  · rw [h.pin hp, clearPin_bit _ _ (by omega), if_pos rfl]
  · rw [clearPin_bit _ _ (by omega), if_neg hn, hw k hk hn]

/-- The whole micro-program outside the test mode: what it leaves (45_host_operations.md R185, R189). -/
theorem runSlots_mprog {s : State} {b : Binding} (q : Request) (hb : s.binding = some b) (hd : isRegister s.cfg b.dir = true)
    (hl : isRegister s.cfg b.lvl = true) (hne : b.dir = b.lvl + 8) (ht : s.testing = false) (hc : s.cfg.wf) :
    ∃ v w m l n, runSlots (mprog s.cfg q) s = .next { s with
        dtmp := enablePin v b.off, temp := clearPin (enablePin w b.off) b.off, mem := m, upperDraws := l, drawCount := n
        now := s.now + (chainSlots s.cfg q).length
        traceRev := (eventsOf b (enablePin w b.off) ((chainSlots s.cfg q).map Slot.op)).reverse ++
          .wr b.lvl (enablePin w b.off) :: .rd b.lvl w :: .wr b.dir (enablePin v b.off) :: .rd b.dir v :: s.traceRev } ∧
      dataHalf v = regData s.mem b.dir ∧ dataHalf w = regData s.mem b.lvl ∧ pinLevel m b = some false ∧
      SameBitsBut b.off b.dir s.mem m ∧ SameBitsBut b.off b.lvl s.mem m ∧ SameOutside b.dir b.lvl s.mem m ∧
      (Memory.wf s.mem → Memory.wf m) := by
  obtain ⟨v, w, m1, l, n, e1, hv, ⟨m0, hm0, hw, hm1⟩, hwf⟩ := runSlots_config hb hd hl
  obtain ⟨hw', hdon, hlon, hbd, hbl, hout⟩ := config_memory hne hv hm0 hw hm1
  have hrun : runSlots (mprog s.cfg q) s = andThen (runSlots configSlots s) (runSlots (chainSlots s.cfg q)) :=
    runList_append _ _ _ _
  rw [hrun, e1, andThen_next]
  obtain ⟨m2, e2, hm2, hwf2⟩ := runSlots_timed (s := { s with
        dtmp := enablePin v b.off, temp := enablePin w b.off, mem := m1, upperDraws := l, drawCount := n
        traceRev := .wr b.lvl (enablePin w b.off) :: .rd b.lvl w :: .wr b.dir (enablePin v b.off) :: .rd b.dir v ::
          s.traceRev }) (b := b) ⟨hb, hl⟩ ht (primsSlots_timed s.cfg (chainPrims q.pos.toNat q.r q.g q.b))
  have hcs : primsSlots s.cfg (chainPrims q.pos.toNat q.r q.g q.b) = chainSlots s.cfg q := rfl
  have htemp : tempAfter b.off (enablePin w b.off) ((chainSlots s.cfg q).map Slot.op) =
      clearPin (enablePin w b.off) b.off := tempAfter_prims hc _ _ (by simp [chainPrims])
  rw [hcs] at e2 hm2
  simp only [htemp] at e2 hm2
  have hm2 : MaskedStore b.lvl (clearPin (enablePin w b.off) b.off) m1 m2 := by
    rcases hm2 with ⟨h, -⟩ | h
    · have hx : (⟨.wrLow, some (false, s.cfg.nrst)⟩ : Slot) ∈ chainSlots s.cfg q := by
        rw [← hcs, chainPrims_slots]
        simp [resetSlots]
      cases h _ hx
    · exact h
  have hmask : (enablePin w b.off).getLsbD (b.off + 16) = true := by rw [enablePin_bit _ _ (by omega)]; simp
  obtain ⟨h3, h4, h5, h6⟩ := timed_memory hne hmask (fun k hk hn => by
    rw [enablePin_data hw' hk hn]
    exact (hbl k hk hn).symm) hm2
  refine ⟨v, w, m2, l, n, e2, hv, hw', ?_, ?_, ?_, ?_, fun h => hwf2 (hwf h)⟩
  · simp only [pinLevel, pinDriven, h3, hdon, h4, if_true]
  · intro k hk hn
    rw [h3]
    exact hbd k hk hn
  · intro k hk hn
    exact (h5 k hk hn).trans (hbl k hk hn)
  · intro x a1 a2 a3 a4
    exact (h6 x a1 a2 a3 a4).trans (hout x a1 a2 a3 a4)

/-- The whole micro-program in the test mode: the configuration accesses its registers, the chain does not (41_pulse_primitives.md
R123, log 10). -/
theorem runSlots_mprog_testing {s : State} {b : Binding} (q : Request) (hb : s.binding = some b)
    (hd : isRegister s.cfg b.dir = true) (hl : isRegister s.cfg b.lvl = true) (hne : b.dir = b.lvl + 8)
    (ht : s.testing = true) (hc : s.cfg.wf) :
    ∃ v w m l n, runSlots (mprog s.cfg q) s = .next { s with
        dtmp := enablePin v b.off, temp := clearPin (enablePin w b.off) b.off, mem := m, upperDraws := l, drawCount := n
        now := s.now + (chainSlots s.cfg q).length
        recordRev := (wave s.cfg (wireBits q.pos.toNat q.r q.g q.b)).reverse ++ s.recordRev
        traceRev := List.replicate (2 * (s.cfg.nrst - 1)) .dwell ++
          .wr b.lvl (enablePin w b.off) :: .rd b.lvl w :: .wr b.dir (enablePin v b.off) :: .rd b.dir v :: s.traceRev } ∧
      dataHalf v = regData s.mem b.dir ∧ dataHalf w = regData s.mem b.lvl ∧ pinLevel m b = some true ∧
      SameBitsBut b.off b.dir s.mem m ∧ SameBitsBut b.off b.lvl s.mem m ∧ SameOutside b.dir b.lvl s.mem m := by
  obtain ⟨v, w, m, l, n, e1, hv, ⟨m0, hm0, hw, hm1⟩, -⟩ := runSlots_config hb hd hl
  obtain ⟨hw', hdon, hlon, hbd, hbl, hout⟩ := config_memory hne hv hm0 hw hm1
  have hrun : runSlots (mprog s.cfg q) s = andThen (runSlots configSlots s) (runSlots (chainSlots s.cfg q)) :=
    runList_append _ _ _ _
  have e2 := runSlots_testing (s := { s with
        dtmp := enablePin v b.off, temp := enablePin w b.off, mem := m, upperDraws := l, drawCount := n
        traceRev := .wr b.lvl (enablePin w b.off) :: .rd b.lvl w :: .wr b.dir (enablePin v b.off) :: .rd b.dir v ::
          s.traceRev }) (b := b) hb ht (primsSlots_timed s.cfg (chainPrims q.pos.toNat q.r q.g q.b))
  have hcs : primsSlots s.cfg (chainPrims q.pos.toNat q.r q.g q.b) = chainSlots s.cfg q := rfl
  have htemp : tempAfter b.off (enablePin w b.off) ((chainSlots s.cfg q).map Slot.op) =
      clearPin (enablePin w b.off) b.off := tempAfter_prims hc _ _ (by simp [chainPrims])
  rw [chainPrims_dwells, primsSlots_marks hc, chainPrims_wave, hcs] at e2
  simp only [htemp] at e2
  rw [hrun, e1, andThen_next]
  exact ⟨v, w, m, l, n, e2, hv, hw', by simp only [pinLevel, pinDriven, hdon, hlon, if_true], hbd, hbl, hout⟩

end Sys2Proof.Machine
end

