-- ==== Sys2Proof/Laws/Sequencer.lean ====
section
/-! SUPPORT. The sequencer (45_host_operations.md R184, R191): its steps are the turns of CORE_WRITE's loop, and UPC only counts
them. -/

namespace Sys2Proof.Machine

theorem run_zero (s : State) : run 0 s = .next s := rfl

theorem coreRun_next (M : Host.Core) {k : Nat} {s t : M.State} (h : M.step s = .next t) : M.run (k + 1) s = M.run k t := by
  rw [Host.Core.run, h]

theorem coreRun_fault (M : Host.Core) {k : Nat} {s : M.State} {e : M.Fault} (h : M.step s = .fault e) :
    M.run (k + 1) s = .fault e := by rw [Host.Core.run, h]

theorem coreRun_refused (M : Host.Core) {k : Nat} {s : M.State} {r : M.Refusal} (h : M.step s = .refused r) :
    M.run (k + 1) s = .refused r := by rw [Host.Core.run, h]

theorem run_succ (k : Nat) (s : State) : run (k + 1) s = andThen (step s) (run k) := by
  generalize h : step s = o
  cases o with
  | next t => exact coreRun_next core h
  | fault e => exact coreRun_fault core h
  | refused r => exact coreRun_refused core h

theorem run_add (j k : Nat) (s : State) : run (j + k) s = andThen (run j s) (run k) := by
  induction j generalizing s with
  | zero => rw [Nat.zero_add, run_zero, andThen_next]
  | succ j ih =>
    rw [Nat.add_right_comm, run_succ, run_succ, andThen_assoc]
    congr 1
    funext t
    exact ih t

/-- A turn of the loop keeps the request, the parameters and BUSY, and counts. -/
theorem runAndCount_frame {x : Slot} {s t : State} (h : runAndCount x s = .next t) :
    t.latch = s.latch ∧ t.cfg = s.cfg ∧ t.busy = s.busy ∧ t.binding = s.binding ∧ t.upc = s.upc + 1 := by
  obtain ⟨u, h1, h2⟩ := andThen_eq_next.mp h
  have hf := runSlot_frame h1
  simp only [Host.Outcome.next.injEq] at h2
  subst h2
  exact ⟨hf.latch, hf.cfg, hf.busy, hf.binding, congrArg (· + 1) hf.upc⟩

/-- A step inside the micro-program is a turn of the loop. -/
theorem step_turn {s : State} {x : Slot} (hb : s.busy = true) (hp : s.latch.pos ≠ 0)
    (hx : (mprog s.cfg s.latch)[s.upc]? = some x) : step s = runAndCount x s := by
  simp only [step, hb, sequencerStep, hp, hx, if_true, if_false, exec_toInstr]
  rfl

/-- The step after the micro-program completes the WRITE (R185). -/
theorem step_complete {s : State} (hb : s.busy = true) (hp : s.latch.pos ≠ 0)
    (hx : (mprog s.cfg s.latch)[s.upc]? = none) : step s = .next (completeWrite s) := by
  simp only [step, hb, sequencerStep, hp, hx, if_true, if_false]

/-- Steps through a part of the micro-program are the turns of that part. -/
theorem run_turns {l rest : List Slot} {s : State} (hb : s.busy = true) (hp : s.latch.pos ≠ 0)
    (hl : (mprog s.cfg s.latch).drop s.upc = l ++ rest) : run l.length s = runList runAndCount l s := by
  induction l generalizing s with
  | nil => rfl
  | cons x l ih =>
    have hx : (mprog s.cfg s.latch)[s.upc]? = some x := by
      have := congrArg List.head? hl
      simpa [List.head?_drop] using this
    rw [List.length_cons, run_succ, step_turn hb hp hx, runList_cons]
    generalize ho : runAndCount x s = o
    rcases o with t | _ | _
    · obtain ⟨h1, h2, h3, -, h4⟩ := runAndCount_frame ho
      simp only [andThen_next]
      refine ih (h3.trans hb) (by rw [h1]; exact hp) ?_
      rw [h1, h2, h4, ← List.drop_drop, hl]
      rfl
    · rfl
    · rfl

/-- UPC is no input of a micro-operation. -/
theorem runMicro_setUpc (op : MicroOp) (s : State) (n : Nat) :
    runMicro op (s.setUpc n) = andThen (runMicro op s) fun t => .next (t.setUpc n) := by
  have read : ∀ a, readWord a (s.setUpc n) = ((readWord a s).1, (readWord a s).2.setUpc n) := by
    intro a
    simp only [readWord, drawUpper, State.setUpc_upperDraws]
    cases s.upperDraws <;> rfl
  have rd : ∀ a, memRead a (s.setUpc n) = andThen (memRead a s) fun r => .next (r.1, r.2.setUpc n) := by
    intro a
    simp only [memRead, read, State.setUpc_cfg]
    split <;> rfl
  have wr : ∀ a w (t : State), memWrite a w (t.setUpc n) = andThen (memWrite a w t) fun u => .next (u.setUpc n) := by
    intro a w t
    by_cases h : isRegister t.cfg a = true
    · rw [memWrite_next h, memWrite_next (s := t.setUpc n) h]
      rfl
    · have h' : ¬ isRegister (t.setUpc n).cfg a = true := h
      rw [memWrite, memWrite, if_neg h, if_neg h']
      rfl
  have pulse : ∀ b w, pulseWrite b w (s.setUpc n) = andThen (pulseWrite b w s) fun u => .next (u.setUpc n) := by
    intro b w
    have ht : (s.setUpc n).testing = s.testing := rfl
    unfold pulseWrite
    rw [ht]
    split
    · rfl
    · have : (s.setUpc n).setTemp w = (s.setTemp w).setUpc n := rfl
      rw [this, wr, andThen_assoc, andThen_assoc]
      rfl
  have bind : ∀ f : Binding → Out State, ∀ g, (∀ b, f b = andThen (g b) fun u => .next (u.setUpc n)) →
      withBinding (s.setUpc n) f = andThen (withBinding s g) fun u => .next (u.setUpc n) := by
    intro f g h
    simp only [withBinding, State.setUpc_binding]
    split
    · exact h _
    · rfl
  cases op with
  | rdDir => exact bind _ _ fun b => by rw [rd, andThen_assoc, andThen_assoc]; rfl
  | wrDir => exact bind _ _ fun b => wr _ _ (s.setDtmp (enablePin s.dtmp b.off))
  | rdLvl => exact bind _ _ fun b => by rw [rd, andThen_assoc, andThen_assoc]; rfl
  | wrLvlInit => exact bind _ _ fun b => wr _ _ (s.setTemp (enablePin s.temp b.off))
  | wrHigh => exact bind _ _ fun b => pulse _ _
  | wrLow => exact bind _ _ fun b => pulse _ _
  | dwell => rfl

theorem runSlot_setUpc (x : Slot) (s : State) (n : Nat) :
    runSlot x (s.setUpc n) = andThen (runSlot x s) fun t => .next (t.setUpc n) := by
  have h : noteMark x (s.setUpc n) = (noteMark x s).setUpc n := by
    simp only [noteMark]
    have ht : (s.setUpc n).testing = s.testing := rfl
    rw [ht]
    rcases s.testing with _ | _ <;> rcases x.mark with _ | _ <;> rfl
  rw [runSlot, h, runMicro_setUpc, runSlot]

theorem runSlots_setUpc (l : List Slot) (s : State) (n : Nat) :
    runSlots l (s.setUpc n) = andThen (runSlots l s) fun t => .next (t.setUpc n) := by
  induction l generalizing s with
  | nil => rfl
  | cons x l ih =>
    have h : ∀ u, runSlots (x :: l) u = andThen (runSlot x u) (runSlots l) := fun _ => rfl
    rw [h, h, runSlot_setUpc, andThen_assoc, andThen_assoc]
    congr 1
    funext t
    exact ih t

/-- The turns of the loop are the micro-operations with UPC counted at the end. -/
theorem runList_runAndCount (l : List Slot) (s : State) :
    runList runAndCount l s = andThen (runSlots l s) fun t => .next (t.setUpc (s.upc + l.length)) := by
  induction l generalizing s with
  | nil => rfl
  | cons x l ih =>
    have h : ∀ u, runSlots (x :: l) u = andThen (runSlot x u) (runSlots l) := fun _ => rfl
    rw [runList_cons, h, runAndCount, andThen_assoc, andThen_assoc]
    generalize ho : runSlot x s = o
    rcases o with t | _ | _
    · have hf : t.upc = s.upc := (runSlot_frame ho).upc
      simp only [andThen_next]
      rw [ih, runSlots_setUpc, andThen_assoc, State.setUpc_upc, hf, List.length_cons, Nat.add_assoc, Nat.add_comm 1]
      rfl
    · rfl
    · rfl

/-- From the start of a WRITE's micro-program, its steps run it and then complete it. -/
theorem run_mprog {s : State} (hb : s.busy = true) (hp : s.latch.pos ≠ 0) (hu : s.upc = 0) :
    run ((mprog s.cfg s.latch).length + 1) s =
      andThen (runSlots (mprog s.cfg s.latch) s) fun t => .next (completeWrite (t.setUpc (mprog s.cfg s.latch).length)) := by
  rw [run_add, run_turns (rest := []) hb hp (by rw [hu]; simp), runList_runAndCount, hu, Nat.zero_add, andThen_assoc]
  generalize ho : runSlots (mprog s.cfg s.latch) s = o
  rcases o with t | _ | _
  · have hf := runSlots_frame ho
    simp only [andThen_next]
    rw [run_succ, step_complete]
    · rfl
    · exact hf.busy.trans hb
    · simpa [hf.latch] using hp
    · simp [hf.latch, hf.cfg]
  · rfl
  · rfl

/-- VALIDATE passes a request in range and changes nothing (R182). -/
theorem validate_ok {s : State} {q : Request} (h : RequestOk s.cfg q) :
    validate q.bank q.pin q.pos s = .next (.going s) := by
  obtain ⟨h1, h2, h3, h4⟩ := h
  have n1 : ¬ q.bank.toNat > BANK_MAX := by omega
  have n2 : ¬ q.pin.toNat > PIN_MAX := by omega
  have n3 : ¬ (q.pos.toNat < 1 ∨ q.pos.toNat > s.cfg.ledMax) := by omega
  rw [validate, if_neg n1, if_neg n2, if_neg n3]

/-- A request in range has a position other than 0. -/
theorem RequestOk.pos_ne_zero {c : Config} {q : Request} (h : RequestOk c q) : q.pos ≠ 0 := by
  intro e
  have h3 := h.2.2.1
  rw [e] at h3
  simp at h3

/-- A valid request that both acquisitions grant is accepted (R181, R183, R184). -/
theorem execWrite_granted {s : State} {blk : List Byte} {q : Request} {x : Binding} {rest : List Bool}
    (hb : s.busy = false) (hs : Releasable s) (hq : requestOfBlock blk = some q) (hok : RequestOk s.cfg q)
    (hr : resolve s.cfg q.bank.toNat q.pin.toNat = .found x) (ha : s.acqDraws = true :: true :: rest) :
    execWrite blk s = .next { s with
      latch := q, binding := some x, held := heldOf (some x), busy := true, upc := 0, now := 0, acqDraws := rest
      traceRev := .acq x.lvl true :: .acq x.dir true :: ((releaseEvents s.binding).reverse ++ s.traceRev) } := by
  have hm := mapPin_granted (s := { s with busy := true, latch := q }) (bank := q.bank) (pin := q.pin) hr hs ha
  have hidle : ¬ s.busy = true := by rw [hb]; simp
  rw [execWrite, whenIdle, if_neg hidle]
  simp only [acceptWrite, hq, validate_ok (s := s.setBusy true) hok, thenGo_going]
  have hcore : enterCore (State.setLatch (s.setBusy true) q) = .next (.going { s with
      latch := q, binding := some x, held := heldOf (some x), busy := true, upc := 0, now := 0, acqDraws := rest
      traceRev := .acq x.lvl true :: .acq x.dir true :: ((releaseEvents s.binding).reverse ++ s.traceRev) }) := by
    have hm' : mapPin (State.setLatch (s.setBusy true) q).latch.bank (State.setLatch (s.setBusy true) q).latch.pin
        (State.setLatch (s.setBusy true) q) = _ := hm
    rw [enterCore, hm', thenGo_going]
    simp only [hok.pos_ne_zero, if_false]
    rfl
  rw [hcore, settle_going]

end Sys2Proof.Machine
end

