-- ==== Sys2Proof/Laws/Lifecycle.lean ====
section
/-! SUPPORT. What RESOLVE, ACQUIRE, RELEASE and the acceptance of a WRITE leave alone, from every state, and what a step of an
idle or a busy engine can be. -/

namespace Sys2Proof.Machine

/-- What no part of a command before its micro-operations changes. -/
structure QuietFrame (s t : State) : Prop where
  temp : t.temp = s.temp
  dtmp : t.dtmp = s.dtmp
  mem : t.mem = s.mem
  testMode : t.testMode = s.testMode
  recordRev : t.recordRev = s.recordRev
  cfg : t.cfg = s.cfg
  upperDraws : t.upperDraws = s.upperDraws
  events : ∃ l, t.traceRev = l ++ s.traceRev ∧ ∀ e ∈ l, e.outside = false
  heldWf : heldWf s.held → heldWf t.held

/-- What, besides, no part of a command before its micro-operations changes but the acceptance of a WRITE. -/
structure StillFrame (s t : State) : Prop extends QuietFrame s t where
  latch : t.latch = s.latch
  upc : t.upc = s.upc
  now : t.now = s.now
  inbox : t.inbox = s.inbox

theorem QuietFrame.refl (s : State) : QuietFrame s s :=
  ⟨rfl, rfl, rfl, rfl, rfl, rfl, rfl, ⟨[], rfl, by simp⟩, id⟩

theorem QuietFrame.trans {s t u : State} (h : QuietFrame s t) (k : QuietFrame t u) : QuietFrame s u where
  temp := k.temp.trans h.temp
  dtmp := k.dtmp.trans h.dtmp
  mem := k.mem.trans h.mem
  testMode := k.testMode.trans h.testMode
  recordRev := k.recordRev.trans h.recordRev
  cfg := k.cfg.trans h.cfg
  upperDraws := k.upperDraws.trans h.upperDraws
  events := by
    obtain ⟨l, e, hl⟩ := h.events
    obtain ⟨l', e', hl'⟩ := k.events
    refine ⟨l' ++ l, by rw [e', e, List.append_assoc], fun x hx => ?_⟩
    rcases List.mem_append.mp hx with hx | hx
    · exact hl' x hx
    · exact hl x hx
  heldWf := k.heldWf ∘ h.heldWf

theorem StillFrame.refl (s : State) : StillFrame s s := ⟨QuietFrame.refl s, rfl, rfl, rfl, rfl⟩

theorem StillFrame.trans {s t u : State} (h : StillFrame s t) (k : StillFrame t u) : StillFrame s u :=
  ⟨h.toQuietFrame.trans k.toQuietFrame, k.latch.trans h.latch, k.upc.trans h.upc, k.now.trans h.now,
    k.inbox.trans h.inbox⟩

/-- Besides, BUSY and STATUS are as before. -/
structure GoingFrame (s t : State) : Prop extends StillFrame s t where
  busy : t.busy = s.busy
  status : t.status = s.status
  cause : t.cause = s.cause

theorem GoingFrame.refl (s : State) : GoingFrame s s := ⟨StillFrame.refl s, rfl, rfl, rfl⟩

theorem GoingFrame.trans {s t u : State} (h : GoingFrame s t) (k : GoingFrame t u) : GoingFrame s u :=
  ⟨h.toStillFrame.trans k.toStillFrame, k.busy.trans h.busy, k.status.trans h.status, k.cause.trans h.cause⟩

/-- One event that touches nothing outside. -/
theorem quiet_event {s t : State} {e : Event} (h : t.traceRev = e :: s.traceRev) (he : e.outside = false) :
    ∃ l, t.traceRev = l ++ s.traceRev ∧ ∀ x ∈ l, x.outside = false :=
  ⟨[e], h, fun x hx => by rw [List.mem_singleton.mp hx]; exact he⟩

theorem failWith_frame (e : Failure) (s : State) : StillFrame s (failWith e s) :=
  ⟨⟨rfl, rfl, rfl, rfl, rfl, rfl, rfl, quiet_event (e := .ret e.status) rfl rfl, id⟩, rfl, rfl, rfl, rfl⟩

theorem returnOk_frame (s : State) : StillFrame s (returnOk s) :=
  ⟨⟨rfl, rfl, rfl, rfl, rfl, rfl, rfl, quiet_event (e := .ret .ok) rfl rfl, id⟩, rfl, rfl, rfl, rfl⟩

theorem acquire_frame (a : Nat) (s : State) : GoingFrame s (acquire a s).2 := by
  obtain ⟨x, l, n, e⟩ := acquire_spec a s
  rw [e]
  refine ⟨⟨⟨rfl, rfl, rfl, rfl, rfl, rfl, rfl, quiet_event (e := .acq a x) rfl rfl, fun h => ?_⟩, rfl, rfl, rfl, rfl⟩,
    rfl, rfl, rfl⟩
  cases x
  · exact h
  · exact heldWf_insert h a

theorem releaseAddr_frame {a : Nat} {s t : State} (h : releaseAddr a s = .next t) : GoingFrame s t := by
  unfold releaseAddr at h
  split at h
  · simp only [Host.Outcome.next.injEq] at h
    subst h
    exact ⟨⟨⟨rfl, rfl, rfl, rfl, rfl, rfl, rfl, quiet_event (e := .rel a) rfl rfl, fun h => heldWf_erase h a⟩, rfl, rfl,
      rfl, rfl⟩, rfl, rfl, rfl⟩
  · cases h

theorem setBinding_frame (s : State) (b : Option Binding) : GoingFrame s (s.setBinding b) :=
  ⟨⟨⟨rfl, rfl, rfl, rfl, rfl, rfl, rfl, ⟨[], rfl, by simp⟩, id⟩, rfl, rfl, rfl, rfl⟩, rfl, rfl, rfl⟩

theorem releaseBinding_frame {s t : State} (h : releaseBinding s = .next t) : GoingFrame s t := by
  unfold releaseBinding at h
  split at h
  · cases h
    exact GoingFrame.refl _
  · obtain ⟨u, h1, h2⟩ := andThen_eq_next.mp h
    obtain ⟨v, h3, h4⟩ := andThen_eq_next.mp h2
    simp only [Host.Outcome.next.injEq] at h4
    subst h4
    exact ((releaseAddr_frame h1).trans (releaseAddr_frame h3)).trans (setBinding_frame _ _)

/-- RESOLVE, RELEASE and the acquisitions, from every state: either they go on, or they have raised. -/
theorem mapPin_frame {bank pin : Word} {s : State} {f : Flow} (h : mapPin bank pin s = .next f) :
    StillFrame s f.state ∧ ∀ t, f = .going t → GoingFrame s t := by
  have raised : ∀ {e : Failure} {u : State}, StillFrame s u → raise e u = .next f →
      StillFrame s f.state ∧ ∀ t, f = .going t → GoingFrame s t := by
    intro e u hu hr
    simp only [raise, Host.Outcome.next.injEq] at hr
    subst hr
    exact ⟨hu.trans (failWith_frame e u), fun t ht => by cases ht⟩
  simp only [mapPin, withResolved] at h
  split at h
  · exact raised (StillFrame.refl s) h
  · cases h
  · rename_i b _
    obtain ⟨u, h1, h2⟩ := andThen_eq_next.mp h
    have f0 := releaseBinding_frame h1
    have f1 := f0.trans (acquire_frame b.dir u)
    have f2 := f1.trans (acquire_frame b.lvl (acquire b.dir u).2)
    simp only [acquirePair] at h2
    split at h2
    · split at h2
      · simp only [Host.Outcome.next.injEq] at h2
        subst h2
        have f3 := f2.trans (setBinding_frame _ (some b))
        exact ⟨f3.toStillFrame, fun t ht => by cases ht; exact f3⟩
      · obtain ⟨v, h3, h4⟩ := andThen_eq_next.mp h2
        exact raised (f2.trans (releaseAddr_frame h3)).toStillFrame h4
    · exact raised f1.toStillFrame h2

/-- The five ways `mapPin` ends from a state whose binding can be released, for any draws. -/
theorem mapPin_cases (bank pin : Word) {s : State} (hs : Releasable s) :
    (∃ e, mapPin bank pin s = raise e s) ∨
    (mapPin bank pin s = .refused (.noRegisterForPin pin) ∧ pin.toNat ≤ 31 ∧ pinStep s.cfg pin.toNat > 1) ∨
    ∃ x l n, resolve s.cfg bank.toNat pin.toNat = .found x ∧
      (mapPin bank pin s = .next (.going { s with
          binding := some x, held := heldOf (some x), acqDraws := l, drawCount := n
          traceRev := .acq x.lvl true :: .acq x.dir true :: ((releaseEvents s.binding).reverse ++ s.traceRev) }) ∨
       mapPin bank pin s = raise (.resourceUnavailable x.lvl) { s with
          binding := none, held := [], acqDraws := l, drawCount := n
          traceRev := .rel x.dir :: .acq x.lvl false :: .acq x.dir true ::
            ((releaseEvents s.binding).reverse ++ s.traceRev) } ∨
       mapPin bank pin s = raise (.resourceUnavailable x.dir) { s with
          binding := none, held := [], acqDraws := l, drawCount := n
          traceRev := .acq x.dir false :: ((releaseEvents s.binding).reverse ++ s.traceRev) }) := by
  by_cases h1 : bank.toNat > 4 ∨ pin.toNat > 31
  · exact .inl ⟨_, mapPin_outOfRange h1⟩
  · by_cases h2 : pinStep s.cfg pin.toNat > 1
    · exact .inr (.inl ⟨mapPin_noRegister (by omega) (by omega) h2, by omega, h2⟩)
    · obtain ⟨x, hx⟩ := resolve_isFound (c := s.cfg) (bank := bank.toNat) (pin := pin.toNat) (by omega) (by omega) (by omega)
      obtain ⟨l, n, h⟩ := acquirePair_cases (s := { s with
        binding := none, held := [], traceRev := (releaseEvents s.binding).reverse ++ s.traceRev }) x rfl
        (resolve_found hx).2.2.2.2.1
      refine .inr (.inr ⟨x, l, n, hx, ?_⟩)
      rw [mapPin_found hx hs]
      exact h

/-- The part of CORE_WRITE before its micro-operations, from every state. -/
theorem enterCore_frame {s : State} {f : Flow} (h : enterCore s = .next f) :
    QuietFrame s f.state ∧ f.state.latch = s.latch ∧ f.state.inbox = s.inbox ∧
      ∀ t, f = .going t → t.busy = s.busy ∧ t.status = s.status ∧ t.cause = s.cause ∧ t.latch.pos ≠ 0 ∧ t.upc = 0 ∧ t.now = 0 := by
  rw [enterCore] at h
  generalize ho : mapPin s.latch.bank s.latch.pin s = o at h
  rcases o with (u | u) | _ | _
  · obtain ⟨h1, h2⟩ := mapPin_frame ho
    have h2 := h2 u rfl
    rw [thenGo_going] at h
    split at h
    · cases h
    · simp only [Host.Outcome.next.injEq] at h
      subst h
      refine ⟨h1.toQuietFrame.trans ⟨rfl, rfl, rfl, rfl, rfl, rfl, rfl, ⟨[], rfl, by simp⟩, id⟩, h1.latch, h1.inbox, ?_⟩
      intro t ht
      cases ht
      exact ⟨h2.busy, h2.status, h2.cause, ‹_›, rfl, rfl⟩
  · obtain ⟨h1, -⟩ := mapPin_frame ho
    simp only [thenGo_raised, Host.Outcome.next.injEq] at h
    subst h
    exact ⟨h1.toQuietFrame, h1.latch, h1.inbox, fun t ht => by cases ht⟩
  · cases h
  · cases h

theorem validate_frame {bank pin pos : Word} {s : State} {f : Flow} (h : validate bank pin pos s = .next f) :
    StillFrame s f.state ∧ f.state.held = s.held ∧ f.state.binding = s.binding ∧ f.state.acqDraws = s.acqDraws ∧
      f.state.drawCount = s.drawCount ∧ ∀ t, f = .going t → t = s ∧
        bank.toNat ≤ BANK_MAX ∧ pin.toNat ≤ PIN_MAX ∧ 1 ≤ pos.toNat ∧ pos.toNat ≤ s.cfg.ledMax := by
  have raised : ∀ {e : Failure}, raise e s = .next f →
      StillFrame s f.state ∧ f.state.held = s.held ∧ f.state.binding = s.binding ∧ f.state.acqDraws = s.acqDraws ∧
        f.state.drawCount = s.drawCount ∧ ∀ t, f = .going t → t = s ∧
        bank.toNat ≤ BANK_MAX ∧ pin.toNat ≤ PIN_MAX ∧ 1 ≤ pos.toNat ∧ pos.toNat ≤ s.cfg.ledMax := by
    intro e hr
    simp only [raise, Host.Outcome.next.injEq] at hr
    subst hr
    exact ⟨failWith_frame e s, rfl, rfl, rfl, rfl, fun t ht => by cases ht⟩
  unfold validate at h
  split at h
  · exact raised h
  · split at h
    · exact raised h
    · split at h
      · exact raised h
      · simp only [Host.Outcome.next.injEq] at h
        subst h
        refine ⟨StillFrame.refl s, rfl, rfl, rfl, rfl, fun t ht => ⟨by cases ht; rfl, ?_⟩⟩
        exact ⟨by omega, by omega, by omega, by omega⟩

/-- A raise ends with BUSY = 0 (R236). -/
theorem raise_raised {e : Failure} {s t : State} (h : raise e s = .next (.raised t)) : t.busy = false := by
  simp only [raise, Host.Outcome.next.injEq, Flow.raised.injEq] at h
  subst h
  rfl

theorem validate_raised {bank pin pos : Word} {s t : State} (h : validate bank pin pos s = .next (.raised t)) :
    t.busy = false := by
  unfold validate at h
  split at h
  · exact raise_raised h
  · split at h
    · exact raise_raised h
    · split at h
      · exact raise_raised h
      · cases h

theorem mapPin_raised {bank pin : Word} {s t : State} (h : mapPin bank pin s = .next (.raised t)) : t.busy = false := by
  simp only [mapPin, withResolved] at h
  split at h
  · exact raise_raised h
  · cases h
  · obtain ⟨u, -, h⟩ := andThen_eq_next.mp h
    simp only [acquirePair] at h
    split at h
    · split at h
      · cases h
      · obtain ⟨v, -, h⟩ := andThen_eq_next.mp h
        exact raise_raised h
    · exact raise_raised h

theorem enterCore_raised {s t : State} (h : enterCore s = .next (.raised t)) : t.busy = false := by
  rw [enterCore] at h
  generalize hm : mapPin _ _ _ = m at h
  rcases m with (w | w) | _ | _
  · rw [thenGo_going] at h
    split at h <;> cases h
  · simp only [thenGo_raised, Host.Outcome.next.injEq, Flow.raised.injEq] at h
    subst h
    exact mapPin_raised hm
  · cases h
  · cases h

/-- An accepted or a failed WRITE, from every state. -/
theorem execWrite_frame {blk : List Byte} {s t : State} (h : execWrite blk s = .next t) :
    QuietFrame s t ∧ t.inbox = s.inbox ∧ s.busy = false ∧
      (t.busy = true → ∃ q, requestOfBlock blk = some q ∧ RequestOk s.cfg q ∧ t.latch = q ∧ t.upc = 0 ∧ t.now = 0) := by
  unfold execWrite whenIdle at h
  split at h
  · cases h
  have hb : s.busy = false := by simpa using ‹¬ s.busy = true›
  have fb : StillFrame s (s.setBusy true) :=
    ⟨⟨rfl, rfl, rfl, rfl, rfl, rfl, rfl, ⟨[], rfl, by simp⟩, id⟩, rfl, rfl, rfl, rfl⟩
  have raised : ∀ {e : Failure} {u : State} {f : Flow}, StillFrame s u → f = .raised (failWith e u) → f.state = t →
      QuietFrame s t ∧ t.inbox = s.inbox ∧ s.busy = false ∧
        (t.busy = true → ∃ q, requestOfBlock blk = some q ∧ RequestOk s.cfg q ∧ t.latch = q ∧ t.upc = 0 ∧ t.now = 0) := by
    intro e u f hu hf ht
    subst hf ht
    have := hu.trans (failWith_frame e u)
    exact ⟨this.toQuietFrame, this.inbox, hb, fun h => by cases h⟩
  obtain ⟨f, h1, h2⟩ := andThen_eq_next.mp h
  simp only [Host.Outcome.next.injEq] at h2
  unfold acceptWrite at h1
  split at h1
  · simp only [raise, Host.Outcome.next.injEq] at h1
    exact raised fb h1.symm h2
  · rename_i q hq
    generalize ho : validate q.bank q.pin q.pos (s.setBusy true) = o at h1
    rcases o with (u | u) | _ | _
    · obtain ⟨-, -, -, -, -, hu⟩ := validate_frame ho
      obtain ⟨rfl, hok⟩ := hu u rfl
      rw [thenGo_going] at h1
      obtain ⟨f1, f2, f3, f4⟩ := enterCore_frame h1
      have f0 : QuietFrame (s.setBusy true) (State.setLatch (s.setBusy true) q) :=
        ⟨rfl, rfl, rfl, rfl, rfl, rfl, rfl, ⟨[], rfl, by simp⟩, id⟩
      rw [h2] at f1 f2 f3
      refine ⟨(fb.toQuietFrame.trans f0).trans f1, f3, hb, fun hbt => ⟨q, hq, hok, f2, ?_⟩⟩
      cases f with
      | going v =>
        obtain ⟨-, -, -, -, h5, h6⟩ := f4 v rfl
        simp only [Flow.state] at h2
        subst h2
        exact ⟨h5, h6⟩
      | raised v =>
        exfalso
        have := enterCore_raised h1
        simp only [Flow.state] at h2
        subst h2
        rw [this] at hbt
        cases hbt
    · obtain ⟨hf, -⟩ := validate_frame ho
      simp only [thenGo_raised, Host.Outcome.next.injEq] at h1
      subst h1
      have hvb := validate_raised ho
      simp only [Flow.state] at h2 hf
      subst h2
      have hf := fb.trans hf
      exact ⟨hf.toQuietFrame, hf.inbox, hb, fun h => by rw [hvb] at h; cases h⟩
    · cases h1
    · cases h1

/-- The ways a WRITE ends from an idle engine whose binding can be released: it fails at once with nothing else changed, it is
refused for a pin without a register, it fails in an acquisition, or it is accepted. -/
theorem execWrite_cases (blk : List Byte) {s : State} (hb : s.busy = false) (hs : Releasable s) :
    (∃ e q, execWrite blk s = .next (failWith e (s.setLatch q))) ∨
    (∃ pin, execWrite blk s = .refused (.noRegisterForPin pin) ∧ pin.toNat ≤ 31 ∧ pinStep s.cfg pin.toNat > 1) ∨
    ∃ q x l n, requestOfBlock blk = some q ∧ RequestOk s.cfg q ∧ resolve s.cfg q.bank.toNat q.pin.toNat = .found x ∧
      (execWrite blk s = .next { s with
          latch := q, binding := some x, held := heldOf (some x), busy := true, upc := 0, now := 0, acqDraws := l, drawCount := n
          traceRev := .acq x.lvl true :: .acq x.dir true :: ((releaseEvents s.binding).reverse ++ s.traceRev) } ∨
       execWrite blk s = .next (failWith (.resourceUnavailable x.lvl) { s with
          latch := q, binding := none, held := [], acqDraws := l, drawCount := n
          traceRev := .rel x.dir :: .acq x.lvl false :: .acq x.dir true ::
            ((releaseEvents s.binding).reverse ++ s.traceRev) }) ∨
       execWrite blk s = .next (failWith (.resourceUnavailable x.dir) { s with
          latch := q, binding := none, held := [], acqDraws := l, drawCount := n
          traceRev := .acq x.dir false :: ((releaseEvents s.binding).reverse ++ s.traceRev) })) := by
  have hidle : ¬ s.busy = true := by rw [hb]; simp
  have fails : ∀ e, failWith e (s.setBusy true) = failWith e (s.setLatch s.latch) := by
    intro e
    cases s
    cases hb
    rfl
  rw [execWrite, whenIdle, if_neg hidle]
  unfold acceptWrite
  split
  · exact .inl ⟨_, s.latch, congrArg _ (fails _)⟩
  · rename_i q hq
    unfold validate
    split
    · exact .inl ⟨_, s.latch, congrArg _ (fails _)⟩
    · split
      · exact .inl ⟨_, s.latch, congrArg _ (fails _)⟩
      · split
        · exact .inl ⟨_, s.latch, congrArg _ (fails _)⟩
        · rename_i hbank hpin hpos
          have hok : RequestOk s.cfg q :=
            ⟨Nat.le_of_not_lt hbank, Nat.le_of_not_lt hpin, Nat.le_of_not_lt (not_or.mp hpos).1,
              Nat.le_of_not_lt (not_or.mp hpos).2⟩
          have hp : ¬ q.pos = 0 := hok.pos_ne_zero
          rw [thenGo_going]
          have hen : enterCore (State.setLatch (s.setBusy true) q) =
              thenGo (mapPin q.bank q.pin (State.setLatch (s.setBusy true) q)) fun s1 =>
                if s1.latch.pos = 0 then .refused .chainPositionZero
                else .next (.going ((s1.setUpc 0).setNow 0)) := rfl
          rw [hen]
          rcases mapPin_cases q.bank q.pin (s := State.setLatch (s.setBusy true) q) hs with
            ⟨e, h⟩ | ⟨h, h1, h2⟩ | ⟨x, l, n, hx, h | h | h⟩
          · refine .inl ⟨e, q, ?_⟩
            rw [h, thenGo_raise, settle_raise]
            cases s
            cases hb
            rfl
          · refine .inr (.inl ⟨q.pin, ?_, h1, h2⟩)
            rw [h]
            rfl
          · refine .inr (.inr ⟨q, x, l, n, hq, hok, hx, .inl ?_⟩)
            rw [h, thenGo_going]
            simp only [State.setLatch_latch, hp, if_false]
            rfl
          · refine .inr (.inr ⟨q, x, l, n, hq, hok, hx, .inr (.inl ?_)⟩)
            rw [h]
            cases s
            cases hb
            rfl
          · refine .inr (.inr ⟨q, x, l, n, hq, hok, hx, .inr (.inr ?_)⟩)
            rw [h]
            cases s
            cases hb
            rfl

/-- What a step of an idle engine can be. -/
theorem idleStep_cases (s : State) :
    (s.inbox = [] ∧ idleStep s = .next s) ∨
    ∃ c rest, s.inbox = c :: rest ∧
      ((∃ r, idleStep s = .refused r ∧ (r = .noSuchCommand ∨ r = .operandOnHook)) ∨
       idleStep s = execOpen (s.setInbox rest) ∨ idleStep s = execClose (s.setInbox rest) ∨
       ∃ blk, idleStep s = execWrite blk (s.setInbox rest)) := by
  unfold idleStep
  split
  · exact .inl ⟨‹_›, rfl⟩
  · rename_i c rest hi
    refine .inr ⟨c, rest, hi, ?_⟩
    obtain ⟨cmd, blk⟩ := c
    simp only [decode, decodeCommand]
    split
    · rename_i i hd
      split at hd
      · cases hd
        exact .inr (.inl rfl)
      · cases hd
        exact .inr (.inr (.inr ⟨_, rfl⟩))
      · cases hd
        exact .inr (.inr (.inl rfl))
      · cases hd
      · cases hd
    · rename_i e hd
      refine .inl ⟨_, rfl, ?_⟩
      cases e
      · exact .inl rfl
      · exact .inr rfl

/-- The first four entries of a micro-program are the configuration, and every later one is timed (R189). -/
theorem mprog_get {c : Config} {q : Request} {n : Nat} {x : Slot} (h : (mprog c q)[n]? = some x) :
    (n = 0 ∧ x.op = .rdDir) ∨ (n = 1 ∧ x.op = .wrDir) ∨ (n = 2 ∧ x.op = .rdLvl) ∨ (n = 3 ∧ x.op = .wrLvlInit) ∨
      (4 ≤ n ∧ isTimed x.op = true) := by
  by_cases h4 : 4 ≤ n
  · refine .inr (.inr (.inr (.inr ⟨h4, ?_⟩)))
    rw [mprog, List.getElem?_append_right (by simpa [configSlots] using h4)] at h
    exact primsSlots_timed c _ x (List.mem_of_getElem? h)
  · have hn : n = 0 ∨ n = 1 ∨ n = 2 ∨ n = 3 := by omega
    rcases hn with rfl | rfl | rfl | rfl <;> simp only [mprog, configSlots, List.cons_append, List.getElem?_cons_zero,
      List.getElem?_cons_succ, Option.some.injEq] at h <;> subst h <;> simp

/-- The ways a step of a busy engine can end, under the invariant: a turn of the loop, or the completion. -/
theorem busyStep_cases {s : State} (hi : EngineInv s) (hb : s.busy = true) :
    (∃ x, (mprog s.cfg s.latch)[s.upc]? = some x ∧ step s = runAndCount x s) ∨
    (s.upc = (mprog s.cfg s.latch).length ∧ step s = .next (completeWrite s)) := by
  obtain ⟨⟨-, -, h3, -⟩, -, hlen⟩ := hi.busyOk hb
  have hp : s.latch.pos ≠ 0 := by
    intro h
    rw [h] at h3
    simp at h3
  cases h : (mprog s.cfg s.latch)[s.upc]? with
  | some x => exact .inl ⟨x, rfl, step_turn hb hp h⟩
  | none =>
    have := List.getElem?_eq_none_iff.mp h
    exact .inr ⟨by omega, step_complete hb hp h⟩

end Sys2Proof.Machine
end

