-- ==== Sys2Proof/Laws/PerInstr.lean ====
section
/-! SUPPORT. A family of lemmas about instructions as syntax: the encoder gives an instruction words of the format the opcode table
gives its row, which decode to it, and none where the table gives format NONE (30_encoding.md R80, R88). -/

namespace Sys2Proof.Laws.FormatOfEncoding

/-- An instruction's encoding has its row's format and decodes to it. -/
def Statement (i : Instr) : Prop :=
  match encode i with
  | some (.command c) =>
    c.wellFormed = true ∧ decodeCommand c = .ok i ∧ i.format = (if c.cmd = 1 then .req16 else .hook)
  | some (.pulse x) => (primOfBit x).toInstr = i ∧ i.format = .pulse
  | none => i.format = .none

theorem openCmd : Statement .openCmd := ⟨rfl, rfl, rfl⟩
theorem writeCmd (blk : List Byte) : Statement (.writeCmd blk) := ⟨rfl, rfl, rfl⟩
theorem closeCmd : Statement .closeCmd := ⟨rfl, rfl, rfl⟩
theorem validate (bank pin pos : Word) : Statement (.validate bank pin pos) := rfl
theorem coreWrite : Statement .coreWrite := rfl
theorem resolve (bank pin : Word) : Statement (.resolve bank pin) := rfl
theorem acquire (addr : Nat) : Statement (.acquire addr) := rfl
theorem pinOpen (bank pin : Word) : Statement (.pinOpen bank pin) := rfl
theorem release : Statement .release := rfl
theorem chain (p : Word) (r g b : Byte) : Statement (.chain p r g b) := rfl
theorem byte (v : Byte) : Statement (.byte v) := rfl
theorem bit0 : Statement .bit0 := ⟨rfl, rfl⟩
theorem bit1 : Statement .bit1 := ⟨rfl, rfl⟩
theorem resetPulse : Statement .resetPulse := rfl
theorem rdDir : Statement .rdDir := rfl
theorem wrDir : Statement .wrDir := rfl
theorem rdLvl : Statement .rdLvl := rfl
theorem wrLvlInit : Statement .wrLvlInit := rfl
theorem wrHigh : Statement .wrHigh := rfl
theorem wrLow : Statement .wrLow := rfl
theorem dwell : Statement .dwell := rfl

end Sys2Proof.Laws.FormatOfEncoding
end

