-- ==== Sys2Proof/Laws/Receiver.lean ====
section
/-! SUPPORT. Reading a conformant line (46_line_and_receiver.md R213 to R215), and the intervals of a line whose ticks are all
equal (R212). -/

namespace Sys2Proof.Machine

theorem readPulse_inBand {x : Bool} {h t : Duration} (h1 : inHighBand x h = true)
    (h2 : inLowBand x t = true ∨ isResetLow t = true) : readPulse h t = .data x := by
  cases x
  · have : (inLowBand false t || isResetLow t) = true := by simpa using h2
    simp [readPulse, h1, this]
  · have hn : inHighBand false h = false := by
      simp [inHighBand, T1H_MIN, T1H_MAX, T0H_MIN, T0H_MAX] at h1 ⊢
      intro _
      linarith [h1.1]
    have : (inLowBand true t || isResetLow t) = true := by simpa using h2
    simp [readPulse, hn, h1, this]

theorem inLowBand_notReset {x : Bool} {t : Duration} (h : inLowBand x t = true) : isResetLow t = false := by
  cases x <;> simp [inLowBand, isResetLow, T1L_MIN, T1L_MAX, T0L_MIN, T0L_MAX, TRST_MIN] at h ⊢ <;> linarith [h.2]

/-- A conformant row of pulses reads as its bits and then a reset. -/
theorem readLine_conforming : ∀ (bits : List Bool) (l : List Interval), pulsesConform bits l = true →
    readLine l = bits.map .data ++ [.latch]
  | [], l, h => by simp [pulsesConform] at h
  | [x], [(true, hh), (false, t)], h => by
    simp only [pulsesConform, Bool.and_eq_true] at h
    simp [readLine, readPulse_inBand h.1 (.inr h.2), readLow, h.2]
  | x :: xs, (true, hh) :: (false, t) :: rest, h => by
    cases xs with
    | nil =>
      cases rest with
      | nil =>
        simp only [pulsesConform, Bool.and_eq_true] at h
        simp [readLine, readPulse_inBand h.1 (.inr h.2), readLow, h.2]
      | cons a l => simp [pulsesConform] at h
    | cons y ys =>
      simp only [pulsesConform, Bool.and_eq_true] at h
      simp [readLine, readPulse_inBand h.1.1 (.inl h.1.2), readLow, inLowBand_notReset h.1.2,
        readLine_conforming (y :: ys) rest h.2]
  | x :: xs, [], h => by cases xs <;> simp [pulsesConform] at h
  | x :: xs, [(_, _)], h => by cases xs <;> simp [pulsesConform] at h
  | x :: xs, (false, _) :: _ :: _, h => by cases xs <;> simp [pulsesConform] at h
  | x :: xs, (true, _) :: (true, _) :: _, h => by cases xs <;> simp [pulsesConform] at h

theorem latchedBursts_data (acc : List Symbol) (bits : List Bool) :
    latchedBursts acc (bits.map .data ++ [.latch]) = [acc.reverse ++ bits.map .data] := by
  induction bits generalizing acc with
  | nil => simp [latchedBursts]
  | cons x l ih => simp [latchedBursts, ih]

theorem burstBits_data (bits : List Bool) : burstBits (bits.map .data) = some bits := by
  induction bits with
  | nil => rfl
  | cons x l ih => simp [burstBits, ih]

theorem byteOfBits_bitsOfByte (v : Byte) : byteOfBits (bitsOfByte v) = v := by
  revert v
  decide

/-- The bits of a request are the bits of the LEDs before the target, all 0, and then green, red, blue. -/
theorem wireBits_eq (p : Nat) (r g b : Byte) :
    wireBits p r g b = List.replicate (24 * (p - 1)) false ++ (bitsOfByte g ++ bitsOfByte r ++ bitsOfByte b) := by
  have hz : ∀ n, ((List.replicate n (0 : Byte)).flatMap bitsOfByte) = List.replicate (8 * n) false := by
    intro n
    induction n with
    | zero => rfl
    | succ n ih =>
      have h8 : bitsOfByte 0 = List.replicate 8 false := by decide
      rw [List.replicate_succ, List.flatMap_cons, ih, h8, ← List.replicate_add]
      congr 1
      ring
  simp only [wireBits, wireBytes, List.flatMap_append, hz]
  simp only [List.flatMap_cons, List.flatMap_nil, List.append_nil, List.append_assoc]
  congr 2
  ring

theorem consTick_head (l : Bool) (t : Duration) (z : List Interval) : ∃ t' z', consTick l t z = (l, t') :: z' := by
  cases z with
  | nil => exact ⟨_, _, rfl⟩
  | cons q z =>
    obtain ⟨q1, q2⟩ := q
    by_cases h : l = q1
    · exact ⟨t + q2, z, by simp [consTick, h]⟩
    · exact ⟨t, (q1, q2) :: z, by simp [consTick, h]⟩

/-- A run of one level, when every tick lasts `T`. -/
theorem intervals_run (T : Duration) (i n : Nat) (l : Bool) (ls : List Bool) (hn : 1 ≤ n) (hl : ∀ x ∈ ls.head?, x ≠ l) :
    intervals (fun _ => T) i (List.replicate n l ++ ls) = (l, n * T) :: intervals (fun _ => T) (i + n) ls := by
  induction n generalizing i with
  | zero => omega
  | succ n ih =>
    rw [List.replicate_succ, List.cons_append, intervals]
    by_cases h : n = 0
    · subst h
      simp only [List.replicate_zero, List.nil_append]
      cases ls with
      | nil => simp [intervals, consTick]
      | cons y ys =>
        have hy : ¬ l = y := fun e => hl y rfl e.symm
        obtain ⟨t, rest, e⟩ := consTick_head y ((fun _ => T) (i + 1)) (intervals (fun _ => T) (i + 1 + 1) ys)
        rw [intervals, e]
        simp [consTick, hy]
    · rw [ih (i + 1) (by omega)]
      have : i + 1 + n = i + (n + 1) := by omega
      simp [consTick, this]
      ring

end Sys2Proof.Machine
end

