-- ==== Sys2Proof/Laws/Rows.lean ====
section
/-! SUPPORT. What rows of micro-operations leave alone, that every micro-operation completes on a bound pin, and how the counts
of acquisitions and releases move (44_pin_lifecycle.md R169). -/

namespace Sys2Proof.Machine

/-- The word TEMP holds after a micro-program: the level word with the pin's write-enable bit set and its data bit cleared
(45_host_operations.md R185). -/
theorem clearPin_enablePin (w : Word) (n : Fin 16) :
    clearPin (enablePin w n) n = (w ||| BitVec.twoPow 32 (n + 16)) &&& ~~~(BitVec.twoPow 32 n) := by
  apply eq_of_bits
  intro k hk
  rw [clearPin_bit _ _ hk, enablePin_bit _ _ hk]
  by_cases h : k = n.val
  · subst h
    simp [hk]
  · have e : (k == n.val) = false := by simpa using h
    simp [hk, h, e]
    cases w[k]
    · exact Bool.eq_iff_iff.mpr (by rw [Bool.false_or, Bool.false_or, beq_iff_eq, decide_eq_true_eq])
    · rfl

/-- Noting a phase changes the record and nothing else. -/
theorem noteMark_fields (x : Slot) (s : State) :
    (noteMark x s).mem = s.mem ∧ (noteMark x s).temp = s.temp ∧ (noteMark x s).now = s.now ∧ (noteMark x s).dtmp = s.dtmp ∧
      (noteMark x s).traceRev = s.traceRev := by
  unfold noteMark
  split <;> exact ⟨rfl, rfl, rfl, rfl, rfl⟩

/-- What no timed micro-operation changes. -/
structure TimedFrame (s t : State) : Prop extends MicroFrame s t where
  dtmp : t.dtmp = s.dtmp
  upperDraws : t.upperDraws = s.upperDraws
  drawCount : t.drawCount = s.drawCount

theorem TimedFrame.refl (s : State) : TimedFrame s s := ⟨MicroFrame.rfl' s, rfl, rfl, rfl⟩

theorem TimedFrame.trans {s t u : State} (h : TimedFrame s t) (k : TimedFrame t u) : TimedFrame s u :=
  ⟨h.toMicroFrame.trans k.toMicroFrame, k.dtmp.trans h.dtmp, k.upperDraws.trans h.upperDraws, k.drawCount.trans h.drawCount⟩

theorem noteMark_timedFrame (x : Slot) (s : State) : TimedFrame s (noteMark x s) := by
  refine ⟨noteMark_frame x s, ?_, ?_, ?_⟩ <;> (unfold noteMark; split <;> rfl)

theorem runMicro_timedFrame {op : MicroOp} (ho : isTimed op = true) {s t : State} (h : runMicro op s = .next t) :
    TimedFrame s t := by
  refine ⟨runMicro_frame h, ?_, ?_, ?_⟩ <;>
  · rcases runMicro_cases h with ⟨-, rfl⟩ | ⟨b, -, h'⟩
    · rfl
    · rcases h' with ⟨h', -, -⟩ | ⟨h', -, -⟩ | ⟨h', -, -⟩ | ⟨h', -, -⟩ | ⟨w, -, ⟨-, rfl⟩ | ⟨-, -, rfl⟩⟩
      · rw [h'] at ho; cases ho
      · rw [h'] at ho; cases ho
      · rw [h'] at ho; cases ho
      · rw [h'] at ho; cases ho
      · rfl
      · rfl

theorem runSlots_timedFrame {l : List Slot} (hl : ∀ x ∈ l, isTimed x.op = true) {s t : State} (h : runSlots l s = .next t) :
    TimedFrame s t :=
  runList_keeps (P := fun u => TimedFrame s u)
    (fun x hx _ _ hu h => hu.trans ((noteMark_timedFrame x _).trans (runMicro_timedFrame (hl x hx) h))) (TimedFrame.refl s) h

/-- Every micro-operation keeps the canonical form of memory. -/
theorem runMicro_wf {op : MicroOp} {s t : State} (h : runMicro op s = .next t) (hm : Memory.wf s.mem) : Memory.wf t.mem := by
  rcases runMicro_cases h with ⟨-, rfl⟩ | ⟨b, -, h⟩
  · exact hm
  · rcases h with ⟨-, -, rfl⟩ | ⟨-, -, rfl⟩ | ⟨-, -, rfl⟩ | ⟨-, -, rfl⟩ | ⟨w, -, ⟨-, rfl⟩ | ⟨-, -, rfl⟩⟩
    · rw [drawUpper_state]; exact hm
    · exact Memory.wf_storeData hm _ _
    · rw [drawUpper_state]; exact hm
    · exact Memory.wf_storeData hm _ _
    · exact hm
    · exact Memory.wf_storeData hm _ _

theorem runSlots_wf {l : List Slot} {s t : State} (h : runSlots l s = .next t) (hm : Memory.wf s.mem) : Memory.wf t.mem :=
  runList_keeps (P := fun u => Memory.wf u.mem)
    (fun x _ u _ hu h => runMicro_wf h (by rw [(noteMark_fields x u).1]; exact hu)) hm h

/-! ## The shadow (10_state.md R34 (d)) -/

/-- A word just read agrees with the register it was read from (44_pin_lifecycle.md R165). -/
theorem ShadowAgrees.of_read {t : State} {b : Binding} (h : dataHalf t.temp = regData t.mem b.lvl) : ShadowAgrees t b := by
  intro n hn _ _
  rw [← h]
  simp [dataHalf, hn]

/-- Writing the shadow with at most the pin's two bits changed leaves every other pin's level as it was, and the shadow agrees
with the register as before. -/
theorem ShadowAgrees.store {s t : State} {b : Binding} (h : ShadowAgrees s b)
    (hw : ∀ n < 32, n ≠ b.off.val → n ≠ b.off.val + 16 → t.temp.getLsbD n = s.temp.getLsbD n)
    (hm : MaskedStore b.lvl t.temp s.mem t.mem) : ShadowAgrees t b ∧ SameBitsBut b.off b.lvl s.mem t.mem := by
  have agree : ∀ n < 16, n ≠ b.off.val → t.temp.getLsbD (n + 16) = true →
      t.temp.getLsbD n = (regData s.mem b.lvl).getLsbD n := by
    intro n hn hne hb
    rw [hw n (by omega) hne (by omega)]
    exact h n hn hne (by rw [← hw (n + 16) (by omega) (by omega) (by omega)]; exact hb)
  have same : SameBitsBut b.off b.lvl s.mem t.mem := by
    intro n hn hne
    rw [hm.1 n hn, Nat.add_comm]
    split
    · exact agree n hn hne ‹_›
    · rfl
  exact ⟨fun n hn hne hb => (agree n hn hne hb).trans (same n hn hne).symm, same⟩

/-- RD_LVL makes the shadow agree with the level register. -/
theorem execRdLvl_shadow {s t : State} {b : Binding} (hb : s.binding = some b) (h : runMicro .rdLvl s = .next t) :
    ShadowAgrees t b := by
  obtain ⟨b', hb', h⟩ := withBinding_eq_next h
  rw [hb] at hb'
  cases hb'
  obtain ⟨r, hr, h⟩ := andThen_eq_next.mp h
  obtain ⟨-, rfl⟩ := memRead_eq_next hr
  cases h
  apply ShadowAgrees.of_read
  simp only [State.setTemp_temp, State.setTemp_mem, State.emit_mem, dataHalf_readWord]
  show regData s.mem b.lvl = regData (drawUpper b.lvl s).2.mem b.lvl
  rw [drawUpper_state]

/-- The other micro-operations from WR_LVL_INIT on keep the shadow in agreement and every other pin's level. -/
theorem runMicro_shadow {op : MicroOp} {s t : State} {b : Binding} (ho : op = .wrLvlInit ∨ isTimed op = true)
    (hb : s.binding = some b) (hs : ShadowAgrees s b) (h : runMicro op s = .next t) :
    ShadowAgrees t b ∧ SameBitsBut b.off b.lvl s.mem t.mem := by
  rcases runMicro_cases h with ⟨-, rfl⟩ | ⟨b', hb', h'⟩
  · exact ⟨hs, fun _ _ _ => rfl⟩
  · rw [hb] at hb'
    cases hb'
    rcases h' with ⟨rfl, -, -⟩ | ⟨rfl, -, -⟩ | ⟨rfl, -, -⟩ | ⟨rfl, -, rfl⟩ | ⟨w, hw, h'⟩
    · rcases ho with ho | ho <;> cases ho
    · rcases ho with ho | ho <;> cases ho
    · rcases ho with ho | ho <;> cases ho
    · refine hs.store (fun n hn h1 h2 => ?_) (maskedStore_storeData _ _ _)
      have e1 : (n == b.off.val) = false := by simpa using h1
      have e2 : (n == b.off.val + 16) = false := by simpa using h2
      simp [enablePin_bit _ _ hn, e1, e2]
    · have hw' : ∀ n < 32, n ≠ b.off.val → w.getLsbD n = s.temp.getLsbD n := by
        intro n hn h1
        rcases hw with ⟨-, rfl⟩ | ⟨-, rfl⟩
        · rw [setPin_bit _ _ hn, if_neg h1]
        · rw [clearPin_bit _ _ hn, if_neg h1]
      rcases h' with ⟨-, rfl⟩ | ⟨-, -, rfl⟩
      · refine ⟨fun n hn h1 h2 => ?_, fun _ _ _ => rfl⟩
        have h2 : w.getLsbD (n + 16) = true := h2
        rw [hw' _ (by omega) (by omega)] at h2
        exact (hw' n (by omega) h1).trans (hs n hn h1 h2)
      · exact hs.store (fun n hn h1 _ => hw' n hn h1) (maskedStore_storeData _ _ _)

/-- Every micro-operation completes on a bound pin, in the test mode and outside it. -/
theorem runMicro_completes {s : State} {b : Binding} (hb : s.binding = some b) (hok : BindingOk s.cfg b) (op : MicroOp) :
    ∃ t, runMicro op s = .next t := by
  have hd := hok.dir_isRegister
  have hl := hok.lvl_isRegister
  have pulse : ∀ w, ∃ t, pulseWrite b w s = .next t := by
    intro w
    by_cases ht : s.testing = true
    · exact ⟨_, pulseWrite_testing ht⟩
    · exact ⟨_, pulseWrite_next hl (by simpa using ht)⟩
  cases op with
  | rdDir => exact ⟨_, execRdDir_next hb hd⟩
  | wrDir => exact ⟨_, execWrDir_next hb hd⟩
  | rdLvl => exact ⟨_, execRdLvl_next hb hl⟩
  | wrLvlInit => exact ⟨_, execWrLvlInit_next hb hl⟩
  | wrHigh =>
    obtain ⟨t, h⟩ := pulse (setPin s.temp b.off)
    exact ⟨t, (withBinding_some hb _).trans h⟩
  | wrLow =>
    obtain ⟨t, h⟩ := pulse (clearPin s.temp b.off)
    exact ⟨t, (withBinding_some hb _).trans h⟩
  | dwell => exact ⟨_, rfl⟩

theorem EngineInv.setInbox {s : State} (h : EngineInv s) (l : List Submission) : EngineInv (s.setInbox l) :=
  ⟨h.cfgOk, h.memOk, h.heldOk, h.bindingOk, h.busyOk, h.maskOk, h.shadowOk, h.nowOk⟩

/-- The invariant of an idle engine. -/
theorem EngineInv.of_idle {t : State} (hc : t.cfg.wf) (hm : Memory.wf t.mem) (hh : t.held = heldOf t.binding)
    (hbind : ∀ b, t.binding = some b → BindingOk t.cfg b) (hb : t.busy = false)
    (hmask : ∀ b, t.binding = some b → t.temp.getLsbD (b.off + MASK_SHIFT) = true) : EngineInv t :=
  ⟨hc, hm, hh, hbind, fun h => (by rw [hb] at h; cases h), fun b h _ => hmask b h,
    fun h => (by rw [hb] at h; cases h), fun h => (by rw [hb] at h; cases h)⟩

/-! ## Acquisitions and releases -/

theorem heldBalance_iff (s : State) : HeldBalance s ↔ ∀ a,
    (a ∈ s.held → s.traceRev.count (.acq a true) = s.traceRev.count (.rel a) + 1) ∧
    (a ∉ s.held → s.traceRev.count (.acq a true) = s.traceRev.count (.rel a)) := by
  constructor
  · intro h a
    have := h a
    simp only [acquiredCount, releasedCount] at this
    constructor
    · intro ha
      rw [if_pos ha] at this
      exact this
    · intro ha
      rw [if_neg ha] at this
      exact this
  · intro h a
    have := h a
    simp only [acquiredCount, releasedCount]
    by_cases ha : a ∈ s.held
    · rw [if_pos ha]
      exact this.1 ha
    · rw [if_neg ha]
      exact this.2 ha

/-- Events that acquire and release nothing keep the balance. -/
theorem HeldBalance.extend {s t : State} (h : HeldBalance s) (hh : t.held = s.held) (l : List Event)
    (e : t.traceRev = l ++ s.traceRev) (hl : ∀ a, l.count (.acq a true) = 0 ∧ l.count (.rel a) = 0) : HeldBalance t := by
  rw [heldBalance_iff] at h ⊢
  intro a
  have h1 := h a
  have h2 := hl a
  rw [e, hh, List.count_append, List.count_append, h2.1, h2.2]
  simpa using h1

/-- Releasing the binding makes the counts equal. -/
theorem HeldBalance.release {s : State} (hs : Releasable s) (h : HeldBalance s) (a : Nat) :
    ((releaseEvents s.binding).reverse ++ s.traceRev).count (.acq a true) =
      ((releaseEvents s.binding).reverse ++ s.traceRev).count (.rel a) := by
  have h1 := (heldBalance_iff s).mp h a
  rw [hs.1] at h1
  cases hb : s.binding with
  | none =>
    rw [hb] at h1
    simpa [releaseEvents, heldOf] using h1
  | some b =>
    have hd := hs.2 b hb
    rw [hb] at h1
    simp only [heldOf, List.mem_cons, List.not_mem_nil, or_false] at h1
    simp only [releaseEvents, List.reverse_cons, List.reverse_nil, List.nil_append, List.cons_append, List.count_cons]
    by_cases g1 : a = b.lvl
    · subst g1
      have := h1.1 (.inl rfl)
      have hd' : ¬ b.dir = b.lvl := hd
      simp [hd']
      omega
    · by_cases g2 : a = b.dir
      · subst g2
        have := h1.1 (.inr rfl)
        have hd' : ¬ b.lvl = b.dir := fun e => hd e.symm
        simp [hd']
        omega
      · have := h1.2 (by tauto)
        have g1' : ¬ b.lvl = a := fun e => g1 e.symm
        have g2' : ¬ b.dir = a := fun e => g2 e.symm
        simp [g1', g2']
        omega

end Sys2Proof.Machine
end

