-- ==== Sys2Proof/Laws/Unwritten.lean ====
section
/-! SUPPORT. No rule reads the latch, TEMP, DTMP or UPC before it is written (10_state.md R36): two engines that differ in
them only while they hold no value stay alike, step by step. -/

namespace Sys2Proof.Machine

/-- A state with other values in the registers that hold none in an idle engine. -/
def dead (l : Request) (te dt : Word) (u : Nat) (s : State) : State := { s with latch := l, temp := te, dtmp := dt, upc := u }

/-- The same of a flow. -/
def deadF (l : Request) (te dt : Word) (u : Nat) : Flow → Flow
  | .going s => .going (dead l te dt u s)
  | .raised s => .raised (dead l te dt u s)

theorem same_dead {s t : State} : SameButDead s t ↔ dead t.latch t.temp t.dtmp t.upc s = t := Iff.rfl

theorem acquire_dead (l te dt u) (a : Nat) (s : State) :
    acquire a (dead l te dt u s) = ((acquire a s).1, dead l te dt u (acquire a s).2) := by
  rcases s with ⟨_, _, _, _, _, _, _, _, _, _, _, _, _, _, _, _, ad, _, _⟩
  cases ad with
  | nil =>
    rename_i dc
    by_cases h : Config.freeAcq dc a = true <;>
      simp [acquire, drawAcq, dead, h, State.setDrawCount, State.emit, State.setHeld]
  | cons x r => cases x <;> rfl

theorem releaseAddr_dead (l te dt u) (a : Nat) (s : State) :
    releaseAddr a (dead l te dt u s) = andThen (releaseAddr a s) fun t => .next (dead l te dt u t) := by
  unfold releaseAddr
  by_cases h : a ∈ s.held
  · have h' : a ∈ (dead l te dt u s).held := h
    rw [if_pos h, if_pos h']; rfl
  · have h' : ¬ a ∈ (dead l te dt u s).held := h
    rw [if_neg h, if_neg h']; rfl

theorem releaseBinding_dead (l te dt u) (s : State) :
    releaseBinding (dead l te dt u s) = andThen (releaseBinding s) fun t => .next (dead l te dt u t) := by
  have hb : (dead l te dt u s).binding = s.binding := rfl
  unfold releaseBinding
  rw [hb]
  cases s.binding with
  | none => rfl
  | some b =>
    simp only [releaseAddr_dead, andThen_assoc]
    congr 1; funext t
    simp only [andThen_next, releaseAddr_dead, andThen_assoc]
    rfl

theorem acquirePair_dead (l te dt u) (b : Binding) (s : State) :
    acquirePair b (dead l te dt u s) = andThen (acquirePair b s) fun f => .next (deadF l te dt u f) := by
  simp only [acquirePair, acquire_dead]
  split
  · split
    · rfl
    · simp only [releaseAddr_dead, andThen_assoc]; rfl
  · rfl

theorem mapPin_dead (l te dt u) (bank pin : Word) (s : State) :
    mapPin bank pin (dead l te dt u s) = andThen (mapPin bank pin s) fun f => .next (deadF l te dt u f) := by
  have hc : (dead l te dt u s).cfg = s.cfg := rfl
  simp only [mapPin, withResolved, hc]
  split
  · rfl
  · rfl
  · rw [releaseBinding_dead, andThen_assoc, andThen_assoc]
    congr 1; funext t
    exact acquirePair_dead _ _ _ _ _ _

/-- Alike but for what has not been written yet: the relation every step keeps. -/
def Sim (s t : State) : Prop :=
  SameButDead s t ∧ (s.busy = true →
    s.latch = t.latch ∧ s.upc = t.upc ∧ (1 ≤ s.upc → s.dtmp = t.dtmp) ∧ (3 ≤ s.upc → s.temp = t.temp))

theorem alike_refl {r : State → State → Prop} (hr : ∀ s, r s s) (o : Out State) : AlikeBy r o o := by
  cases o
  · exact hr _
  · rfl
  · rfl

theorem alike_andThen {r q : State → State → Prop} {o o' : Out State} {f g : State → Out State}
    (h : AlikeBy r o o') (hf : ∀ s t, r s t → AlikeBy q (f s) (g t)) : AlikeBy q (andThen o f) (andThen o' g) := by
  cases o <;> cases o' <;> first | exact hf _ _ h | exact h | cases h

theorem alike_mono {r q : State → State → Prop} {o o' : Out State} (h : AlikeBy r o o') (hf : ∀ s t, r s t → q s t) :
    AlikeBy q o o' := by
  cases o <;> cases o' <;> first | exact hf _ _ h | exact h

theorem alike_and {r : State → State → Prop} {P : State → Prop} {o o' : Out State} (h : AlikeBy r o o')
    (hP : ∀ a, o = .next a → P a) : AlikeBy (fun a b => r a b ∧ P a) o o' := by
  cases o <;> cases o' <;> first | exact ⟨h, hP _ rfl⟩ | exact h

theorem same_busy {s t : State} (h : SameButDead s t) : t.busy = s.busy := by rw [← h]
theorem same_cfg {s t : State} (h : SameButDead s t) : t.cfg = s.cfg := by rw [← h]

theorem sim_idle {s t : State} (h : SameButDead s t) (hb : s.busy = false) :
    Sim s t := ⟨h, fun h' => by rw [hb] at h'; cases h'⟩

theorem micro_sim {op : MicroOp} {s t : State} (h : SameButDead s t) (hl : s.latch = t.latch) (hu : s.upc = t.upc)
    (hd : op ≠ .rdDir → s.dtmp = t.dtmp) (ht : op ≠ .rdDir → op ≠ .wrDir → op ≠ .rdLvl → s.temp = t.temp) :
    AlikeBy (fun a b => SameButDead a b ∧ a.latch = b.latch ∧ a.upc = b.upc ∧ a.dtmp = b.dtmp ∧
      (op ≠ .rdDir → op ≠ .wrDir → a.temp = b.temp)) (runMicro op s) (runMicro op t) := by
  rcases s with ⟨l, b, te, dt, bu, up, st, ca, he, me, tr, no, tm, rr, cf, ib, ad, ud, dc⟩
  rcases t with ⟨l', b', te', dt', bu', up', st', ca', he', me', tr', no', tm', rr', cf', ib', ad', ud', dc'⟩
  simp only [SameButDead, State.mk.injEq, true_and] at h
  obtain ⟨rfl, rfl, rfl, rfl, rfl, rfl, rfl, rfl, rfl, rfl, rfl, rfl, rfl, rfl, rfl⟩ := h
  simp only at hl hu hd ht
  subst hl hu
  cases op with
  | rdDir =>
    cases b with
    | none => exact rfl
    | some b =>
      by_cases hr : isRegister cf b.dir = true
      · cases ud <;> simp [runMicro, execRdDir, withBinding, memRead, hr, readWord, drawUpper, andThen,
          State.setDtmp, State.emit, State.setDrawCount, State.setUpperDraws, AlikeBy, SameButDead]
      · simp [runMicro, execRdDir, withBinding, memRead, hr, andThen, AlikeBy]
  | wrDir =>
    have hd := hd (by simp); subst hd
    cases b with
    | none => exact rfl
    | some b =>
      by_cases hr : isRegister cf b.dir = true <;>
       simp [runMicro, execWrDir, withBinding, memWrite, hr, State.setDtmp, State.emit, State.setMem, AlikeBy, SameButDead]
  | rdLvl =>
    have hd := hd (by simp); subst hd
    cases b with
    | none => exact rfl
    | some b =>
      by_cases hr : isRegister cf b.lvl = true
      · cases ud <;> simp [runMicro, execRdLvl, withBinding, memRead, hr, readWord, drawUpper, andThen,
          State.setTemp, State.emit, State.setDrawCount, State.setUpperDraws, AlikeBy, SameButDead]
      · simp [runMicro, execRdLvl, withBinding, memRead, hr, andThen, AlikeBy]
  | wrLvlInit =>
    have hd := hd (by simp); subst hd
    have ht := ht (by simp) (by simp) (by simp); subst ht
    exact alike_refl (fun s => ⟨rfl, rfl, rfl, rfl, fun _ _ => rfl⟩) _
  | wrHigh =>
    have hd := hd (by simp); subst hd
    have ht := ht (by simp) (by simp) (by simp); subst ht
    exact alike_refl (fun s => ⟨rfl, rfl, rfl, rfl, fun _ _ => rfl⟩) _
  | wrLow =>
    have hd := hd (by simp); subst hd
    have ht := ht (by simp) (by simp) (by simp); subst ht
    exact alike_refl (fun s => ⟨rfl, rfl, rfl, rfl, fun _ _ => rfl⟩) _
  | dwell =>
    have hd := hd (by simp); subst hd
    have ht := ht (by simp) (by simp) (by simp); subst ht
    exact alike_refl (fun s => ⟨rfl, rfl, rfl, rfl, fun _ _ => rfl⟩) _

theorem same_note {s t : State} (h : SameButDead s t) (x : Slot) :
    SameButDead (noteMark x s) (noteMark x t) ∧ (noteMark x s).latch = s.latch ∧ (noteMark x t).latch = t.latch ∧
  (noteMark x s).upc = s.upc ∧ (noteMark x t).upc = t.upc ∧ (noteMark x s).dtmp = s.dtmp ∧
    (noteMark x t).dtmp = t.dtmp ∧ (noteMark x s).temp = s.temp ∧ (noteMark x t).temp = t.temp := by
  have ht : t.testing = s.testing := by rw [← h]; rfl
  unfold noteMark
  rw [ht]
  rcases s.testing with _ | _ <;> rcases x.mark with _ | _
  all_goals refine ⟨?_, rfl, rfl, rfl, rfl, rfl, rfl, rfl, rfl⟩
  all_goals try exact h
  rcases s with ⟨l, b, te, dt, bu, up, st, ca, he, me, tr, no, tm, rr, cf, ib, ad, ud, dc⟩
  rcases t with ⟨l', b', te', dt', bu', up', st', ca', he', me', tr', no', tm', rr', cf', ib', ad', ud', dc'⟩
  simp only [SameButDead, State.mk.injEq, true_and] at h
  obtain ⟨rfl, rfl, rfl, rfl, rfl, rfl, rfl, rfl, rfl, rfl, rfl, rfl, rfl, rfl, rfl⟩ := h
  rfl

theorem flow_alike {o : Out Flow} (l te dt u) {P : State → Prop} (hP : ∀ f, o = .next f → P f.state) :
  AlikeBy (fun a b => b = dead l te dt u a ∧ P a) (settle o) (settle (andThen o fun f => .next (deadF l te dt u f))) := by
  rcases o with (f | f) | _ | _
  · exact ⟨rfl, hP _ rfl⟩
  · exact ⟨rfl, hP _ rfl⟩
  · rfl
  · rfl

theorem write_sim (blk : List Byte) {s t : State} (h : SameButDead s t) :
    AlikeBy Sim (execWrite blk s) (execWrite blk t) := by
  have hbt := same_busy h
  unfold execWrite whenIdle
  rw [hbt]
  split
  · rfl
  · rename_i hb
    unfold acceptWrite
    have e : t = dead t.latch t.temp t.dtmp t.upc s := h.symm
    generalize t.latch = l at e
    generalize t.temp = te at e
    generalize t.dtmp = dt at e
    generalize t.upc = u at e
    subst e
    cases requestOfBlock blk with
    | none => exact sim_idle rfl rfl
    | some q =>
      simp only [validate]
      have ec : ((dead l te dt u s).setBusy true).cfg = (s.setBusy true).cfg := rfl
      rw [ec]
      split
      · exact sim_idle rfl rfl
      · split
        · exact sim_idle rfl rfl
        · split
          · exact sim_idle rfl rfl
          · simp only [thenGo_going]
            have e1 : State.setLatch (State.setBusy (dead l te dt u s) true) q =
                dead q te dt u (State.setLatch (s.setBusy true) q) := rfl
            rw [e1]
            generalize hs1 : State.setLatch (s.setBusy true) q = s1
            have hq : s1.latch = q := by rw [← hs1]; rfl
            simp only [enterCore]
            have e2 : (dead q te dt u s1).latch = q := rfl
            rw [e2, hq, mapPin_dead]
            generalize ho : mapPin q.bank q.pin s1 = o
            rcases o with (f | f) | _ | _
            · have hf := (mapPin_frame ho).1
              simp only [Flow.state] at hf
              have hl : f.latch = q := hf.latch.trans hq
              simp only [andThen_next, deadF, thenGo_going]
              have e3 : (dead q te dt u f).latch = q := rfl
              rw [e3, hl]
              split
              · rfl
              · refine ⟨?_, fun _ => ⟨hl, rfl, fun h => (by cases h), fun h => (by cases h)⟩⟩
                show SameButDead ((f.setUpc 0).setNow 0) (((dead q te dt u f).setUpc 0).setNow 0)
                rfl
            · simp only [andThen_next, deadF, thenGo_raised]
              exact sim_idle rfl (mapPin_raised ho)
            · rfl
            · rfl

theorem step_sim {s t : State} (h : Sim s t) : AlikeBy Sim (step s) (step t) := by
  obtain ⟨h, hbusy⟩ := h
  have hbt := same_busy h
  unfold step
  rw [hbt]
  split
  · rename_i hb
    obtain ⟨hl, hu, hd, ht⟩ := hbusy hb
    unfold sequencerStep
    rw [← hl, ← hu, same_cfg h]
    split
    · rfl
    · cases hx : (mprog s.cfg s.latch)[s.upc]? with
      | none =>
        refine sim_idle ?_ rfl
        rcases s with ⟨l, b, te, dt, bu, up, st, ca, he, me, tr, no, tm, rr, cf, ib, ad, ud, dc⟩
        rcases t with ⟨l', b', te', dt', bu', up', st', ca', he', me', tr', no', tm', rr', cf', ib', ad', ud', dc'⟩
        simp only [SameButDead, State.mk.injEq, true_and] at h
        obtain ⟨rfl, rfl, rfl, rfl, rfl, rfl, rfl, rfl, rfl, rfl, rfl, rfl, rfl, rfl, rfl⟩ := h
        rfl
      | some x =>
        simp only [exec_toInstr]
        obtain ⟨n0, n1, n2, n3, n4, n5, n6, n7, n8⟩ := same_note h x
        have hget := mprog_get hx
        have hop : (x.op ≠ .rdDir → 1 ≤ s.upc) ∧
            (x.op ≠ .rdDir → x.op ≠ .wrDir → x.op ≠ .rdLvl → 3 ≤ s.upc) ∧ (3 ≤ s.upc + 1 → x.op ≠ .rdDir ∧ x.op ≠ .wrDir) := by
          rcases hget with ⟨h, ho⟩ | ⟨h, ho⟩ | ⟨h, ho⟩ | ⟨h, ho⟩ | ⟨h, ho⟩
          · rw [ho, h]; simp
          · rw [ho, h]; simp
          · rw [ho, h]; simp
          · rw [ho, h]; simp
          · refine ⟨fun _ => by omega, fun _ _ _ => by omega, fun _ => ⟨fun h => ?_, fun h => ?_⟩⟩ <;>
              (rw [h] at ho; cases ho)
        refine alike_andThen (alike_and (P := fun a => a.upc = s.upc) (micro_sim (op := x.op) n0
          (by rw [n1, n2, hl]) (by rw [n3, n4, hu]) (fun h => by rw [n5, n6]; exact hd (hop.1 h))
          (fun a b c => by rw [n7, n8]; exact ht (hop.2.1 a b c)))
          fun a ha => by rw [(runMicro_frame ha).upc, n3]) ?_
        rintro a c ⟨⟨r1, r2, r3, r4, r5⟩, hup⟩
        refine ⟨?_, fun _ => ⟨r2, congrArg (· + 1) r3, fun _ => r4, fun h3 => ?_⟩⟩
        · rcases a with ⟨l, b, te, dt, bu, up, st, ca, he, me, tr, no, tm, rr, cf, ib, ad, ud, dc⟩
          rcases c with ⟨l', b', te', dt', bu', up', st', ca', he', me', tr', no', tm', rr', cf', ib', ad', ud', dc'⟩
          simp only [SameButDead, State.mk.injEq, true_and] at r1
          obtain ⟨rfl, rfl, rfl, rfl, rfl, rfl, rfl, rfl, rfl, rfl, rfl, rfl, rfl, rfl, rfl⟩ := r1
          rfl
        · have h3 : 3 ≤ a.upc + 1 := h3
          rw [hup] at h3
          exact r5 (hop.2.2 h3).1 (hop.2.2 h3).2
  · rename_i hb
    have hb' : s.busy = false := by simpa using hb
    have hib : t.inbox = s.inbox := by rw [← h]
    unfold idleStep
    rw [hib]
    cases s.inbox with
    | nil => exact sim_idle h hb'
    | cons c rest =>
      simp only
      have h' : SameButDead (s.setInbox rest) (t.setInbox rest) := by
        rcases s with ⟨l, b, te, dt, bu, up, st, ca, he, me, tr, no, tm, rr, cf, ib, ad, ud, dc⟩
        rcases t with ⟨l', b', te', dt', bu', up', st', ca', he', me', tr', no', tm', rr', cf', ib', ad', ud', dc'⟩
        simp only [SameButDead, State.mk.injEq, true_and] at h
        obtain ⟨rfl, rfl, rfl, rfl, rfl, rfl, rfl, rfl, rfl, rfl, rfl, rfl, rfl, rfl, rfl⟩ := h
        rfl
      have hbs : (s.setInbox rest).busy = false := hb'
      generalize s.setInbox rest = s1 at h' hbs
      generalize t.setInbox rest = t1 at h'
      obtain ⟨cmd, blk⟩ := c
      generalize hd : decode (.command ⟨cmd, blk⟩) = o
      rcases o with e | i
      · rfl
      · show AlikeBy Sim (exec i s1) (exec i t1)
        simp only [decode, decodeCommand] at hd
        split at hd
        · cases hd
          show AlikeBy Sim (execOpen s1) (execOpen t1)
          unfold execOpen whenIdle
          rw [same_busy h', hbs]
          have e : t1 = dead t1.latch t1.temp t1.dtmp t1.upc s1 := h'.symm
          rw [e]
          exact sim_idle rfl hbs
        · cases hd
          exact write_sim _ h'
        · cases hd
          show AlikeBy Sim (execClose s1) (execClose t1)
          unfold execClose whenIdle
          rw [same_busy h', hbs]
          have e : t1 = dead t1.latch t1.temp t1.dtmp t1.upc s1 := h'.symm
          rw [e, releaseBinding_dead]
          generalize ho : releaseBinding s1 = o
          rcases o with u | _ | _
          · exact sim_idle rfl ((releaseBinding_frame ho).busy.trans hbs)
          · rfl
          · rfl
        · cases hd
        · cases hd

theorem run_sim (k : Nat) {s t : State} (h : Sim s t) : AlikeBy Sim (run k s) (run k t) := by
  induction k generalizing s t with
  | zero => exact h
  | succ k ih =>
    rw [run_succ, run_succ]
    exact alike_andThen (step_sim h) fun a b hab => ih hab

end Sys2Proof.Machine
end

