-- ==== Sys2Proof/Tests/Slice0.lean ====
section
/-! SUPPORT. The model's own tests: ill-formed terms refused, words written out from the spec decoded, one step on small states with
the results of 95_test_vectors.md or worked by hand from the rules, and for each statement with premises a state that meets
them. -/

namespace Sys2Proof.Tests

open Sys2Proof.Machine

/-! ## Helpers -/

/-- The next state of an outcome. -/
def nextOf : Out State → Option State
  | .next s => some s
  | .fault _ => none
  | .refused _ => none

/-- The parameters of R8 with a reset pulse of two ticks, so that a micro-program is short. -/
def small : Config := { Config.illustration with nrst := 2 }

/-- Bank 3, pin 20 of EXAMPLE_MAP (95_test_vectors.md V-RES): direction 0xFE76000C, level 0xFE760004, bit 4. -/
def pinA : Binding := { dir := 0xFE76000C, lvl := 0xFE760004, off := 4 }

/-- The request of V-REQ-2. -/
def reqA : Request := { bank := 3, pin := 20, pos := 2, r := 0x12, g := 0x34, b := 0x56 }

/-- The block of V-REQ-2. -/
def blkA : List Byte := [0x03, 0, 0, 0, 0x14, 0, 0, 0, 0x02, 0, 0, 0, 0x12, 0x34, 0x56, 0x00]

/-- An idle engine over registers that read 0xA0E2 (direction) and 0x8021 (level), every acquisition granted, every upper half
0xBEEF. -/
def idle : State :=
  { State.reset with
    cfg := small
    mem := [(0xFE760004, 0x21), (0xFE760005, 0x80), (0xFE76000C, 0xE2), (0xFE76000D, 0xA0)]
    acqDraws := [true, true]
    upperDraws := [0xBEEF, 0xBEEF] }

/-- The same with the pin bound, TEMP holding the level word of a write just begun. -/
def bound : State :=
  { idle with binding := some pinA, held := heldOf (some pinA), temp := 0x00108031, dtmp := 0xBEEFA0E2, latch := reqA }

/-- The same with the test mode on. -/
def recording : State := { bound with testMode := true }

/-- A WRITE in its timed window. -/
def running : State := { bound with busy := true, upc := 4 }

/-! ## Ill-formed terms are refused -/

theorem test_acquire_unaligned_illFormed : (Instr.acquire 2).wellFormed = false := by decide
theorem test_acquire_aligned_wellFormed : (Instr.acquire 0xFE760004).wellFormed = true := by decide
theorem test_chain_zero_illFormed : (Instr.chain 0 1 2 3).wellFormed = false := by decide
theorem test_chain_one_wellFormed : (Instr.chain 1 1 2 3).wellFormed = true := by decide
theorem test_submission_three_illFormed : (Submission.mk 3 []).wellFormed = false := by decide
theorem test_open_with_block_illFormed : (Submission.mk 0 [0]).wellFormed = false := by decide
theorem test_close_with_block_illFormed : (Submission.mk 2 [0]).wellFormed = false := by decide

/-! ## Words written out -/

/-- R85: `cmd` 0, 1, 2 are the hooks; 3 is none. -/
theorem test_decode_open : decode (.command ⟨0b00, []⟩) = .ok .openCmd := by decide
theorem test_decode_write : decode (.command ⟨0b01, blkA⟩) = .ok (.writeCmd blkA) := by decide
theorem test_decode_close : decode (.command ⟨0b10, []⟩) = .ok .closeCmd := by decide
theorem test_decode_three : decode (.command ⟨0b11, []⟩) = .error .noSuchCommand := by decide
theorem test_decode_open_block : decode (.command ⟨0b00, [0]⟩) = .error .operandOnHook := by decide

/-- R87: a data bit selects the pulse. -/
theorem test_decode_pulses : decode (.pulse false) = .ok .bit0 ∧ decode (.pulse true) = .ok .bit1 := by decide

/-- 95_test_vectors.md V-REQ-2; and byte order at a value whose four bytes differ. -/
theorem test_request_block : requestOfBlock blkA = some reqA := by decide
theorem test_request_little_endian : le32 0x78 0x56 0x34 0x12 = 0x12345678 := by decide

/-- R84 (a), (c): fifteen and seventeen bytes have no fields; the pad byte is not read. -/
theorem test_request_size : requestOfBlock (blkA.take 15) = none ∧ requestOfBlock (blkA ++ [0]) = none := by decide
theorem test_request_pad : requestOfBlock (blkA.take 15 ++ [0xFF]) = some reqA := by decide
theorem test_encode_block : blockOfRequest reqA 0 = blkA := by decide

/-- Table words: `cmd` in bits 1:0, the block after it (log 11). -/
theorem test_tableWords : decodeTableWord 8 0 = some .openCmd ∧ decodeTableWord 8 2 = some .closeCmd ∧
    decodeTableWord 8 3 = none ∧ decodeTableWord 8 1 = some (.writeCmd (List.replicate 16 0)) ∧
    decodeTableWord 0 0 = none := by decide

/-! ## One instruction each -/

/-- 95_test_vectors.md V-RES: bank 3, pin 20 under EXAMPLE_MAP. -/
theorem test_resolve_pinA : resolve Config.illustration 3 20 = .found pinA := by decide
/-- V-RES, HALF_DIV = 15: pin 15 is in the high half at bit 15; pin 30 has no register. -/
theorem test_resolve_edges : resolve Config.illustration 0 15 = .found ⟨0xFDD6000C, 0xFDD60004, 15⟩ ∧
    resolve Config.illustration 0 14 = .found ⟨0xFDD60008, 0xFDD60000, 14⟩ ∧
    resolve Config.illustration 1 30 = .noRegister ∧ resolve Config.illustration 5 0 = .outOfRange := by decide

/-- R57 by hand: mask 0x0011, data 0x0010 over 0x8021 gives 0x8030. -/
theorem test_masked_write : maskedWrite 0x8021 0x00110010 = 0x8030 := by decide

/-- R164 by hand: DTMP is the draw over the register; then bits 4 and 20 are set. -/
theorem test_rdDir : (nextOf (exec .rdDir { bound with dtmp := 0 })).map (fun t => t.dtmp) = some 0xBEEFA0E2 := by decide
theorem test_wrDir : (nextOf (exec .wrDir bound)).map (fun t => (t.dtmp, regData t.mem 0xFE76000C)) =
    some (0xBEFFA0F2, 0xA0F2) := by decide

/-- R165 by hand: TEMP is the draw over the register; then bits 4 and 20 are set, and only masked bits reach the register. -/
theorem test_rdLvl : (nextOf (exec .rdLvl bound)).map (fun t => t.temp) = some 0xBEEF8021 := by decide
theorem test_wrLvlInit : (nextOf (exec .wrLvlInit { bound with temp := 0x00028023 })).map
    (fun t => (t.temp, regData t.mem 0xFE760004)) = some (0x00128033, 0x8033) := by decide

/-- R115 by hand: the other bits of TEMP go out unchanged. -/
theorem test_wrHigh : (nextOf (exec .wrHigh { bound with temp := 0x00108021 })).map
    (fun t => (t.temp, regData t.mem 0xFE760004, t.now)) = some (0x00108031, 0x8031, 1) := by decide
theorem test_wrLow : (nextOf (exec .wrLow bound)).map (fun t => (t.temp, regData t.mem 0xFE760004, t.now)) =
    some (0x00108021, 0x8021, 1) := by decide

/-- R119: no access. -/
theorem test_dwell : (nextOf (exec .dwell bound)).map (fun t => (t.trace, t.now)) = some ([.dwell], 1) := by decide

/-- R116 and R117 with EXAMPLE_CAL (1, 3, 3, 1): the words by hand. -/
theorem test_bit0 : (nextOf (exec .bit0 bound)).map (fun t => t.trace) = some
    [.wr 0xFE760004 0x00108031, .wr 0xFE760004 0x00108021, .wr 0xFE760004 0x00108021, .wr 0xFE760004 0x00108021] := by decide
theorem test_bit1 : (nextOf (exec .bit1 bound)).map (fun t => t.trace) = some
    [.wr 0xFE760004 0x00108031, .wr 0xFE760004 0x00108031, .wr 0xFE760004 0x00108031, .wr 0xFE760004 0x00108021] := by decide

/-- R118: one low write, then NRST - 1 dwells. -/
theorem test_resetPulse : (nextOf (exec .resetPulse bound)).map (fun t => (t.trace, t.now)) =
    some ([.wr 0xFE760004 0x00108021, .dwell], 2) := by decide

/-- 95_test_vectors.md V-WAVE's byte order: 0xA5 is 1, 0, 1, 0, 0, 1, 0, 1. -/
theorem test_byte_bits : bytePrims 0xA5 = [.bit1, .bit0, .bit1, .bit0, .bit0, .bit1, .bit0, .bit1] := by decide
/-- R123, R135 in the test mode: sixteen pairs, no access. -/
theorem test_byte_recorded : (nextOf (exec (.byte 0xA5) recording)).map (fun t => (t.record.length, t.mem == recording.mem)) =
    some (16, true) := by decide

/-- R145: one zero LED, then green, red, blue. -/
theorem test_wireBytes : wireBytes 2 0x12 0x34 0x56 = [0, 0, 0, 0x34, 0x12, 0x56] := by decide
theorem test_chain_zero : exec (.chain 0 1 2 3) bound = .refused .chainPositionZero := rfl

/-- R160: both answers. -/
theorem test_acquire : (nextOf (exec (.acquire 8) { idle with acqDraws := [true] })).map (fun t => (t.held, t.trace)) =
    some ([8], [.acq 8 true]) := by decide
theorem test_acquire_refused : (nextOf (exec (.acquire 8) { idle with acqDraws := [false] })).map (fun t => (t.held, t.trace)) =
    some ([], [.acq 8 false]) := by decide

/-- R166: direction address first. -/
theorem test_release : (nextOf (exec .release bound)).map (fun t => (t.held, t.mapped, t.trace)) =
    some ([], false, [.rel 0xFE76000C, .rel 0xFE760004]) := by decide
theorem test_release_unheld : exec .release { bound with held := [] } = .fault (.notHeld 0xFE76000C) := rfl

/-- R163: the words by hand, the pin an output and high. -/
theorem test_pinOpen : (nextOf (exec (.pinOpen 3 20) idle)).map (fun t => (t.trace, t.held)) = some
    ([.acq 0xFE76000C true, .acq 0xFE760004 true, .rd 0xFE76000C 0xBEEFA0E2, .wr 0xFE76000C 0xBEFFA0F2,
      .rd 0xFE760004 0xBEEF8021, .wr 0xFE760004 0xBEFF8031], [0xFE760004, 0xFE76000C]) := by decide
/-- R162: the first address is released before the failure is reported. -/
theorem test_pinOpen_unavailable : (nextOf (exec (.pinOpen 3 20) { idle with acqDraws := [true, false] })).map
    (fun t => (t.trace, t.status, t.held)) = some
    ([.acq 0xFE76000C true, .acq 0xFE760004 false, .rel 0xFE76000C, .ret .resourceUnavailable], .resourceUnavailable, []) := by
  decide

/-- R180, R186. -/
theorem test_open : (nextOf (exec .openCmd idle)).map (fun t => (t.status, t.trace)) = some (.ok, [.ret .ok]) := by decide
theorem test_close : (nextOf (exec .closeCmd bound)).map (fun t => (t.held, t.trace)) =
    some ([], [.rel 0xFE76000C, .rel 0xFE760004, .ret .ok]) := by decide

/-- R182: position 21 fails after a good bank and pin; a bad bank is named first. -/
theorem test_validate : (nextOf (exec (.validate 3 20 21) idle)).map (fun t => (t.status, t.cause)) =
    some (.invalidRequest, some (.invalidRequest .position)) := by decide
theorem test_validate_order : (nextOf (exec (.validate 5 32 0) idle)).map (fun t => t.cause) =
    some (some (.invalidRequest .bank)) := by decide

/-- R181: accepted, and UPC at the start of the micro-program. -/
theorem test_write : (nextOf (exec (.writeCmd blkA) idle)).map (fun t => (t.busy, t.upc, t.latch, t.binding, t.trace)) =
    some (true, 0, reqA, some pinA, [.acq 0xFE76000C true, .acq 0xFE760004 true]) := by decide
theorem test_write_busy : exec (.writeCmd blkA) running = .refused .commandWhileBusy := rfl

/-- R184: the request in the latch names the pin; a bad one is rejected by RESOLVE. -/
theorem test_coreWrite_rejects : (nextOf (exec .coreWrite { bound with latch := { reqA with pin := 32 } })).map
    (fun t => (t.status, t.binding)) = some (.invalidAddressParameters, some pinA) := by decide
theorem test_coreWrite_zero : exec .coreWrite { idle with latch := { reqA with pos := 0 } } = .refused .chainPositionZero := rfl

/-- R191: a step of a busy engine is one micro-operation. -/
theorem test_step_running : (nextOf (step running)).map (fun t => (t.upc, t.trace)) =
    some (5, [.wr 0xFE760004 0x00108021]) := by decide

/-- A table word runs as the first instruction after reset. -/
theorem test_fetch_open : nextOf (step (State.reset.withFetchWord 8 0)) = nextOf (exec .openCmd State.reset) := by decide

/-! ## The line and the receiver -/

/-- R213 and R215 by hand: 0xA5 in green under EXAMPLE_CAL, 250 ns a tick. -/
theorem test_receiver_bit : readPulse 250 750 = .data false ∧ readPulse 750 250 = .data true ∧ readPulse 500 500 = .unread := by
  decide
theorem test_colour : colorOfFrame (bitsOfByte 0x34 ++ bitsOfByte 0x12 ++ bitsOfByte 0x56) = ⟨0x12, 0x34, 0x56⟩ := by decide

/-! ## States that meet the premises of the statements -/

theorem small_wf : small.wf := by decide
theorem small16_wf : Config.wf { small with halfDiv := 16 } := by decide
theorem illustration_wf_nominal : Config.illustration.wf ∧ Config.illustration.nominal := by
  refine ⟨by decide, ?_⟩
  norm_num [Config.nominal, Config.illustration]

/-- 95_test_vectors.md, below V-WAVE-8: with the counts of EXAMPLE_CAL a tick of 1000/3 ns is the longest, and one of 280000/1121
ns just too short. -/
theorem test_wave_fraction : Config.nominal { Config.illustration with tickNs := 1000 / 3 } ∧
    ¬ Config.nominal { Config.illustration with tickNs := 280000 / 1121 } := by
  norm_num [Config.nominal, Config.illustration]

theorem idle_releasable : Releasable idle := ⟨rfl, fun _ h => by cases h⟩
theorem bound_releasable : Releasable bound := ⟨rfl, fun b h => by cases h; decide⟩
theorem bound_pulsable : Pulsable bound pinA := ⟨rfl, by decide⟩
theorem reqA_ok : RequestOk small reqA := by decide

theorem idle_inv : EngineInv idle :=
  .of_idle small_wf (by decide) rfl (fun _ h => by cases h) rfl fun _ h => by cases h

theorem bound_inv : EngineInv bound :=
  .of_idle small_wf (by decide) rfl (fun b h => by cases h; decide) rfl fun b h => by cases h; decide

/-- TEMP holds the write-enable bits of pin 20 and of a pin whose level the register has. -/
theorem shadow_agrees : ShadowAgrees running pinA ∧ ShadowAgrees { running with temp := 0x00118031 } pinA := by
  unfold ShadowAgrees
  decide

/-- The timed window of a WRITE begins with the low write of its first reset. -/
theorem running_first : (mprog running.cfg running.latch)[running.upc]? = some ⟨.wrLow, some (false, 2)⟩ := by decide

theorem running_inside : running.upc < (mprog running.cfg running.latch).length :=
  (List.getElem?_eq_some_iff.mp running_first).1

theorem running_inv : EngineInv running :=
  ⟨small_wf, by decide, rfl, fun b h => (by cases h; decide),
    fun _ => ⟨reqA_ok, ⟨pinA, rfl, by decide⟩, Nat.le_of_lt running_inside⟩, fun b h _ => (by cases h; decide),
    fun _ _ b h => (by cases h; exact shadow_agrees.1), fun _ => rfl⟩

/-- The first micro-operation of a WRITE, and its completion. -/
theorem starting_inv : EngineInv { running with upc := 0 } :=
  ⟨small_wf, by decide, rfl, fun b h => (by cases h; decide),
    fun _ => ⟨reqA_ok, ⟨pinA, rfl, by decide⟩, Nat.zero_le _⟩, fun b h hu => (by cases h; decide),
    fun _ h => absurd h (by decide), fun _ => rfl⟩

theorem witness_StepRunsTheDecodedCommand : ({ idle with inbox := [⟨1, blkA⟩] } : State).busy = false ∧
    decode (.command ⟨1, blkA⟩) = .ok (.writeCmd blkA) := by decide

theorem witness_StepRunsTheMicroOperationAtUpc : running.busy = true ∧ running.latch.pos ≠ 0 ∧
    (mprog running.cfg running.latch)[running.upc]? = some ⟨.wrLow, some (false, 2)⟩ := ⟨rfl, by decide, running_first⟩

theorem witness_TableWordsAreFetchedAndRun : decodeTableWord 8 2 = some .closeCmd := by decide

theorem witness_IdleEngineWaits : idle.busy = false ∧ idle.inbox = [] := by decide

theorem witness_NoOtherCommandHasAMeaning :
    ({ idle with inbox := [⟨3, []⟩] } : State).inbox = [⟨3, []⟩] ∧ ([0] : List Byte) ≠ [] ∧
    ({ idle with inbox := [⟨0, [0]⟩] } : State).inbox = [⟨0, [0]⟩] ∧
    ({ idle with inbox := [⟨2, [0]⟩] } : State).inbox = [⟨2, [0]⟩] := by decide

theorem witness_RequestFieldsAreLittleEndianSums : blkA.length = 16 ∧ (blkA.take 15).length ≠ 16 ∧
    (blkA ++ [0]).length ≠ 16 := by decide

theorem witness_EncodingsRoundTrip : encode .bit1 = some (.pulse true) ∧ encode (.writeCmd []) = some (.command ⟨1, []⟩) ∧
    decode (.command ⟨2, []⟩) = .ok .closeCmd ∧ requestOfBlock blkA = some reqA := by decide

theorem witness_ResolveFollowsTheFormula :
    ((5 : Word).toNat > 4 ∧ (32 : Word).toNat > 31) ∧
    ((4 : Word).toNat ≤ 4 ∧ (30 : Word).toNat ≤ 31 ∧ (30 : Word).toNat / idle.cfg.halfDiv > 1) ∧
    ((4 : Word).toNat ≤ 4 ∧ (29 : Word).toNat ≤ 31 ∧ (29 : Word).toNat / idle.cfg.halfDiv ≤ 1) ∧
    (0 : Word).toNat = 0 ∧ 1 ≤ (1 : Word).toNat := by decide

theorem witness_PinTableForBothDivisors : small.halfDiv = 15 ∧ ({ small with halfDiv := 16 } : Config).halfDiv = 16 ∧
    pinStep small 14 ≤ 1 ∧ pinStep small 29 ≤ 1 ∧ pinStep { small with halfDiv := 16 } 31 = 1 := by decide

theorem witness_ResolvedAddressesAgree : resolve small 3 20 = .found pinA ∧
    resolve small 4 29 = .found ⟨0xFE77000C, 0xFE770004, 13⟩ ∧
    resolve { small with halfDiv := 16 } 0 31 = .found ⟨0xFDD6000C, 0xFDD60004, 15⟩ := by decide

theorem witness_ResolverSeparatesPins : resolve small 0 14 = .found ⟨0xFDD60008, 0xFDD60000, 14⟩ ∧
    resolve small 0 15 = .found ⟨0xFDD6000C, 0xFDD60004, 15⟩ := by decide

theorem witness_MaskedWriteUpdatesMaskedBits : isRegister idle.cfg 0xFE760004 = true ∧
    isRegister idle.cfg 0xFDD60000 = true ∧ isRegister idle.cfg 0xFE77000C = true ∧ isRegister idle.cfg 0xFE760001 = false ∧
    isRegister idle.cfg 0xFE780000 = false ∧ Memory.wf idle.mem := by decide

theorem witness_ReadReturnsDataBitsUnderAnyUpperHalf : isRegister idle.cfg 0xFE76000C = true ∧
    idle.upperDraws = 0xBEEF :: [0xBEEF] := by decide

theorem witness_DirectionUpdateMakesThePinAnOutput : bound.binding = some pinA ∧ isRegister bound.cfg pinA.dir = true ∧
    (nextOf (exec .rdDir bound)).isSome = true ∧ ((nextOf (exec .rdDir bound)).bind fun t => nextOf (exec .wrDir t)).isSome = true := by
  decide

theorem witness_LevelInitialisationRaisesThePin : bound.binding = some pinA ∧ isRegister bound.cfg pinA.lvl = true ∧
    (nextOf (exec .rdLvl bound)).isSome = true ∧
    ((nextOf (exec .rdLvl bound)).bind fun t => nextOf (exec .wrLvlInit t)).isSome = true := by decide

theorem witness_PulseWritesChangeOnlyThePinBit : Pulsable bound pinA ∧ bound.testing = false ∧
    bound.temp.getLsbD (pinA.off + 16) = true := ⟨bound_pulsable, by decide, by decide⟩

theorem witness_AccessWithoutABindingFaults : idle.binding = none ∧
    ({ bound with binding := some ⟨0, 1, 4⟩ } : State).testing = false ∧ isRegister bound.cfg 0 = false ∧
    isRegister bound.cfg 1 = false := by decide

/-- For BitPulsesAreHighThenLowWrites, ResetPulseIsOneLowWriteThenDwell, ByteCompletesInItsTicks, ChainCompletesInItsTicks. -/
theorem witness_pulses : Pulsable bound pinA ∧ bound.testing = false ∧ bound.cfg.wf ∧ (1 : Word) ≠ 0 ∧ (20 : Word) ≠ 0 :=
  ⟨bound_pulsable, by decide, small_wf, by decide, by decide⟩

theorem witness_MicroProgramHasTheStatedCounts : small.wf ∧ 1 ≤ reqA.pos.toNat := by decide

/-- For TestModeRecordsEachPhase and TestModeRecordsAWholeChain. -/
theorem witness_testMode : recording.binding = some pinA ∧ recording.testing = true ∧ recording.cfg.wf :=
  ⟨rfl, by decide, small_wf⟩

theorem witness_AcquireHoldsWhatTheEnvironmentGrants : idle.acqDraws = true :: [true] ∧ heldWf idle.held ∧
    ({ idle with acqDraws := [false] } : State).acqDraws = false :: [] := by decide

theorem witness_ReleaseClearsTheBindingOnce : idle.binding = none ∧ bound.binding = some pinA ∧ pinA.dir ∈ bound.held ∧
    pinA.lvl ∈ bound.held ∧ pinA.dir ≠ pinA.lvl ∧ pinA.dir ∉ ({ bound with held := [] } : State).held ∧
    pinA.dir ∈ ({ bound with held := [pinA.dir] } : State).held ∧ pinA.lvl ∉ ({ bound with held := [pinA.dir] } : State).held := by
  decide

/-- For PinOpenConfiguresThePin and PinOpenFailuresTearDown. -/
theorem witness_PinOpen : Releasable bound ∧ bound.acqDraws = true :: true :: [] ∧
    resolve bound.cfg (3 : Word).toNat (20 : Word).toNat = .found pinA ∧
    ({ bound with acqDraws := [false] } : State).acqDraws = false :: [] ∧
    ({ bound with acqDraws := [true, false] } : State).acqDraws = true :: false :: [] ∧
    (5 : Word).toNat > 4 ∧ (32 : Word).toNat > 31 ∧ (30 : Word).toNat / bound.cfg.halfDiv > 1 :=
  ⟨bound_releasable, by decide, by decide, rfl, rfl, by decide, by decide, by decide⟩

theorem witness_OpenOnlyReturnsOk : idle.busy = false ∧ bound.busy = false := by decide

theorem witness_BusyEngineTakesNoCommand : running.busy = true := rfl

theorem witness_ChainIsResetZeroBytesColourReset : (1 : Word) ≠ 0 ∧ (0xFFFFFFFF : Word) ≠ 0 ∧ 1 ≤ reqA.pos.toNat := by decide

theorem witness_NominalCalibrationGivesAConformantWave : Config.illustration.wf ∧ Config.illustration.nominal ∧ 1 ≤ 20 :=
  ⟨illustration_wf_nominal.1, illustration_wf_nominal.2, by decide⟩

theorem witness_CloseReleasesTheBinding : bound.busy = false ∧ Releasable bound := ⟨rfl, bound_releasable⟩

theorem witness_ValidateTestsBankPinPosition : (5 : Word).toNat > 4 ∧ (4 : Word).toNat ≤ 4 ∧ (32 : Word).toNat > 31 ∧
    (31 : Word).toNat ≤ 31 ∧ (0 : Word).toNat < 1 ∧ (21 : Word).toNat > 20 ∧ 1 ≤ (1 : Word).toNat ∧ (20 : Word).toNat ≤ 20 := by
  decide

theorem witness_InvalidWritesChangeNothingElse : idle.busy = false ∧ ([] : List Byte).length ≠ 16 ∧
    requestOfBlock (blockOfRequest { reqA with bank := 5 } 0) = some { reqA with bank := 5 } ∧
    requestOfBlock (blockOfRequest { reqA with pin := 32 } 0) = some { reqA with pin := 32 } ∧
    requestOfBlock (blockOfRequest { reqA with pos := 0 } 0) = some { reqA with pos := 0 } ∧
    requestOfBlock (blockOfRequest { reqA with pos := 21 } 0) = some { reqA with pos := 21 } := by decide

theorem witness_UnavailableWritesLeaveNothingHeld : bound.busy = false ∧ Releasable bound ∧
    requestOfBlock blkA = some reqA ∧ RequestOk bound.cfg reqA ∧ resolve bound.cfg 3 20 = .found pinA ∧
    requestOfBlock (blockOfRequest { reqA with pin := 30 } 0) = some { reqA with pin := 30 } ∧
    RequestOk bound.cfg { reqA with pin := 30 } ∧ pinStep bound.cfg 30 > 1 :=
  ⟨rfl, bound_releasable, by decide, by decide, by decide, by decide, by decide, by decide⟩

theorem witness_IdleStepsNeverTouchTheOutside : idle.busy = false ∧
    (nextOf (step { idle with inbox := [⟨1, blkA⟩] })).isSome = true := by decide

/-- A WRITE that is accepted, and whose steps complete it. -/
theorem witness_WriteIsAcceptedAndRunsToCompletion : idle.busy = false ∧ Releasable idle ∧ idle.cfg.wf ∧
    idle.testing = false ∧ requestOfBlock blkA = some reqA ∧ RequestOk idle.cfg reqA ∧
    resolve idle.cfg reqA.bank.toNat reqA.pin.toNat = .found pinA ∧ idle.acqDraws = true :: true :: [] :=
  ⟨rfl, idle_releasable, small_wf, by decide, by decide, by decide, by decide, rfl⟩

/-- `idle` after the WRITE is accepted. -/
def accepted : State :=
  { idle with
    latch := reqA, binding := some pinA, held := heldOf (some pinA), busy := true, upc := 0, now := 0, acqDraws := []
    traceRev := .acq pinA.lvl true :: .acq pinA.dir true :: ((releaseEvents idle.binding).reverse ++ idle.traceRev) }

theorem witness_WritePutsTheWaveformOnTheLine : ∃ t u, exec (.writeCmd blkA) idle = .next t ∧
    run ((mprog idle.cfg reqA).length + 1) t = .next u := by
  obtain ⟨h1, h2, h3, h4, h5, h6, h7, h8⟩ := witness_WriteIsAcceptedAndRunsToCompletion
  have hb := resolve_ok h7
  obtain ⟨v, w, m, l, n, e, -⟩ := runSlots_mprog (s := accepted) (b := pinA) reqA rfl hb.dir_isRegister hb.lvl_isRegister
    hb.dir_eq h4 h3
  have hrun := run_mprog (s := accepted) rfl (by decide) rfl
  exact ⟨accepted, _, execWrite_granted h1 h2 h5 h6 h7 h8, hrun.trans (congrArg (fun o => andThen o _) e)⟩

/-- For CoreWriteRunsTheWholeMicroProgram and CoreWriteFailuresTearDown. -/
theorem witness_CoreWrite : Releasable { bound with latch := reqA } ∧ bound.cfg.wf ∧ bound.acqDraws = true :: true :: [] ∧
    resolve bound.cfg reqA.bank.toNat reqA.pin.toNat = .found pinA ∧ reqA.pos ≠ 0 ∧ ({ reqA with pos := 0 } : Request).pos = 0 ∧
    ({ reqA with pin := 32 } : Request).pin.toNat > 31 ∧ ({ reqA with bank := 5 } : Request).bank.toNat > 4 ∧
    ({ reqA with pin := 30 } : Request).pin.toNat / bound.cfg.halfDiv > 1 ∧ bound.latch = reqA ∧
    ({ bound with acqDraws := [false] } : State).acqDraws = false :: [] ∧
    ({ bound with acqDraws := [true, false] } : State).acqDraws = true :: false :: [] :=
  ⟨bound_releasable, small_wf, rfl, by decide, by decide, rfl, by decide, by decide, by decide, rfl, rfl, rfl⟩

theorem witness_SequencerRefinesCoreWrite : ∃ t, running.busy = true ∧ enterCore running = .next (.going t) := ⟨_, rfl, rfl⟩

theorem witness_EveryStepKeepsTheInvariant : EngineInv running ∧ (nextOf (step running)).isSome = true ∧
    EngineInv { idle with inbox := [⟨0, []⟩] } ∧ (nextOf (step { idle with inbox := [⟨0, []⟩] })).isSome = true :=
  ⟨running_inv, by decide,
    idle_inv.setInbox _,
    by decide⟩

theorem witness_NoStepFromTheInvariantFaults : EngineInv { idle with inbox := [⟨3, []⟩] } ∧
    step { idle with inbox := [⟨3, []⟩] } = .refused .noSuchCommand :=
  ⟨idle_inv.setInbox _, rfl⟩

theorem witness_EveryAcquisitionIsReleasedExactlyOnce : EngineInv idle ∧ HeldBalance idle ∧ step idle = .next idle ∧
    idle.held = [] := ⟨idle_inv, fun _ => rfl, rfl, rfl⟩

theorem witness_UnwrittenRegistersAreNeverRead : idle.busy = false ∧
    SameButDead idle { idle with temp := 1, dtmp := 2, upc := 3, latch := reqA } := ⟨rfl, rfl⟩

theorem witness_BusyEngineRunsToCompletion : EngineInv running ∧ running.busy = true ∧
    running.upc < (mprog running.cfg running.latch).length ∧
    ({ running with upc := (mprog small reqA).length } : State).upc = (mprog running.cfg running.latch).length :=
  ⟨running_inv, rfl, running_inside, rfl⟩

theorem completing_inv (n : Nat) (hn : n = (mprog small reqA).length) : EngineInv { running with upc := n, now := n - 4 } :=
  ⟨small_wf, running_inv.memOk, rfl, running_inv.bindingOk,
    fun _ => ⟨reqA_ok, (running_inv.busyOk rfl).2.1, Nat.le_of_eq hn⟩,
    fun b h _ => running_inv.maskOk b h fun _ => Nat.le_refl 4,
    fun _ _ => running_inv.shadowOk rfl (by decide), fun _ => rfl⟩

/-- `running`, and the same with another pin's write-enable bit read back into TEMP. -/
theorem witness_TimedWindowTouchesOnlyThePin : EngineInv running ∧ running.binding = some pinA ∧ 4 ≤ running.upc ∧
    (nextOf (step running)).map (fun t => t.traceRev) = some (.wr 0xFE760004 0x00108021 :: running.traceRev) ∧
    EngineInv { running with temp := 0x00118031 } ∧
    (nextOf (step { running with temp := 0x00118031 })).map (fun t => regData t.mem 0xFE760004) = some 0x8021 :=
  ⟨running_inv, rfl, by decide, by decide,
    ⟨small_wf, running_inv.memOk, rfl, running_inv.bindingOk, running_inv.busyOk, fun b h _ => (by cases h; decide),
      fun _ _ b h => (by cases h; exact shadow_agrees.2), fun _ => rfl⟩, by decide⟩

/-- Also for EveryInstructionKeepsCanonicalForms. -/
theorem witness_EachInstructionWritesOnlyItsState : (nextOf (exec .dwell idle)).isSome = true ∧
    Reg.temp ∉ mayWrite .dwell ∧ Memory.wf idle.mem ∧ heldWf idle.held := by decide

/-- R212: the ticks of a real line, those of the resets long, the others a fraction over 249 ns. -/
def tickLengths (i : Nat) : Duration := if i < 2 ∨ 98 ≤ i then 280001 / 2 else 999 / 4

theorem tickLengths_pos (i : Nat) : 0 < tickLengths i := by
  unfold tickLengths
  split <;> norm_num

theorem witness_ConformantWriteShowsTheColour :
    conformant (wireBits 1 0x12 0x34 0x56) (intervals tickLengths 0 (levelsOf (wave small (wireBits 1 0x12 0x34 0x56)))) =
      true := by
  decide +kernel

theorem witness_PinLevelFollowsTheDataBits : (regData idle.mem 0xFE76000C).getLsbD 5 = true ∧
    (regData idle.mem pinA.dir).getLsbD pinA.off = false := by decide

end Sys2Proof.Tests
end

section
/-! PROOFS. The resolver keeps banks and pins apart (00_scope.md R7 (b), 40_pin_resolver.md R104). -/

namespace Sys2Proof.Machine

/-! ## The banks -/

theorem bankBase_zero (c : Config) : bankBase c 0 = c.gpio0Base := rfl

theorem bankBase_succ (c : Config) (k : Nat) : bankBase c (k + 1) = c.gpio1Base + k * BANK_STRIDE := rfl

theorem bankZero_apart {c : Config} (hw : c.wf) {k : Nat} (hk : k ≤ 3) :
    bankBase c 0 + 16 ≤ bankBase c (k + 1) ∨ bankBase c (k + 1) + 16 ≤ bankBase c 0 := by
  obtain ⟨-, -, -, hz, -⟩ := hw
  rw [bankBase_zero, bankBase_succ]
  exact hz k (by simp only [List.mem_cons, List.not_mem_nil, or_false]; omega)

/-- The address ranges of two banks do not overlap: bank 0 by R7 (b), the others by the stride. -/
theorem bankBase_apart {c : Config} (hw : c.wf) {bank bank' : Nat} (hb : bank ≤ 4) (hb' : bank' ≤ 4) (hne : bank ≠ bank') :
    bankBase c bank + 16 ≤ bankBase c bank' ∨ bankBase c bank' + 16 ≤ bankBase c bank := by
  match bank, bank' with
  | 0, 0 => exact absurd rfl hne
  | 0, k + 1 => exact bankZero_apart hw (by omega)
  | k + 1, 0 => exact (bankZero_apart hw (by omega)).symm
  | k + 1, k' + 1 =>
    simp only [bankBase_succ, BANK_STRIDE]
    omega

/-- Two banks whose address ranges meet are one bank. -/
theorem bank_eq_of_ranges_meet {c : Config} (hw : c.wf) {bank bank' : Nat} (hb : bank ≤ 4) (hb' : bank' ≤ 4)
    (h : bankBase c bank < bankBase c bank' + 16) (h' : bankBase c bank' < bankBase c bank + 16) : bank = bank' := by
  by_contra hne
  have := bankBase_apart hw hb hb' hne
  omega

/-! ## The pins -/

/-- The half and the offset determine the pin, with either divisor: pins of one half differ by less than 16, pins of one
offset by a multiple of 16. -/
theorem pin_eq_of_step_off {c : Config} (hw : c.wf) {pin pin' : Nat} (hs : pinStep c pin = pinStep c pin')
    (ho : pinOff pin = pinOff pin') : pin = pin' := by
  have hmod : pin % 16 = pin' % 16 := congrArg Fin.val ho
  unfold pinStep at hs
  obtain ⟨hdiv | hdiv, -⟩ := hw
  · rw [hdiv] at hs
    omega
  · rw [hdiv] at hs
    omega

/-! ## The bindings -/

/-- Two results of RESOLVE that share a register address belong to one bank. -/
theorem resolve_bank_eq {c : Config} (hw : c.wf) {bank pin bank' pin' : Nat} {b b' : Binding}
    (h : resolve c bank pin = .found b) (h' : resolve c bank' pin' = .found b')
    (ha : b.lvl = b'.lvl ∨ b.dir = b'.dir ∨ b.lvl = b'.dir) : bank = bank' := by
  obtain ⟨hb, -, hs, hl, hdir, -⟩ := resolve_found h
  obtain ⟨hb', -, hs', hl', hdir', -⟩ := resolve_found h'
  exact bank_eq_of_ranges_meet hw hb hb' (by omega) (by omega)

/-- RESOLVE is injective where it finds a binding. -/
theorem resolve_inj {c : Config} (hw : c.wf) {bank pin bank' pin' : Nat} {b : Binding}
    (h : resolve c bank pin = .found b) (h' : resolve c bank' pin' = .found b) : bank = bank' ∧ pin = pin' := by
  obtain rfl : bank = bank' := resolve_bank_eq hw h h' (.inl rfl)
  obtain ⟨-, -, -, hl, -, ho⟩ := resolve_found h
  obtain ⟨-, -, -, hl', -, ho'⟩ := resolve_found h'
  have hs : pinStep c pin = pinStep c pin' := by omega
  exact ⟨rfl, pin_eq_of_step_off hw hs (ho.symm.trans ho')⟩

/-- Settles O14: the bank by the address ranges, which do not overlap, the pin by its half and offset. -/
theorem resolverSeparatesPins : Obligations.ResolverSeparatesPins := by
  intro c bank pin bank' pin' b b' hw h h'
  exact ⟨resolve_bank_eq hw h h', fun he => resolve_inj hw h (he ▸ h')⟩

end Sys2Proof.Machine
end

section
/-! PROOFS. Every step keeps the invariant, the timed window touches only the pin, and no run shows an unwritten register
(10_state.md R29, R34, R36). -/

namespace Sys2Proof.Machine

/-! ## What one micro-operation does to NOW and to the shadow -/

/-- A timed micro-operation takes one tick, the others none (45_host_operations.md R190). -/
theorem runMicro_now {op : MicroOp} {s t : State} (h : runMicro op s = .next t) :
    t.now = s.now + if isTimed op then 1 else 0 := by
  rcases runMicro_cases h with ⟨rfl, rfl⟩ | ⟨b, -, h⟩
  · rfl
  · rcases h with ⟨rfl, -, rfl⟩ | ⟨rfl, -, rfl⟩ | ⟨rfl, -, rfl⟩ | ⟨rfl, -, rfl⟩ | ⟨w, hop, ht⟩
    · rw [drawUpper_state]; rfl
    · rfl
    · rw [drawUpper_state]; rfl
    · rfl
    · have timed : isTimed op = true := by rcases hop with ⟨rfl, -⟩ | ⟨rfl, -⟩ <;> rfl
      rw [timed]
      rcases ht with ⟨-, rfl⟩ | ⟨-, -, rfl⟩ <;> rfl

/-- What a timed micro-operation does on a bound pin: it moves at most the pin's bit of the shadow, and either accesses no
register or writes the shadow to the level register (41_pulse_primitives.md R115, R119, R123). -/
theorem runMicro_timed_cases {op : MicroOp} (ho : isTimed op = true) {s t : State} {b : Binding}
    (hb : s.binding = some b) (h : runMicro op s = .next t) :
    (∀ n < 32, n ≠ b.off.val → t.temp.getLsbD n = s.temp.getLsbD n) ∧
    ((t.mem = s.mem ∧ (t.traceRev = s.traceRev ∨ t.traceRev = .dwell :: s.traceRev)) ∨
      (t.traceRev = .wr b.lvl t.temp :: s.traceRev ∧ MaskedStore b.lvl t.temp s.mem t.mem)) := by
  rcases runMicro_cases h with ⟨-, rfl⟩ | ⟨b', hb', h⟩
  · exact ⟨fun _ _ _ => rfl, .inl ⟨rfl, .inr rfl⟩⟩
  · obtain rfl : b = b' := Option.some.inj (hb.symm.trans hb')
    rcases h with ⟨rfl, -⟩ | ⟨rfl, -⟩ | ⟨rfl, -⟩ | ⟨rfl, -⟩ | ⟨w, hop, ht⟩
    iterate 4 cases ho
    have hw : ∀ n < 32, n ≠ b.off.val → w.getLsbD n = s.temp.getLsbD n := by
      intro n hn hne
      rcases hop with ⟨-, rfl⟩ | ⟨-, rfl⟩
      · rw [setPin_bit _ _ hn, if_neg hne]
      · rw [clearPin_bit _ _ hn, if_neg hne]
    rcases ht with ⟨-, rfl⟩ | ⟨-, -, rfl⟩
    · exact ⟨hw, .inl ⟨rfl, .inl rfl⟩⟩
    · exact ⟨hw, .inr ⟨rfl, maskedStore_storeData _ _ _⟩⟩

/-- WR_LVL_INIT sets the pin's write-enable bit in the shadow (44_pin_lifecycle.md R165). -/
theorem execWrLvlInit_mask {s t : State} {b : Binding} (hb : s.binding = some b) (h : runMicro .wrLvlInit s = .next t) :
    t.temp.getLsbD (b.off + MASK_SHIFT) = true := by
  obtain ⟨b', hb', h⟩ := withBinding_eq_next h
  obtain rfl : b = b' := Option.some.inj (hb.symm.trans hb')
  obtain ⟨-, rfl⟩ := memWrite_eq_next h
  show (enablePin s.temp b.off).getLsbD (b.off + 16) = true
  rw [enablePin_bit _ _ (by omega)]
  simp

/-- From WR_LVL_INIT on no micro-operation takes the pin's write-enable bit out of the shadow (10_state.md R34 (c)). -/
theorem runMicro_keeps_mask {op : MicroOp} (ho : isTimed op = true) {s t : State} {b : Binding} (hb : s.binding = some b)
    (hm : s.temp.getLsbD (b.off + MASK_SHIFT) = true) (h : runMicro op s = .next t) :
    t.temp.getLsbD (b.off + MASK_SHIFT) = true := by
  rw [(runMicro_timed_cases ho hb h).1 _ (by simp only [MASK_SHIFT]; omega) (by simp only [MASK_SHIFT]; omega), hm]

/-! ## A turn of the sequencer under the invariant -/

/-- Noting a phase keeps the invariant: it changes the record only. -/
theorem EngineInv.noteMark {s : State} (hi : EngineInv s) (x : Slot) : EngineInv (noteMark x s) := by
  unfold Machine.noteMark
  split
  · exact ⟨hi.cfgOk, hi.memOk, hi.heldOk, hi.bindingOk, hi.busyOk, hi.maskOk, hi.shadowOk, hi.nowOk⟩
  · exact hi

/-- R34 (c) after the micro-operation at UPC. -/
theorem EngineInv.mask_after {s t : State} {x : Slot} {b : Binding} (hi : EngineInv s)
    (hx : (mprog s.cfg s.latch)[s.upc]? = some x) (hb : s.binding = some b) (h : runMicro x.op s = .next t)
    (hu : 4 ≤ s.upc + 1) : t.temp.getLsbD (b.off + MASK_SHIFT) = true := by
  rcases mprog_get hx with ⟨hn, -⟩ | ⟨hn, -⟩ | ⟨hn, -⟩ | ⟨-, ho⟩ | ⟨hn, ho⟩
  iterate 3 omega
  · exact execWrLvlInit_mask hb (ho ▸ h)
  · exact runMicro_keeps_mask ho hb (hi.maskOk b hb fun _ => hn) h

/-- R34 (d) after the micro-operation at UPC. -/
theorem EngineInv.shadow_after {s t : State} {x : Slot} {b : Binding} (hi : EngineInv s) (hbusy : s.busy = true)
    (hx : (mprog s.cfg s.latch)[s.upc]? = some x) (hb : s.binding = some b) (h : runMicro x.op s = .next t)
    (hu : 3 ≤ s.upc + 1) : ShadowAgrees t b := by
  rcases mprog_get hx with ⟨hn, -⟩ | ⟨hn, -⟩ | ⟨-, ho⟩ | ⟨hn, ho⟩ | ⟨hn, ho⟩
  iterate 2 omega
  · exact execRdLvl_shadow hb (ho ▸ h)
  · exact (runMicro_shadow (.inl ho) hb (hi.shadowOk hbusy (by omega) b hb) h).1
  · exact (runMicro_shadow (.inr ho) hb (hi.shadowOk hbusy (by omega) b hb) h).1

/-- R190 after the micro-operation at UPC. -/
theorem EngineInv.now_after {s t : State} {x : Slot} (hi : EngineInv s) (hbusy : s.busy = true)
    (hx : (mprog s.cfg s.latch)[s.upc]? = some x) (h : runMicro x.op s = .next t) : t.now = s.upc + 1 - 4 := by
  rw [runMicro_now h, hi.nowOk hbusy]
  rcases mprog_get hx with ⟨hn, ho⟩ | ⟨hn, ho⟩ | ⟨hn, ho⟩ | ⟨hn, ho⟩ | ⟨hn, ho⟩
  iterate 4 rw [hn, ho]; rfl
  rw [ho, if_pos rfl]
  omega

/-- The micro-operation at UPC, and the count after it, keep the invariant. -/
theorem EngineInv.runMicro_counted {s t : State} {x : Slot} (hi : EngineInv s) (hb : s.busy = true)
    (hx : (mprog s.cfg s.latch)[s.upc]? = some x) (h : runMicro x.op s = .next t) : EngineInv (t.setUpc (s.upc + 1)) := by
  obtain ⟨hreq, ⟨b, hbind, hres⟩, -⟩ := hi.busyOk hb
  have hlt : s.upc < (mprog s.cfg s.latch).length := (List.getElem?_eq_some_iff.mp hx).1
  have hmask := fun b' (h' : s.binding = some b') => hi.mask_after hx h' h
  have hshadow := fun hu b' (h' : s.binding = some b') => hi.shadow_after hb hx h' h hu
  have hnow := hi.now_after hb hx h
  obtain ⟨hlatch, hbinding, hbusy, -, -, -, hheld, -, hcfg, -, -⟩ := runMicro_frame h
  exact {
    cfgOk := by simpa only [State.setUpc_cfg, hcfg] using hi.cfgOk
    memOk := by simpa only [State.setUpc_mem] using runMicro_wf h hi.memOk
    heldOk := by simpa only [State.setUpc_held, State.setUpc_binding, hheld, hbinding] using hi.heldOk
    bindingOk := by simpa only [State.setUpc_cfg, State.setUpc_binding, hcfg, hbinding] using hi.bindingOk
    busyOk := fun _ => by
      simp only [State.setUpc_cfg, State.setUpc_latch, State.setUpc_binding, State.setUpc_upc, hcfg, hlatch, hbinding]
      exact ⟨hreq, ⟨b, hbind, hres⟩, hlt⟩
    maskOk := fun b' h' hu => hmask b' (hbinding ▸ h') (hu (hbusy.trans hb))
    shadowOk := fun _ hu b' h' => hshadow hu b' (hbinding ▸ h')
    nowOk := fun _ => hnow }

/-- A turn of the loop at UPC keeps the invariant. -/
theorem EngineInv.runAndCount {s t : State} {x : Slot} (hi : EngineInv s) (hb : s.busy = true)
    (hx : (mprog s.cfg s.latch)[s.upc]? = some x) (h : runAndCount x s = .next t) : EngineInv t := by
  obtain ⟨u, hu, ht⟩ := andThen_eq_next.mp h
  cases ht
  have hn := noteMark_frame x s
  have hx' : (mprog (Machine.noteMark x s).cfg (Machine.noteMark x s).latch)[(Machine.noteMark x s).upc]? = some x := by
    rw [hn.cfg, hn.latch, hn.upc]
    exact hx
  rw [(runMicro_frame hu).upc]
  exact (hi.noteMark x).runMicro_counted (hn.busy.trans hb) hx' hu

/-! ## The end of a command under the invariant -/

/-- An engine that has become idle with its binding kept, once the pin's write-enable bit is set. -/
theorem EngineInv.kept {s t : State} (hi : EngineInv s) (hu : s.busy = true → 4 ≤ s.upc) (hb : t.busy = false)
    (hc : t.cfg = s.cfg) (hm : t.mem = s.mem) (hh : t.held = s.held) (hbind : t.binding = s.binding)
    (ht : t.temp = s.temp) : EngineInv t := by
  refine .of_idle (hc ▸ hi.cfgOk) (hm ▸ hi.memOk) ?_ (fun b h => ?_) hb (fun b h => ?_)
  · rw [hh, hbind]
    exact hi.heldOk
  · rw [hc]
    exact hi.bindingOk b (hbind ▸ h)
  · rw [ht]
    exact hi.maskOk b (hbind ▸ h) hu

/-- An engine that has become idle with nothing bound and nothing held. -/
theorem EngineInv.unbound {s t : State} (hi : EngineInv s) (hb : t.busy = false) (hc : t.cfg = s.cfg) (hm : t.mem = s.mem)
    (hh : t.held = []) (hbind : t.binding = none) : EngineInv t := by
  refine .of_idle (hc ▸ hi.cfgOk) (hm ▸ hi.memOk) ?_ (fun b h => ?_) hb (fun b h => ?_)
  · rw [hh, hbind]; rfl
  · rw [hbind] at h; cases h
  · rw [hbind] at h; cases h

/-- The completion of a WRITE keeps the invariant: the micro-program has passed WR_LVL_INIT. -/
theorem EngineInv.completeWrite {s : State} (hi : EngineInv s) (hu : s.upc = (mprog s.cfg s.latch).length) :
    EngineInv (completeWrite s) := by
  refine hi.kept (fun _ => ?_) rfl rfl rfl rfl rfl rfl
  rw [hu, mprog, List.length_append]
  exact Nat.le_add_right 4 _

theorem EngineInv.execOpen {s t : State} (hi : EngineInv s) (hb : s.busy = false) (h : execOpen s = .next t) :
    EngineInv t := by
  have hopen : Machine.execOpen s = .next (returnOk s) := if_neg (by simp [hb])
  cases hopen.symm.trans h
  exact hi.kept (fun h => absurd h (by simp [hb])) hb rfl rfl rfl rfl rfl

theorem EngineInv.execClose {s t : State} (hi : EngineInv s) (hb : s.busy = false) (h : execClose s = .next t) :
    EngineInv t := by
  have hclose : Machine.execClose s = andThen (releaseBinding s) fun s1 => .next (returnOk s1) := if_neg (by simp [hb])
  rw [hclose, releaseBinding_next hi.releasable] at h
  cases h
  exact hi.unbound hb rfl rfl rfl rfl

/-- A WRITE keeps the invariant: a failure leaves the engine idle, with its binding kept or with nothing bound, and an
accepted one starts at UPC = 0 with the binding of its request. -/
theorem EngineInv.execWrite {s t : State} {blk : List Byte} (hi : EngineInv s) (hb : s.busy = false)
    (h : execWrite blk s = .next t) : EngineInv t := by
  rcases execWrite_cases blk hb hi.releasable with
    ⟨e, q, hw⟩ | ⟨pin, hw, -⟩ | ⟨q, x, l, n, -, hok, hx, hw | hw | hw⟩
  all_goals rw [hw] at h; cases h
  · exact hi.kept (fun h => absurd h (by simp [hb])) rfl rfl rfl rfl rfl rfl
  · exact {
      cfgOk := hi.cfgOk
      memOk := hi.memOk
      heldOk := rfl
      bindingOk := fun b hbind => Option.some.inj hbind ▸ resolve_ok hx
      busyOk := fun _ => ⟨hok, ⟨x, rfl, hx⟩, Nat.zero_le _⟩
      maskOk := fun _ _ hu => absurd (hu rfl) (Nat.not_succ_le_zero 3)
      shadowOk := fun _ hu => absurd hu (Nat.not_succ_le_zero 2)
      nowOk := fun _ => rfl }
  · exact hi.unbound rfl rfl rfl rfl rfl
  · exact hi.unbound rfl rfl rfl rfl rfl

/-! ## Steps and runs -/

/-- Settles O47: a busy engine turns the loop once or completes its WRITE; an idle one waits, or takes an OPEN, a CLOSE or a
WRITE. -/
theorem everyStepKeepsTheInvariant : Obligations.EveryStepKeepsTheInvariant := by
  intro s t hi h
  cases hb : s.busy with
  | true =>
    rcases busyStep_cases hi hb with ⟨x, hx, hs⟩ | ⟨hu, hs⟩ <;> rw [hs] at h
    · exact hi.runAndCount hb hx h
    · cases h
      exact hi.completeWrite hu
  | false =>
    have hstep : step s = idleStep s := if_neg (by simp [hb])
    rw [hstep] at h
    rcases idleStep_cases s with ⟨-, hs⟩ | ⟨c, rest, -, ⟨r, hs, -⟩ | hs | hs | ⟨blk, hs⟩⟩ <;> rw [hs] at h
    · cases h
      exact hi
    · cases h
    · exact (hi.setInbox rest).execOpen hb h
    · exact (hi.setInbox rest).execClose hb h
    · exact (hi.setInbox rest).execWrite hb h

/-- Settles O50: idle engines that differ only in registers that hold no value are in the relation `Sim`, which every step
keeps. -/
theorem unwrittenRegistersAreNeverRead : Obligations.UnwrittenRegistersAreNeverRead := fun k _ _ hb h =>
  alike_mono (run_sim k (sim_idle h hb)) fun _ _ hsim => hsim.1

/-! ## The timed window -/

/-- In the timed window a turn of the loop moves at most the pin's bit, of the shadow and of the level register. -/
theorem runAndCount_window {s t : State} {x : Slot} {b : Binding} (ho : isTimed x.op = true) (hb : s.binding = some b)
    (hsh : ShadowAgrees s b) (h : runAndCount x s = .next t) :
    (∀ n < 32, n ≠ b.off.val → t.temp.getLsbD n = s.temp.getLsbD n) ∧
    (∀ a w, t.traceRev = .wr a w :: s.traceRev → a = b.lvl ∧ w = t.temp) ∧
    SameBitsBut b.off b.lvl s.mem t.mem ∧
    (∀ y, y ≠ b.lvl → y ≠ b.lvl + 1 → readByte t.mem y = readByte s.mem y) := by
  obtain ⟨u, hu, ht⟩ := andThen_eq_next.mp h
  cases ht
  have hbn : (noteMark x s).binding = some b := (noteMark_frame x s).binding.trans hb
  obtain ⟨hmem, htemp, -, -, htrace⟩ := noteMark_fields x s
  have hshn : ShadowAgrees (noteMark x s) b := by
    unfold ShadowAgrees
    rw [hmem, htemp]
    exact hsh
  have hsame := (runMicro_shadow (.inr ho) hbn hshn hu).2
  obtain ⟨hbits, hacc⟩ := runMicro_timed_cases ho hbn hu
  rw [hmem] at hsame hacc
  rw [htrace] at hacc
  rw [htemp] at hbits
  refine ⟨hbits, fun a w hw => ?_, hsame, fun y h0 h1 => ?_⟩
  · have hw : u.traceRev = .wr a w :: s.traceRev := hw
    rcases hacc with ⟨-, htr | htr⟩ | ⟨htr, -⟩ <;> rw [htr] at hw
    · exact absurd hw.symm (List.cons_ne_self _ _)
    · cases hw
    · cases hw
      exact ⟨rfl, rfl⟩
  · rcases hacc with ⟨hm, -⟩ | ⟨-, hm⟩
    · exact congrArg (readByte · y) hm
    · exact hm.2 y h0 h1

/-- Settles O52: a turn of the loop runs a timed micro-operation, and the completion moves none of it. -/
theorem timedWindowTouchesOnlyThePin : Obligations.TimedWindowTouchesOnlyThePin := by
  intro s t b hi hb hbind hu h
  rcases busyStep_cases hi hb with ⟨x, hx, hs⟩ | ⟨-, hs⟩ <;> rw [hs] at h
  · have timed : isTimed x.op = true := by
      rcases mprog_get hx with ⟨hn, -⟩ | ⟨hn, -⟩ | ⟨hn, -⟩ | ⟨hn, -⟩ | ⟨-, ho⟩
      iterate 4 omega
      exact ho
    exact runAndCount_window timed hbind (hi.shadowOk hb (by omega) b hbind) h
  · cases h
    refine ⟨fun _ _ _ => rfl, fun a w hw => ?_, fun _ _ _ => rfl, fun _ _ _ => rfl⟩
    have htr : (completeWrite s).traceRev = .ret .ok :: s.traceRev := rfl
    rw [htr] at hw
    cases hw

end Sys2Proof.Machine
end

section
/-! PROOFS. What every instruction writes (10_state.md R32, R37), and that it keeps the canonical forms of memory and of HELD
(R28, R29). -/

namespace Sys2Proof.Machine

/-! ## What an instruction that answers a next state has done -/

theorem whenIdle_eq_next {s t : State} {o : Out State} (h : whenIdle s o = .next t) : o = .next t := by
  unfold whenIdle at h
  split at h
  · cases h
  · exact h

theorem settle_eq_state {o : Out Flow} {t : State} (h : settle o = .next t) : ∃ f, o = .next f ∧ t = f.state := by
  obtain ⟨f, ho, ht⟩ := andThen_eq_next.mp h
  exact ⟨f, ho, (Host.Outcome.next.inj ht).symm⟩

/-- An operation that raised has ended; one that went on has run what follows it. -/
theorem settle_thenGo_eq_next {o : Out Flow} {f : State → Out State} {t : State}
    (h : settle (thenGo o fun s => going (f s)) = .next t) :
    ∃ x, o = .next x ∧ (t = x.state ∨ f x.state = .next t) := by
  rw [settle_thenGo_going] at h
  obtain ⟨x | x, ho, hx⟩ := andThen_eq_next.mp h
  · exact ⟨_, ho, .inr hx⟩
  · exact ⟨_, ho, .inl (Host.Outcome.next.inj hx).symm⟩

theorem execOpen_eq_next {s t : State} (h : execOpen s = .next t) : t = returnOk s :=
  (Host.Outcome.next.inj (whenIdle_eq_next h)).symm

theorem execClose_eq_next {s t : State} (h : execClose s = .next t) :
    ∃ u, releaseBinding s = .next u ∧ t = returnOk u := by
  obtain ⟨u, hu, ht⟩ := andThen_eq_next.mp (whenIdle_eq_next h)
  exact ⟨u, hu, (Host.Outcome.next.inj ht).symm⟩

theorem execResolve_eq_next {bank pin : Word} {s t : State} (h : execResolve bank pin s = .next t) :
    t = s ∨ ∃ e, t = failWith e s := by
  unfold execResolve withResolved at h
  split at h
  · exact .inr ⟨_, (Host.Outcome.next.inj h).symm⟩
  · cases h
  · exact .inl (Host.Outcome.next.inj h).symm

theorem execChain_eq_next {p : Word} {r g b : Byte} {s t : State} (h : execChain p r g b s = .next t) :
    runSlots (primsSlots s.cfg (chainPrims p.toNat r g b)) s = .next t := by
  unfold execChain at h
  split at h
  · cases h
  · exact h

/-- CORE_WRITE has ended before its loop, or has run a row of micro-operations and counted them. -/
theorem execCoreWrite_eq_next {s t : State} (h : execCoreWrite s = .next t) :
    ∃ f, enterCore s = .next f ∧
      (t = f.state ∨ ∃ l u n, runSlots l f.state = .next u ∧ t = u.setUpc n) := by
  obtain ⟨f, hf, ht | ht⟩ := settle_thenGo_eq_next h
  · exact ⟨f, hf, .inl ht⟩
  · rw [runList_runAndCount] at ht
    obtain ⟨u, hu, ht⟩ := andThen_eq_next.mp ht
    exact ⟨f, hf, .inr ⟨_, u, _, hu, (Host.Outcome.next.inj ht).symm⟩⟩

theorem releaseAddr_eq_next {a : Nat} {s t : State} (h : releaseAddr a s = .next t) :
    t = (s.setHeld (heldErase a s.held)).emit (.rel a) := by
  unfold releaseAddr at h
  split at h
  · exact (Host.Outcome.next.inj h).symm
  · cases h

/-! ## Frames by the names of the access table -/

/-- `t` differs from `s` at most in the pieces of state listed. -/
def WritesOnly (l : List Reg) (s t : State) : Prop := ∀ r, r ∉ l → r.same s t

theorem Reg.same_refl (s : State) (r : Reg) : r.same s s := by
  cases r with
  | status => exact ⟨rfl, rfl⟩
  | draws => exact ⟨rfl, rfl, rfl⟩
  | gpio => exact fun _ => rfl
  | _ => rfl

theorem Reg.same_trans {s t u : State} {r : Reg} (h : r.same s t) (k : r.same t u) : r.same s u := by
  cases r with
  | status => exact ⟨k.1.trans h.1, k.2.trans h.2⟩
  | draws => exact ⟨k.1.trans h.1, k.2.1.trans h.2.1, k.2.2.trans h.2.2⟩
  | gpio => exact fun a => (k a).trans (h a)
  | _ => exact Eq.trans k h

theorem WritesOnly.refl (l : List Reg) (s : State) : WritesOnly l s s := fun r _ => r.same_refl s

theorem WritesOnly.trans {l : List Reg} {s t u : State} (h : WritesOnly l s t) (k : WritesOnly l t u) : WritesOnly l s u :=
  fun r hr => Reg.same_trans (h r hr) (k r hr)

theorem WritesOnly.mono {l l' : List Reg} {s t : State} (h : WritesOnly l s t) (hl : l ⊆ l') : WritesOnly l' s t :=
  fun r hr => h r fun hm => hr (hl hm)

/-! The frames of Laws/ in these names. -/

theorem QuietFrame.writesOnly {s t : State} (h : QuietFrame s t) (hi : t.inbox = s.inbox) :
    WritesOnly [.latch, .binding, .busy, .upc, .now, .status, .held, .trace, .draws] s t := by
  intro r hr
  cases r <;> simp_all [Reg.same, h.temp, h.dtmp, h.mem, h.testMode, h.recordRev, h.cfg]

theorem StillFrame.writesOnly {s t : State} (h : StillFrame s t) :
    WritesOnly [.binding, .busy, .status, .held, .trace, .draws] s t := by
  intro r hr
  cases r <;> simp_all [Reg.same, h.temp, h.dtmp, h.mem, h.testMode, h.recordRev, h.cfg, h.latch, h.upc, h.now, h.inbox]

theorem MicroFrame.writesOnly {s t : State} (h : MicroFrame s t) :
    WritesOnly [.temp, .dtmp, .gpio, .now, .record, .trace, .draws] s t := by
  intro r hr
  cases r <;> simp_all [Reg.same, h.latch, h.binding, h.busy, h.upc, h.status, h.cause, h.held, h.testMode, h.cfg, h.inbox]

theorem TimedFrame.writesOnly {s t : State} (h : TimedFrame s t) :
    WritesOnly [.temp, .gpio, .now, .record, .trace] s t := by
  intro r hr
  cases r with
  | dtmp => exact h.dtmp
  | draws => exact ⟨h.acqDraws, h.upperDraws, h.drawCount⟩
  | _ => exact h.toMicroFrame.writesOnly _ (by simp_all)

/-! The shared operations. -/

theorem returnOk_writesOnly (s : State) : WritesOnly [.status, .trace] s (returnOk s) := by
  intro r hr
  cases r <;> simp_all [Reg.same, returnOk]

theorem failWith_writesOnly (e : Failure) (s : State) : WritesOnly [.status, .busy, .trace] s (failWith e s) := by
  intro r hr
  cases r <;> simp_all [Reg.same, failWith]

theorem acquire_writesOnly (a : Nat) (s : State) : WritesOnly [.held, .trace, .draws] s (acquire a s).2 := by
  obtain ⟨x, l, n, e⟩ := acquire_spec a s
  rw [e]
  intro r hr
  cases r <;> simp_all [Reg.same]

theorem releaseAddr_writesOnly {a : Nat} {s t : State} (h : releaseAddr a s = .next t) :
    WritesOnly [.held, .trace] s t := by
  obtain rfl := releaseAddr_eq_next h
  intro r hr
  cases r <;> simp_all [Reg.same]

theorem setBinding_writesOnly (s : State) (b : Option Binding) : WritesOnly [.binding] s (s.setBinding b) := by
  intro r hr
  cases r <;> simp_all [Reg.same]

theorem setUpc_writesOnly (s : State) (n : Nat) : WritesOnly [.upc] s (s.setUpc n) := by
  intro r hr
  cases r <;> simp_all [Reg.same]

theorem releaseBinding_writesOnly {s t : State} (h : releaseBinding s = .next t) :
    WritesOnly [.binding, .held, .trace] s t := by
  unfold releaseBinding at h
  split at h
  · cases h
    exact .refl _ _
  · obtain ⟨u, hu, h⟩ := andThen_eq_next.mp h
    obtain ⟨v, hv, h⟩ := andThen_eq_next.mp h
    cases h
    have hheld : ([.held, .trace] : List Reg) ⊆ [.binding, .held, .trace] := by decide
    exact (((releaseAddr_writesOnly hu).mono hheld).trans ((releaseAddr_writesOnly hv).mono hheld)).trans
      ((setBinding_writesOnly v none).mono (by decide))

theorem validate_writesOnly {bank pin pos : Word} {s : State} {f : Flow} (h : validate bank pin pos s = .next f) :
    WritesOnly [.status, .busy, .trace] s f.state := by
  obtain ⟨hf, hheld, hbinding, hacq, hcount, -⟩ := validate_frame h
  intro r hr
  cases r with
  | held => exact hheld
  | binding => exact hbinding
  | draws => exact ⟨hacq, hf.upperDraws, hcount⟩
  | _ => exact hf.writesOnly _ (by simp_all)

theorem enterCore_writesOnly {s : State} {f : Flow} (h : enterCore s = .next f) :
    WritesOnly [.binding, .busy, .upc, .now, .status, .held, .trace, .draws] s f.state := by
  obtain ⟨hf, hlatch, hinbox, -⟩ := enterCore_frame h
  intro r hr
  cases r with
  | latch => exact hlatch
  | _ => exact hf.writesOnly hinbox _ (by simp_all)

/-! The micro-operations. -/

/-- A micro-operation writes what the access table gives it. -/
theorem runMicro_writesOnly {op : MicroOp} {s t : State} (h : runMicro op s = .next t) :
    WritesOnly (mayWrite op.toInstr) s t := by
  intro r hr
  rcases runMicro_cases h with ⟨rfl, rfl⟩ | ⟨b, -, h⟩
  · cases r <;> simp_all [Reg.same, mayWrite, MicroOp.toInstr]
  · obtain ⟨_, _, hdir⟩ := drawUpper_spec b.dir s
    obtain ⟨_, _, hlvl⟩ := drawUpper_spec b.lvl s
    rcases h with ⟨rfl, -, rfl⟩ | ⟨rfl, -, rfl⟩ | ⟨rfl, -, rfl⟩ | ⟨rfl, -, rfl⟩ |
      ⟨w, ⟨rfl, -⟩ | ⟨rfl, -⟩, ⟨-, rfl⟩ | ⟨-, -, rfl⟩⟩
    all_goals cases r <;> simp_all [Reg.same, mayWrite, MicroOp.toInstr]

theorem noteMark_unmarked {x : Slot} (h : x.mark = none) (s : State) : noteMark x s = s := by
  simp [noteMark, h]

/-- The four configuration micro-operations mark no phase and take no tick (44_pin_lifecycle.md R163). -/
theorem runSlots_config_writesOnly {s t : State} (h : runSlots configSlots s = .next t) :
    WritesOnly [.temp, .dtmp, .gpio, .trace, .draws] s t := by
  refine runList_keeps (P := WritesOnly _ s) (fun x hx u v hu hv => hu.trans ?_) (.refl _ s) h
  have hslot : ∀ y ∈ configSlots, y.mark = none ∧ mayWrite y.op.toInstr ⊆ [.temp, .dtmp, .gpio, .trace, .draws] := by decide
  obtain ⟨hmark, hregs⟩ := hslot x hx
  rw [runSlot, noteMark_unmarked hmark] at hv
  exact (runMicro_writesOnly hv).mono hregs

/-! The composite operations. -/

theorem execClose_writesOnly {s t : State} (h : execClose s = .next t) :
    WritesOnly [.binding, .held, .status, .trace] s t := by
  obtain ⟨u, hu, rfl⟩ := execClose_eq_next h
  exact ((releaseBinding_writesOnly hu).mono (by decide)).trans ((returnOk_writesOnly u).mono (by decide))

theorem execResolve_writesOnly {bank pin : Word} {s t : State} (h : execResolve bank pin s = .next t) :
    WritesOnly [.status, .busy, .trace] s t := by
  rcases execResolve_eq_next h with rfl | ⟨e, rfl⟩
  · exact .refl _ _
  · exact failWith_writesOnly e s

theorem execPinOpen_writesOnly {bank pin : Word} {s t : State} (h : execPinOpen bank pin s = .next t) :
    WritesOnly [.binding, .temp, .dtmp, .busy, .status, .held, .gpio, .trace, .draws] s t := by
  obtain ⟨f, hf, ht⟩ := settle_thenGo_eq_next h
  have hmap := (mapPin_frame hf).1.writesOnly.mono
    (l' := [.binding, .temp, .dtmp, .busy, .status, .held, .gpio, .trace, .draws]) (by decide)
  rcases ht with rfl | ht
  · exact hmap
  · exact hmap.trans ((runSlots_config_writesOnly ht).mono (by decide))

theorem execCoreWrite_writesOnly {s t : State} (h : execCoreWrite s = .next t) :
    WritesOnly [.binding, .temp, .dtmp, .busy, .upc, .status, .held, .gpio, .now, .record, .trace, .draws] s t := by
  obtain ⟨f, hf, ht⟩ := execCoreWrite_eq_next h
  have henter := (enterCore_writesOnly hf).mono
    (l' := [.binding, .temp, .dtmp, .busy, .upc, .status, .held, .gpio, .now, .record, .trace, .draws]) (by decide)
  rcases ht with rfl | ⟨l, u, n, hu, rfl⟩
  · exact henter
  · exact (henter.trans ((runSlots_frame hu).writesOnly.mono (by decide))).trans ((setUpc_writesOnly u n).mono (by decide))

/-- Settles O53: instruction by instruction, a composite one by the frames of its parts. -/
theorem eachInstructionWritesOnlyItsState : Obligations.EachInstructionWritesOnlyItsState := by
  intro i s t h
  show WritesOnly (mayWrite i) s t
  cases i with
  | openCmd => exact execOpen_eq_next h ▸ returnOk_writesOnly s
  | writeCmd blk =>
    obtain ⟨hf, hinbox, -⟩ := execWrite_frame h
    exact hf.writesOnly hinbox
  | closeCmd => exact execClose_writesOnly h
  | validate bank pin pos =>
    obtain ⟨f, hf, rfl⟩ := settle_eq_state h
    exact validate_writesOnly hf
  | coreWrite => exact execCoreWrite_writesOnly h
  | resolve bank pin => exact execResolve_writesOnly h
  | acquire a => exact Host.Outcome.next.inj h ▸ acquire_writesOnly a s
  | pinOpen bank pin => exact execPinOpen_writesOnly h
  | release => exact releaseBinding_writesOnly h
  | chain p r g b => exact (runSlots_timedFrame (primsSlots_timed _ _) (execChain_eq_next h)).writesOnly
  | byte v => exact (runSlots_timedFrame (primsSlots_timed _ _) h).writesOnly
  | bit0 => exact (runSlots_timedFrame (primSlots_timed _ .bit0) h).writesOnly
  | bit1 => exact (runSlots_timedFrame (primSlots_timed _ .bit1) h).writesOnly
  | resetPulse => exact (runSlots_timedFrame (primSlots_timed _ .reset) h).writesOnly
  | rdDir => exact runMicro_writesOnly (op := .rdDir) h
  | wrDir => exact runMicro_writesOnly (op := .wrDir) h
  | rdLvl => exact runMicro_writesOnly (op := .rdLvl) h
  | wrLvlInit => exact runMicro_writesOnly (op := .wrLvlInit) h
  | wrHigh => exact runMicro_writesOnly (op := .wrHigh) h
  | wrLow => exact runMicro_writesOnly (op := .wrLow) h
  | dwell => exact runMicro_writesOnly (op := .dwell) h

/-! ## Canonical forms -/

/-- The canonical forms of memory and of HELD carry over from `s` to `t` (logs 6, 27). -/
def KeepsForms (s t : State) : Prop := (Memory.wf s.mem → Memory.wf t.mem) ∧ (heldWf s.held → heldWf t.held)

theorem KeepsForms.refl (s : State) : KeepsForms s s := ⟨id, id⟩

theorem KeepsForms.trans {s t u : State} (h : KeepsForms s t) (k : KeepsForms t u) : KeepsForms s u :=
  ⟨k.1 ∘ h.1, k.2 ∘ h.2⟩

theorem QuietFrame.keepsForms {s t : State} (h : QuietFrame s t) : KeepsForms s t :=
  ⟨fun hm => h.mem ▸ hm, h.heldWf⟩

theorem runMicro_keepsForms {op : MicroOp} {s t : State} (h : runMicro op s = .next t) : KeepsForms s t :=
  ⟨runMicro_wf h, fun hh => (runMicro_frame h).held ▸ hh⟩

theorem runSlots_keepsForms {l : List Slot} {s t : State} (h : runSlots l s = .next t) : KeepsForms s t :=
  ⟨runSlots_wf h, fun hh => (runSlots_frame h).held ▸ hh⟩

theorem execClose_keepsForms {s t : State} (h : execClose s = .next t) : KeepsForms s t := by
  obtain ⟨u, hu, rfl⟩ := execClose_eq_next h
  exact ((releaseBinding_frame hu).toQuietFrame.trans (returnOk_frame u).toQuietFrame).keepsForms

theorem execResolve_keepsForms {bank pin : Word} {s t : State} (h : execResolve bank pin s = .next t) : KeepsForms s t := by
  rcases execResolve_eq_next h with rfl | ⟨e, rfl⟩
  · exact .refl _
  · exact (failWith_frame e s).keepsForms

theorem execPinOpen_keepsForms {bank pin : Word} {s t : State} (h : execPinOpen bank pin s = .next t) : KeepsForms s t := by
  obtain ⟨f, hf, ht⟩ := settle_thenGo_eq_next h
  have hmap := (mapPin_frame hf).1.keepsForms
  rcases ht with rfl | ht
  · exact hmap
  · exact hmap.trans (runSlots_keepsForms ht)

theorem execCoreWrite_keepsForms {s t : State} (h : execCoreWrite s = .next t) : KeepsForms s t := by
  obtain ⟨f, hf, ht⟩ := execCoreWrite_eq_next h
  have henter := (enterCore_frame hf).1.keepsForms
  rcases ht with rfl | ⟨l, u, n, hu, rfl⟩
  · exact henter
  · have hloop : KeepsForms f.state u := runSlots_keepsForms hu
    exact henter.trans hloop

/-- Settles O54: only a register write stores bytes, and only acquisitions and releases change HELD. -/
theorem everyInstructionKeepsCanonicalForms : Obligations.EveryInstructionKeepsCanonicalForms := by
  intro i s t h
  show KeepsForms s t
  cases i with
  | openCmd => exact execOpen_eq_next h ▸ (returnOk_frame s).keepsForms
  | writeCmd blk => exact (execWrite_frame h).1.keepsForms
  | closeCmd => exact execClose_keepsForms h
  | validate bank pin pos =>
    obtain ⟨f, hf, rfl⟩ := settle_eq_state h
    exact (validate_frame hf).1.keepsForms
  | coreWrite => exact execCoreWrite_keepsForms h
  | resolve bank pin => exact execResolve_keepsForms h
  | acquire a => exact Host.Outcome.next.inj h ▸ (acquire_frame a s).keepsForms
  | pinOpen bank pin => exact execPinOpen_keepsForms h
  | release => exact (releaseBinding_frame h).keepsForms
  | chain p r g b => exact runSlots_keepsForms (execChain_eq_next h)
  | byte v => exact runSlots_keepsForms h
  | bit0 => exact runSlots_keepsForms h
  | bit1 => exact runSlots_keepsForms h
  | resetPulse => exact runSlots_keepsForms h
  | rdDir => exact runMicro_keepsForms (op := .rdDir) h
  | wrDir => exact runMicro_keepsForms (op := .wrDir) h
  | rdLvl => exact runMicro_keepsForms (op := .rdLvl) h
  | wrLvlInit => exact runMicro_keepsForms (op := .wrLvlInit) h
  | wrHigh => exact runMicro_keepsForms (op := .wrHigh) h
  | wrLow => exact runMicro_keepsForms (op := .wrLow) h
  | dwell => exact runMicro_keepsForms (op := .dwell) h

end Sys2Proof.Machine
end

section
/-! PROOFS. Where a register access stops (10_state.md R22, R36; 20_memory.md R53), and the state at reset (R35). -/

namespace Sys2Proof.Machine

/-! ## Where a register access stops -/

theorem withBinding_none {s : State} (h : s.binding = none) (f : Binding → Out State) :
    withBinding s f = .fault .bindingUnmapped := by
  rw [withBinding, h]

theorem memRead_outside {a : Nat} {s : State} (h : isRegister s.cfg a = false) :
    memRead a s = .fault (.outsideRegisterMap a) := if_neg (by simp [h])

theorem memWrite_outside {a : Nat} {s : State} (h : isRegister s.cfg a = false) (w : Word) :
    memWrite a w s = .fault (.outsideRegisterMap a) := if_neg (by simp [h])

theorem pulseWrite_outside {s : State} {b : Binding} (h : isRegister s.cfg b.lvl = false) (ht : s.testing = false)
    (w : Word) : pulseWrite b w s = .fault (.outsideRegisterMap b.lvl) := by
  rw [pulseWrite, if_neg (by simp [ht]), memWrite_outside (s := s.setTemp w) h, andThen_fault]

/-- Settles O21: without a binding no micro-operation has an address, and at an address outside the map no access is made. -/
theorem accessWithoutABindingFaults : Obligations.AccessWithoutABindingFaults := by
  refine fun s => ⟨fun hb i hi => ?_, fun b hb => ⟨fun hr i hi => ?_, fun hr i hi => ?_, fun hr ht i hi => ?_⟩⟩ <;>
    simp only [List.mem_cons, List.not_mem_nil, or_false] at hi
  · rcases hi with rfl | rfl | rfl | rfl | rfl | rfl <;> exact withBinding_none hb _
  · rcases hi with rfl | rfl <;> refine (withBinding_some hb _).trans ?_
    · rw [memRead_outside hr, andThen_fault]
    · exact memWrite_outside (s := s.setDtmp (enablePin s.dtmp b.off)) hr _
  · rcases hi with rfl | rfl <;> refine (withBinding_some hb _).trans ?_
    · rw [memRead_outside hr, andThen_fault]
    · exact memWrite_outside (s := s.setTemp (enablePin s.temp b.off)) hr _
  · rcases hi with rfl | rfl <;> exact (withBinding_some hb _).trans (pulseWrite_outside hr ht _)

/-! ## Reset -/

/-- Settles O1: every value is a field of the literal `State.reset`. -/
theorem resetLeavesTheSpecifiedValues : Obligations.ResetLeavesTheSpecifiedValues :=
  ⟨rfl, rfl, rfl, rfl, rfl, rfl⟩

theorem illustration_wf : Config.illustration.wf := by decide

/-- Settles O2: the engine is idle, unbound and holds nothing, and its trace is empty. -/
theorem invariantHoldsAtReset : Obligations.InvariantHoldsAtReset := by
  have unbound : ∀ b, State.reset.binding ≠ some b := fun b h => by cases h
  refine ⟨.of_idle illustration_wf .nil rfl (fun b h => absurd h (unbound b)) rfl (fun b h => absurd h (unbound b)), ?_⟩
  exact fun a => rfl

end Sys2Proof.Machine
end

section
/-! PROOFS. The GPIO register space: masked writes, reads without side effect, and the pin line (20_memory.md R57, R58, R59). -/

namespace Sys2Proof.Machine

/-! ## A register access -/

/-- Settles O15: the stored data bits are the masked write of the old ones; only memory and the trace change. -/
theorem maskedWriteUpdatesMaskedBits : Obligations.MaskedWriteUpdatesMaskedBits := fun s a w hr =>
  ⟨_, memWrite_next hr, maskedStore_storeData s.mem a w, fun hm => Memory.wf_storeData hm a _, rfl⟩

/-- Bits 31:16 of the word a read returns are the upper half drawn for it. -/
theorem maskHalf_readWord (a : Nat) (s : State) : maskHalf (readWord a s).1 = (drawUpper a s).1 :=
  BitVec.eq_of_getLsbD_eq fun n hn => by
    rw [maskHalf, BitVec.getLsbD_extractLsb', decide_eq_true hn, Bool.true_and]
    exact readWord_high a s n

/-- Recording an event after the draw of an upper half leaves all but the trace and the draws as they were. -/
theorem drawUpper_emit_state (a : Nat) (s : State) (e : Event) :
    (drawUpper a s).2.emit e = { s with traceRev := e :: s.traceRev, upperDraws := (drawUpper a s).2.upperDraws,
                                        drawCount := (drawUpper a s).2.drawCount } := by
  rw [drawUpper_state]
  rfl

/-- Settles O16: the data half of the word read is the register's, its upper half the draw, which is the environment's next
one where one is listed. -/
theorem readReturnsDataBitsUnderAnyUpperHalf : Obligations.ReadReturnsDataBitsUnderAnyUpperHalf := by
  refine fun s a hr => ⟨⟨_, _, memRead_next hr, dataHalf_readWord a s, drawUpper_emit_state a s _⟩, fun x rest hd => ?_⟩
  have draw : drawUpper a s = (x, s.setUpperDraws rest) := drawUpper_cons hd a
  refine ⟨_, _, memRead_next hr, ?_, dataHalf_readWord a s, ?_, ?_⟩
  · rw [maskHalf_readWord, draw]
  · rw [draw]; rfl
  · rw [draw]; rfl

/-! ## The pin line -/

theorem pinLevel_of_driven {m : Memory} {b : Binding} (h : (regData m b.dir).getLsbD b.off = true) :
    pinLevel m b = some ((regData m b.lvl).getLsbD b.off) := if_pos h

theorem pinLevel_of_not_driven {m : Memory} {b : Binding} (h : (regData m b.dir).getLsbD b.off = false) :
    pinLevel m b = none := if_neg (ne_true_of_eq_false h)

/-- Settles O58: the direction data bit decides whether the line has a level. -/
theorem pinLevelFollowsTheDataBits : Obligations.PinLevelFollowsTheDataBits := fun _ _ =>
  ⟨pinLevel_of_driven, pinLevel_of_not_driven⟩

end Sys2Proof.Machine
end

section
/-! PROOFS. The decoder and the encoder agree (30_encoding.md R80 to R88): the u32 fields, the request block, the commands and
pulses, and the fetch of a table word. -/

namespace Sys2Proof

/-! ## The u32 fields (R82) -/

theorem toNat_le32 (b0 b1 b2 b3 : Byte) :
    (le32 b0 b1 b2 b3).toNat = b0.toNat + 256 * b1.toNat + 65536 * b2.toNat + 16777216 * b3.toNat :=
  BitVec.toNat_ofNat .. |>.trans (Nat.mod_eq_of_lt (by omega))

theorem toNat_byteOfWord (w : Word) (k : Nat) : (byteOfWord w k).toNat = w.toNat / 2 ^ (8 * k) % 256 := by
  rw [byteOfWord, BitVec.extractLsb'_toNat, Nat.shiftRight_eq_div_pow]

@[simp] theorem le32_byteOfWord (w : Word) :
    le32 (byteOfWord w 0) (byteOfWord w 1) (byteOfWord w 2) (byteOfWord w 3) = w := by
  apply BitVec.eq_of_toNat_eq
  simp only [toNat_le32, toNat_byteOfWord]
  omega

@[simp] theorem bytesOfWord_le32 (b0 b1 b2 b3 : Byte) : bytesOfWord (le32 b0 b1 b2 b3) = [b0, b1, b2, b3] := by
  simp only [bytesOfWord, List.cons.injEq, and_true]
  refine ⟨?_, ?_, ?_, ?_⟩ <;> apply BitVec.eq_of_toNat_eq <;> rw [toNat_byteOfWord, toNat_le32] <;> omega

/-! ## The request block (R81, R82) -/

/-- A list of REQ_SIZE bytes, byte by byte. -/
theorem exists_bytes_of_length {blk : List Byte} (h : blk.length = 16) :
    ∃ b0 b1 b2 b3 b4 b5 b6 b7 b8 b9 b10 b11 b12 b13 b14 b15,
      blk = [b0, b1, b2, b3, b4, b5, b6, b7, b8, b9, b10, b11, b12, b13, b14, b15] := by
  match blk, h with
  | [_, _, _, _, _, _, _, _, _, _, _, _, _, _, _, _], _ => exact ⟨_, _, _, _, _, _, _, _, _, _, _, _, _, _, _, _, rfl⟩

theorem requestOfBlock_of_length_ne {blk : List Byte} (h : blk.length ≠ 16) : requestOfBlock blk = none := by
  unfold requestOfBlock
  split
  · exact absurd rfl h
  · rfl

theorem requestOfBlock_blockOfRequest (q : Request) (pad : Byte) :
    requestOfBlock (blockOfRequest q pad) = some q := by
  simp [blockOfRequest, bytesOfWord, requestOfBlock]

/-- The blocks with fields are the blocks of the requests, whatever the pad byte. -/
theorem requestOfBlock_eq_some {blk : List Byte} {q : Request} :
    requestOfBlock blk = some q ↔ ∃ pad, blk = blockOfRequest q pad := by
  refine ⟨fun h => ?_, fun ⟨pad, h⟩ => h ▸ requestOfBlock_blockOfRequest q pad⟩
  have hlen : blk.length = 16 := by
    by_contra hne
    rw [requestOfBlock_of_length_ne hne] at h
    cases h
  obtain ⟨_, _, _, _, _, _, _, _, _, _, _, _, _, _, _, pad, rfl⟩ := exists_bytes_of_length hlen
  cases h
  exact ⟨pad, by simp [blockOfRequest]⟩

/-- Settles O9: a block of 16 bytes is read byte by byte, and a u32 field of four bytes does not wrap. -/
theorem requestFieldsAreLittleEndianSums : Obligations.RequestFieldsAreLittleEndianSums := by
  refine fun blk => ⟨requestOfBlock_of_length_ne, fun h => ?_⟩
  obtain ⟨_, _, _, _, _, _, _, _, _, _, _, _, _, _, _, _, rfl⟩ := exists_bytes_of_length h
  exact ⟨_, rfl, toNat_le32 .., toNat_le32 .., toNat_le32 .., rfl, rfl, rfl⟩

/-! ## Commands and pulses (R85, R87) -/

open Laws.FormatOfEncoding in
/-- The encoder's words have the format of the instruction's row and decode to it, for every row. -/
theorem format_of_encoding (i : Instr) : Statement i := by
  cases i
  exacts [openCmd, writeCmd _, closeCmd, validate .., coreWrite, resolve .., acquire _, pinOpen .., release, chain ..,
    byte _, bit0, bit1, resetPulse, rdDir, wrDir, rdLvl, wrLvlInit, wrHigh, wrLow, dwell]

theorem decode_of_encode {i : Instr} {e : Encoded} (h : encode i = some e) : decode e = .ok i := by
  have hi := format_of_encoding i
  rw [Laws.FormatOfEncoding.Statement, h] at hi
  cases e with
  | command c => exact hi.2.1
  | pulse x => exact congrArg Except.ok hi.1

/-- What the command decoder does with a submission: a well-formed one is the encoding of what it decodes to, and any other
is rejected. -/
theorem decodeCommand_cases (c : Submission) :
    (c.wellFormed = true ∧ ∃ i, decodeCommand c = .ok i ∧ encode i = some (.command c)) ∨
    (c.wellFormed = false ∧ ∃ err, decodeCommand c = .error err) := by
  obtain ⟨cmd, blk⟩ := c
  have hcmd : cmd = 0 ∨ cmd = 1 ∨ cmd = 2 ∨ cmd = 3 := by revert cmd; decide
  rcases hcmd with rfl | rfl | rfl | rfl
  · cases blk with
    | nil => exact .inl ⟨rfl, _, rfl, rfl⟩
    | cons => exact .inr ⟨rfl, _, rfl⟩
  · exact .inl ⟨rfl, _, rfl, rfl⟩
  · cases blk with
    | nil => exact .inl ⟨rfl, _, rfl, rfl⟩
    | cons => exact .inr ⟨rfl, _, rfl⟩
  · exact .inr ⟨rfl, _, rfl⟩

theorem encode_of_decode {e : Encoded} {i : Instr} (h : decode e = .ok i) : encode i = some e := by
  cases e with
  | command c =>
    rcases decodeCommand_cases c with ⟨-, j, hj, henc⟩ | ⟨-, err, herr⟩
    · cases hj.symm.trans h
      exact henc
    · cases herr.symm.trans h
  | pulse x =>
    cases h
    cases x <;> rfl

theorem wellFormed_iff_decodes (c : Submission) : c.wellFormed = true ↔ ∃ i, decode (.command c) = .ok i := by
  rcases decodeCommand_cases c with ⟨hw, i, hi, -⟩ | ⟨hw, err, herr⟩
  · exact iff_of_true hw ⟨i, hi⟩
  · refine iff_of_false (by simp [hw]) fun ⟨i, hi⟩ => ?_
    cases herr.symm.trans hi

/-- Settles O10: the block level by the round trip of the request, the command and pulse levels by what the decoder can do. -/
theorem encodingsRoundTrip : Obligations.EncodingsRoundTrip :=
  ⟨fun q pad => ⟨⟨1, blockOfRequest q pad⟩, rfl, rfl, decode_of_encode rfl, requestOfBlock_blockOfRequest q pad⟩,
    fun _ _ => decode_of_encode, fun _ _ => encode_of_decode, fun _ _ => requestOfBlock_eq_some.mp,
    wellFormed_iff_decodes⟩

/-- Settles O8: every command and data bit is the encoding of its instruction, and the block is that of its request with the
pad byte 0. -/
theorem writtenOutWordsDecode : Obligations.WrittenOutWordsDecode :=
  ⟨decode_of_encode rfl, decode_of_encode rfl, decode_of_encode rfl, requestOfBlock_eq_some.mpr ⟨0, by decide⟩,
    decode_of_encode rfl, decode_of_encode rfl⟩

end Sys2Proof

namespace Sys2Proof.Machine

/-! ## The fetch of a table word (R85) -/

theorem decode_submissionOfWord {nbits w : Nat} {i : Instr} (h : decodeTableWord nbits w = some i) :
    decode (.command (submissionOfWord nbits w)) = .ok i := by
  unfold decodeTableWord at h
  split at h
  · cases h
  · split at h
    · next hi =>
      cases h
      exact hi
    · cases h

/-- R191: an idle engine runs the command at the head of its inbox. -/
theorem step_command {s : State} {c : Submission} {rest : List Submission} {i : Instr} (hb : s.busy = false)
    (hc : s.inbox = c :: rest) (hi : decode (.command c) = .ok i) : step s = exec i (s.setInbox rest) := by
  rw [step, if_neg (by simp [hb]), idleStep, hc]
  simp only [hi]

/-- Settles O5: the placed word is the next command of an idle engine, and taking it leaves the host's queue as it was. -/
theorem tableWordsAreFetchedAndRun : Obligations.TableWordsAreFetchedAndRun := fun _ _ _ _ h =>
  step_command rfl rfl (decode_submissionOfWord h)

end Sys2Proof.Machine
end

section
/-! PROOFS. RESOLVE executed by itself, the pin table, and what holds of every result (40_pin_resolver.md R100 to R104). -/

namespace Sys2Proof.Machine

/-! ## The three ways RESOLVE ends -/

theorem execResolve_outOfRange {s : State} {bank pin : Word} (h : bank.toNat > 4 ∨ pin.toNat > 31) :
    execResolve bank pin s = .next (failWith (.invalidAddressParameters bank pin) s) := by
  simp [execResolve, withResolved, resolve_outOfRange h]

theorem execResolve_noRegister {s : State} {bank pin : Word} (hb : bank.toNat ≤ 4) (hp : pin.toNat ≤ 31)
    (hs : pinStep s.cfg pin.toNat > 1) : execResolve bank pin s = .refused (.noRegisterForPin pin) := by
  simp [execResolve, withResolved, resolve_noRegister hb hp hs]

theorem execResolve_found {s : State} {bank pin : Word} {b : Binding}
    (h : resolve s.cfg bank.toNat pin.toNat = .found b) : execResolve bank pin s = .next s := by
  simp [execResolve, withResolved, h]

theorem bankBase_of_pos (c : Config) {bank : Nat} (h : 1 ≤ bank) :
    bankBase c bank = c.gpio1Base + (bank - 1) * 0x10000 := by
  obtain ⟨k, rfl⟩ := Nat.exists_eq_add_of_le' h
  exact bankBase_succ c k

/-- Settles O11: each clause by the way RESOLVE ends there; the addresses by the base of the bank, which is GPIO0_BASE for
bank 0 and GPIO1_BASE plus the strides for the others. -/
theorem resolveFollowsTheFormula : Obligations.ResolveFollowsTheFormula := by
  intro s bank pin
  refine ⟨execResolve_outOfRange, execResolve_noRegister, fun hb hp hs => ?_⟩
  obtain ⟨b, hr⟩ := resolve_isFound hb hp hs
  obtain ⟨-, -, -, hlvl, hdir, hoff⟩ := resolve_found hr
  unfold pinStep at hlvl
  refine ⟨execResolve_found hr, b, hr, congrArg Fin.val hoff, fun h0 => ?_, fun h1 => ?_⟩
  · rw [h0, bankBase_zero] at hlvl
    omega
  · rw [bankBase_of_pos _ h1] at hlvl
    omega

/-! ## The pin table (R104) -/

theorem pinOff_val (pin : Nat) : (pinOff pin).val = pin % 16 := rfl

theorem pinOff_table {pin : Nat} (h : pin < 32) : (pinOff pin).val = if pin ≤ 15 then pin else pin - 16 := by
  rw [pinOff_val]
  split <;> omega

theorem pinStep_table_15 {c : Config} (hc : c.halfDiv = 15) {pin : Nat} (h : pin < 32) :
    pinStep c pin = if pin ≤ 14 then 0 else if pin ≤ 29 then 1 else 2 := by
  rw [pinStep, hc]
  split_ifs <;> omega

theorem pinStep_table_16 {c : Config} (hc : c.halfDiv = 16) {pin : Nat} (h : pin < 32) :
    pinStep c pin = if pin ≤ 15 then 0 else 1 := by
  rw [pinStep, hc]
  split <;> omega

/-- The low half ends at pin 14. -/
theorem lowHalf_not_off_15 {c : Config} (hc : c.halfDiv = 15) (pin : Nat) :
    ¬ (pinStep c pin = 0 ∧ (pinOff pin).val = 15) := by
  rintro ⟨hs, ho⟩
  rw [pinStep, hc] at hs
  rw [pinOff_val] at ho
  omega

/-- The high half starts at pin 15, whose offset is 15, and ends at pin 29, whose offset is 13. -/
theorem highHalf_not_off_14 {c : Config} (hc : c.halfDiv = 15) (pin : Nat) :
    ¬ (pinStep c pin = 1 ∧ (pinOff pin).val = 14) := by
  rintro ⟨hs, ho⟩
  rw [pinStep, hc] at hs
  rw [pinOff_val] at ho
  omega

/-- With the divisor 15 the half and the offset give the pin back: offset 15 is pin 15's, which lies in the high half. -/
theorem pin_of_step_off_15 {c : Config} (hc : c.halfDiv = 15) {pin : Nat} (hs : pinStep c pin ≤ 1) :
    pin = if pinStep c pin = 0 ∨ (pinOff pin).val = 15 then (pinOff pin).val else (pinOff pin).val + 16 := by
  rw [pinStep, hc] at hs ⊢
  rw [pinOff_val]
  split <;> omega

/-- With the divisor 16 the half and the offset are the quotient and the remainder by 16. -/
theorem pin_of_step_off_16 {c : Config} (hc : c.halfDiv = 16) (pin : Nat) :
    pin = 16 * pinStep c pin + (pinOff pin).val := by
  rw [pinStep, hc]
  exact (Nat.div_add_mod pin 16).symm

theorem pinStep_mul_add {c : Config} (hc : c.halfDiv = 16) (half : Nat) (off : Fin 16) :
    pinStep c (16 * half + off.val) = half := by
  rw [pinStep, hc]
  omega

theorem pinOff_mul_add (half : Nat) (off : Fin 16) : pinOff (16 * half + off.val) = off :=
  Fin.ext ((Nat.mul_add_mod 16 half off.val).trans (Nat.mod_eq_of_lt off.isLt))

/-- Settles O12: the table by the ranges of the pin, and one pin for a half and an offset because they give the pin back. -/
theorem pinTableForBothDivisors : Obligations.PinTableForBothDivisors := by
  refine ⟨fun c hc pin h => ?_, fun c hc => ⟨fun pin h => ⟨pinStep_table_16 hc h, pinOff_table h⟩, fun half hh off => ?_⟩⟩
  · refine ⟨pinStep_table_15 hc h, pinOff_table h, lowHalf_not_off_15 hc pin, highHalf_not_off_14 hc pin,
      fun pin' _ hs hs' ho => ?_⟩
    rw [pin_of_step_off_15 hc (hs'.trans_le hs), hs', ho, ← pin_of_step_off_15 hc hs]
  · refine ⟨16 * half + off.val, by omega, pinStep_mul_add hc half off, pinOff_mul_add half off, ?_⟩
    rintro pin' - rfl rfl
    exact pin_of_step_off_16 hc pin'

/-! ## What holds of every result (R103) -/

theorem bankBase_mod_four {c : Config} (hw : c.wf) (bank : Nat) : bankBase c bank % 4 = 0 := by
  obtain ⟨-, h0, h1, -⟩ := hw
  cases bank with
  | zero => exact h0
  | succ k =>
    simp only [bankBase_succ, BANK_STRIDE]
    omega

/-- Settles O13: the addresses lie 8 apart above a base that is a multiple of 4, and the binding lies in one bank. -/
theorem resolvedAddressesAgree : Obligations.ResolvedAddressesAgree := by
  intro c bank pin b hw h
  obtain ⟨-, -, -, hlvl, hdir, -⟩ := resolve_found h
  have hbase := bankBase_mod_four hw bank
  have hok := resolve_ok h
  exact ⟨hdir, by omega, by omega, by omega, Nat.le_of_lt_succ b.off.isLt, hok.dir_isRegister, hok.lvl_isRegister, hok⟩

end Sys2Proof.Machine
end

section
/-! PROOFS. The pulse writes, DWELL and the pulse primitives (41_pulse_primitives.md R115 to R119), and the test mode's record of
primitives, bytes and chains (R123). -/

namespace Sys2Proof.Machine

/-! ## DWELL and the pulse writes -/

/-- Settles O20: DWELL accesses nothing, so it needs neither a binding nor a register. -/
theorem dwellOnlyPassesATick : Obligations.DwellOnlyPassesATick := fun _ => rfl

theorem execWrHigh_some {s : State} {b : Binding} (hb : s.binding = some b) :
    execWrHigh s = pulseWrite b (setPin s.temp b.off) s := withBinding_some hb _

theorem execWrLow_some {s : State} {b : Binding} (hb : s.binding = some b) :
    execWrLow s = pulseWrite b (clearPin s.temp b.off) s := withBinding_some hb _

/-- An instruction that writes the shadow with the pin's bit at `v` puts the pin's data bit at `v` where the mask lets it. -/
theorem exec_pulseWrite {i : Instr} {s : State} {b : Binding} {w : Word} {v : Bool} (hi : exec i s = pulseWrite b w s)
    (hw : ∀ n < 32, w.getLsbD n = if n = b.off.val then v else s.temp.getLsbD n) (hp : Pulsable s b)
    (ht : s.testing = false) :
    ∃ t, exec i s = .next t ∧ (∀ n < 32, t.temp.getLsbD n = if n = b.off.val then v else s.temp.getLsbD n) ∧
      MaskedStore b.lvl t.temp s.mem t.mem ∧
      (s.temp.getLsbD (b.off + 16) = true → (regData t.mem b.lvl).getLsbD b.off = v) ∧
      t = { s with temp := t.temp, mem := t.mem, now := s.now + 1, traceRev := .wr b.lvl t.temp :: s.traceRev } := by
  have store : MaskedStore b.lvl w s.mem _ := maskedStore_storeData s.mem b.lvl w
  refine ⟨_, hi.trans (pulseWrite_next hp.2 ht), hw, store, fun hm => ?_, rfl⟩
  have mask : w.getLsbD (b.off + 16) = true := by rw [hw _ (by omega), if_neg (by omega), hm]
  exact (store.pin mask).trans (by rw [hw _ (by omega), if_pos rfl])

/-- Settles O19: both are the pulse write of the shadow with the pin's bit set or cleared. -/
theorem pulseWritesChangeOnlyThePinBit : Obligations.PulseWritesChangeOnlyThePinBit := by
  intro s b hp ht p hmem
  simp only [List.mem_cons, List.not_mem_nil, or_false] at hmem
  rcases hmem with rfl | rfl
  · exact exec_pulseWrite (execWrHigh_some hp.1) (fun _ => setPin_bit _ _) hp ht
  · exact exec_pulseWrite (execWrLow_some hp.1) (fun _ => clearPin_bit _ _) hp ht

/-! ## What the primitives expand to -/

theorem primsSlots_singleton (c : Config) (p : Prim) : primsSlots c [p] = primSlots c p := List.flatMap_singleton _ _

theorem exec_prim (p : Prim) (s : State) : exec p.toInstr s = runSlots (primsSlots s.cfg [p]) s := by
  rw [primsSlots_singleton]
  cases p <;> rfl

theorem bitPrim_ops (c : Config) (x : Bool) : (primsSlots c [primOfBit x]).map Slot.op =
    List.replicate (highTicks c x) .wrHigh ++ List.replicate (lowTicks c x) .wrLow := by
  rw [primsSlots_singleton]
  cases x
  · exact bit0Slots_ops c
  · exact bit1Slots_ops c

theorem resetPrim_ops (c : Config) :
    (primsSlots c [.reset]).map Slot.op = .wrLow :: List.replicate (c.nrst - 1) .dwell := by
  rw [primsSlots_singleton]
  exact resetSlots_ops c

theorem bitPrim_length (c : Config) (x : Bool) :
    (primsSlots c [primOfBit x]).length = highTicks c x + lowTicks c x := by
  simpa using congrArg List.length (bitPrim_ops c x)

theorem resetPrim_length {c : Config} (hc : c.wf) : (primsSlots c [.reset]).length = c.nrst := by
  rw [primsSlots_singleton]
  exact resetSlots_length hc

/-- Every primitive drives the line low. -/
theorem wrLow_mem_primSlots {c : Config} (hc : c.wf) (p : Prim) : .wrLow ∈ (primSlots c p).map Slot.op := by
  obtain ⟨-, -, -, -, -, h0l, -, h1l, -, -⟩ := hc
  cases p with
  | bit0 => exact bit0Slots_ops c ▸ List.mem_append_right _ (List.mem_replicate.mpr ⟨by omega, rfl⟩)
  | bit1 => exact bit1Slots_ops c ▸ List.mem_append_right _ (List.mem_replicate.mpr ⟨by omega, rfl⟩)
  | reset => exact resetSlots_ops c ▸ List.mem_cons_self

theorem not_all_dwell {c : Config} (hc : c.wf) {l : List Prim} (hl : l ≠ []) : ¬ ∀ x ∈ primsSlots c l, x.op = .dwell := by
  intro h
  obtain ⟨p, hp⟩ := List.exists_mem_of_ne_nil l hl
  obtain ⟨x, hx, hlow⟩ := List.mem_map.mp (wrLow_mem_primSlots hc p)
  have hdwell := h x (List.mem_flatMap.mpr ⟨p, hp, hx⟩)
  rw [hlow] at hdwell
  cases hdwell

/-! ## Primitives outside the test mode -/

/-- Primitives in a row outside the test mode: the events of their micro-operations, a tick for each, and the pin's bit cleared
in the shadow, as the last write left it in the level register. -/
theorem runSlots_prims {s : State} {b : Binding} (hp : Pulsable s b) (ht : s.testing = false) (hc : s.cfg.wf) {l : List Prim}
    (hl : l ≠ []) :
    ∃ t, runSlots (primsSlots s.cfg l) s = .next t ∧
      t.trace = s.trace ++ eventsOf b s.temp ((primsSlots s.cfg l).map Slot.op) ∧
      t.temp = clearPin s.temp b.off ∧ MaskedStore b.lvl t.temp s.mem t.mem ∧
      t = { s with temp := t.temp, mem := t.mem, now := s.now + (primsSlots s.cfg l).length, traceRev := t.traceRev } := by
  obtain ⟨m, hrun, hm, -⟩ := runSlots_timed hp ht (primsSlots_timed s.cfg l)
  have hstore := hm.resolve_left fun h => not_all_dwell hc hl h.1
  exact ⟨_, hrun, by simp [State.trace], tempAfter_prims hc _ _ hl, hstore, rfl⟩

/-- Whatever a row has done to the pin's bit of the shadow, clearing it gives one word. -/
theorem clearPin_tempAfter (off : Fin 16) (w : Word) (ops : List MicroOp) :
    clearPin (tempAfter off w ops) off = clearPin w off := by
  rcases tempAfter_cases off w ops with h | h | h <;> rw [h]
  · exact clearPin_setPin w off
  · exact clearPin_clearPin w off

theorem eventsOf_bitPrim (b : Binding) (w : Word) (c : Config) (x : Bool) :
    eventsOf b w ((primsSlots c [primOfBit x]).map Slot.op) =
      List.replicate (highTicks c x) (.wr b.lvl (setPin w b.off)) ++
        List.replicate (lowTicks c x) (.wr b.lvl (clearPin w b.off)) := by
  rw [bitPrim_ops, eventsOf_append, eventsOf_high, eventsOf_low, clearPin_tempAfter]

theorem eventsOf_resetPrim (b : Binding) (w : Word) (c : Config) :
    eventsOf b w ((primsSlots c [.reset]).map Slot.op) =
      .wr b.lvl (clearPin w b.off) :: List.replicate (c.nrst - 1) .dwell := by
  rw [resetPrim_ops, eventsOf, eventsOf_dwell]

/-- The pulse of a data bit outside the test mode (R116, R117). -/
theorem exec_bitPrim {s : State} {b : Binding} (hp : Pulsable s b) (ht : s.testing = false) (hc : s.cfg.wf) (x : Bool) :
    ∃ t, exec (primOfBit x).toInstr s = .next t ∧
      t.trace = s.trace ++ List.replicate (highTicks s.cfg x) (.wr b.lvl (setPin s.temp b.off)) ++
        List.replicate (lowTicks s.cfg x) (.wr b.lvl (clearPin s.temp b.off)) ∧
      t.temp = clearPin s.temp b.off ∧ MaskedStore b.lvl t.temp s.mem t.mem ∧
      t = { s with temp := t.temp, mem := t.mem, now := s.now + highTicks s.cfg x + lowTicks s.cfg x,
                   traceRev := t.traceRev } := by
  obtain ⟨t, hrun, htrace, htemp, hmem, heq⟩ := runSlots_prims hp ht hc (List.cons_ne_nil (primOfBit x) [])
  rw [eventsOf_bitPrim, ← List.append_assoc] at htrace
  rw [bitPrim_length, ← Nat.add_assoc] at heq
  exact ⟨t, (exec_prim _ s).trans hrun, htrace, htemp, hmem, heq⟩

/-- Settles O22: BIT0 and BIT1 are the pulses of the two data bits. -/
theorem bitPulsesAreHighThenLowWrites : Obligations.BitPulsesAreHighThenLowWrites := by
  intro s b hp ht hc p hmem
  simp only [List.mem_cons, List.not_mem_nil, or_false] at hmem
  rcases hmem with rfl | rfl
  · exact exec_bitPrim hp ht hc false
  · exact exec_bitPrim hp ht hc true

/-- Settles O23: the one write of a RESET clears the pin's bit, and its DWELLs access nothing. -/
theorem resetPulseIsOneLowWriteThenDwell : Obligations.ResetPulseIsOneLowWriteThenDwell := by
  intro s b hp ht hc
  obtain ⟨t, hrun, htrace, htemp, hmem, heq⟩ := runSlots_prims hp ht hc (List.cons_ne_nil Prim.reset [])
  rw [eventsOf_resetPrim, List.append_cons] at htrace
  rw [resetPrim_length hc] at heq
  exact ⟨t, (exec_prim .reset s).trans hrun, htrace, htemp, hmem, heq⟩

/-! ## Primitives in the test mode -/

/-- Primitives in a row in the test mode, with their ticks and DWELLs counted: the record grows by their waveforms and no
register is accessed. -/
theorem runSlots_prims_testing {s : State} {b : Binding} (hb : s.binding = some b) (ht : s.testing = true) (hc : s.cfg.wf)
    {l : List Prim} (hl : l ≠ []) {ticks dwells : Nat} (hn : (primsSlots s.cfg l).length = ticks)
    (hd : ((primsSlots s.cfg l).map Slot.op).count .dwell = dwells) :
    ∃ t, runSlots (primsSlots s.cfg l) s = .next t ∧ t.record = s.record ++ l.flatMap (primWave s.cfg) ∧
      t = { s with temp := clearPin s.temp b.off, recordRev := t.recordRev, now := s.now + ticks,
                   traceRev := List.replicate dwells .dwell ++ s.traceRev } := by
  have hrun := runSlots_testing hb ht (primsSlots_timed s.cfg l)
  rw [tempAfter_prims hc _ _ hl, primsSlots_marks hc, hn, hd] at hrun
  exact ⟨_, hrun, by simp [State.record], rfl⟩

/-- Bit pulses hold no DWELL. -/
theorem bitPrims_dwells (c : Config) (bits : List Bool) :
    ((primsSlots c (bits.map primOfBit)).map Slot.op).count .dwell = 0 := by
  refine List.count_eq_zero.mpr fun h => ?_
  obtain ⟨x, hx, hdwell⟩ := List.mem_map.mp h
  rcases bitSlots_op c bits x hx with h' | h' <;> rw [h'] at hdwell <;> cases hdwell

theorem resetPrim_dwells (c : Config) : ((primsSlots c [.reset]).map Slot.op).count .dwell = c.nrst - 1 := by
  simp [resetPrim_ops]

theorem bitPrims_wave (c : Config) (bits : List Bool) :
    (bits.map primOfBit).flatMap (primWave c) = bits.flatMap (bitWave c) := by
  rw [List.flatMap_map]
  congr 1
  funext x
  cases x <;> rfl

theorem bytePrims_length (c : Config) (v : Byte) : (primsSlots c (bytePrims v)).length = bitTicks c (8 - ones v) (ones v) := by
  rw [bytePrims, bitSlots_length, zeros_eq, ones]

theorem bytePrims_wave (c : Config) (v : Byte) :
    (bytePrims v).flatMap (primWave c) = (bitsOfByte v).flatMap (bitWave c) := bitPrims_wave c (bitsOfByte v)

theorem bytePrims_ne_nil (v : Byte) : bytePrims v ≠ [] := List.cons_ne_nil _ _

theorem chainPrims_ne_nil (p : Nat) (r g b : Byte) : chainPrims p r g b ≠ [] := List.cons_ne_nil _ _

/-- A primitive in the test mode, with its ticks and DWELLs counted (R123). -/
theorem exec_prim_testing {s : State} {b : Binding} (hb : s.binding = some b) (ht : s.testing = true) (hc : s.cfg.wf)
    (p : Prim) {ticks dwells : Nat} (hn : (primsSlots s.cfg [p]).length = ticks)
    (hd : ((primsSlots s.cfg [p]).map Slot.op).count .dwell = dwells) :
    ∃ t, exec p.toInstr s = .next t ∧ t.record = s.record ++ primWave s.cfg p ∧
      t = { s with temp := clearPin s.temp b.off, recordRev := t.recordRev, now := s.now + ticks,
                   traceRev := List.replicate dwells .dwell ++ s.traceRev } := by
  rw [exec_prim, ← List.flatMap_singleton (primWave s.cfg)]
  exact runSlots_prims_testing hb ht hc (List.cons_ne_nil p []) hn hd

/-- Settles O30: a write puts the shadow in place of the register; primitives and bytes record their waveforms. -/
theorem testModeRecordsEachPhase : Obligations.TestModeRecordsEachPhase := by
  intro s b hb ht hc
  have high := (execWrHigh_some hb).trans (pulseWrite_testing ht)
  have low := (execWrLow_some hb).trans (pulseWrite_testing ht)
  refine ⟨high, low, fun p hmem => ?_, fun v => ?_⟩
  · simp only [List.mem_cons, List.not_mem_nil, or_false] at hmem
    rcases hmem with rfl | rfl | rfl
    · exact exec_prim_testing hb ht hc .bit0 (bitPrim_length s.cfg false) (bitPrims_dwells s.cfg [false])
    · exact exec_prim_testing hb ht hc .bit1 (bitPrim_length s.cfg true) (bitPrims_dwells s.cfg [true])
    · exact exec_prim_testing hb ht hc .reset (resetPrim_length hc) (resetPrim_dwells s.cfg)
  · rw [← bytePrims_wave]
    exact runSlots_prims_testing hb ht hc (bytePrims_ne_nil v) (bytePrims_length s.cfg v)
      (bitPrims_dwells s.cfg (bitsOfByte v))

/-- Settles O31: a chain is a row of primitives whose waveforms are the waveform of its bits. -/
theorem testModeRecordsAWholeChain : Obligations.TestModeRecordsAWholeChain := by
  intro s x p r g b hb ht hc hpos o
  obtain ⟨t, hrun, hrecord, heq⟩ := runSlots_prims_testing hb ht hc (chainPrims_ne_nil p.toNat r g b)
    (chainPrims_slots_length hc r g b (chain_position hpos)) (chainPrims_dwells s.cfg p.toNat r g b)
  have htrace : t.trace = s.trace ++ List.replicate (2 * (s.cfg.nrst - 1)) .dwell := by
    rw [heq]
    simp [State.trace]
  rw [chainPrims_wave] at hrecord
  refine ⟨t, (if_neg hpos).trans hrun, hrecord, htrace, ?_⟩
  rw [heq]

end Sys2Proof.Machine
end

section
/-! PROOFS. BYTE: the eight bit pulses of a byte, and what they leave outside the test mode (42_byte_encoder.md R135 to R137). -/

namespace Sys2Proof.Machine

/-! ## Which primitives a byte is -/

theorem bytePrims_eq_map_range (v : Byte) :
    bytePrims v = (List.range 8).map fun i => primOfBit (v.getLsbD (7 - i)) := rfl

theorem primOfBit_toInstr (x : Bool) : (primOfBit x).toInstr = if x then .bit1 else .bit0 := by cases x <;> rfl

theorem reset_not_mem_bitPrims (bits : List Bool) : .reset ∉ bits.map primOfBit := by
  intro h
  obtain ⟨x, -, hx⟩ := List.mem_map.mp h
  cases x <;> cases hx

/-- BYTE is its primitives, executed in a row (R137). -/
theorem exec_byte (v : Byte) (s : State) : exec (.byte v) s = execAll ((bytePrims v).map Prim.toInstr) s :=
  (execAll_prims (bytePrims v) s).symm

/-- Settles O24: the primitives of a byte are those of its bits, from bit 7 down. -/
theorem byteIsEightPulsesMostSignificantFirst : Obligations.ByteIsEightPulsesMostSignificantFirst := by
  refine fun v => ⟨fun s => ?_, rfl, fun i hi => ?_, reset_not_mem_bitPrims _⟩
  · simp only [exec_byte, bytePrims_eq_map_range, List.map_map, Function.comp_def, primOfBit_toInstr]
  · rw [bytePrims_eq_map_range, List.getElem?_map, List.getElem?_range hi, Option.map_some, primOfBit]

/-! ## What a byte leaves outside the test mode -/

/-- The events of bit pulses are level writes alone, with the pin's bit set or cleared. -/
theorem mem_eventsOf_bitPrims {b : Binding} {w : Word} {c : Config} {bits : List Bool} {e : Event}
    (he : e ∈ eventsOf b w ((primsSlots c (bits.map primOfBit)).map Slot.op)) :
    e = .wr b.lvl (setPin w b.off) ∨ e = .wr b.lvl (clearPin w b.off) := by
  refine (eventsOf_mem he).resolve_left fun ⟨_, op, hop, hhigh, hlow⟩ => ?_
  obtain ⟨x, hx, rfl⟩ := List.mem_map.mp hop
  exact (bitSlots_op c bits x hx).elim hhigh hlow

/-- Settles O25: a byte is a row of bit pulses, each micro-operation of which is one event and one tick. -/
theorem byteCompletesInItsTicks : Obligations.ByteCompletesInItsTicks := by
  intro s b v hp ht hc
  obtain ⟨t, hrun, htrace, htemp, hmem, heq⟩ := runSlots_prims hp ht hc (bytePrims_ne_nil v)
  rw [bytePrims_length] at heq
  refine ⟨t, _, hrun, htrace, ?_, fun _ => mem_eventsOf_bitPrims, htemp, hmem, heq⟩
  rw [eventsOf_length, List.length_map, bytePrims_length]

end Sys2Proof.Machine
end

section
/-! PROOFS. CHAIN: the bytes and the primitives it is, and what it leaves outside the test mode (43_chain_writer.md R145 to
R148). -/

namespace Sys2Proof.Machine

/-! ## Which instructions a chain is -/

theorem execAll_append (l l' : List Instr) (s : State) : execAll (l ++ l') s = andThen (execAll l s) (execAll l') :=
  runList_append exec l l' s

/-- Bytes in a row are their primitives in a row (42_byte_encoder.md R137). -/
theorem execAll_bytePrims (l : List Byte) : execAll ((l.flatMap bytePrims).map Prim.toInstr) = execAll (l.map .byte) := by
  funext s
  rw [List.map_flatMap, execAll, runList_flatMap, runList_map]
  exact runList_congr (fun v _ => funext fun t => (exec_byte v t).symm) s

theorem exec_chain {p : Word} (hp : p ≠ 0) (r g b : Byte) (s : State) :
    exec (.chain p r g b) s = execAll ([.resetPulse] ++ (wireBytes p.toNat r g b).map .byte ++ [.resetPulse]) s :=
  calc exec (.chain p r g b) s
    _ = runSlots (primsSlots s.cfg (chainPrims p.toNat r g b)) s := if_neg hp
    _ = execAll ((chainPrims p.toNat r g b).map Prim.toInstr) s := (execAll_prims _ s).symm
    _ = execAll ([.resetPulse] ++ (wireBytes p.toNat r g b).map .byte ++ [.resetPulse]) s := by
      rw [chainPrims, List.map_append, List.map_append, execAll_append, execAll_append, execAll_bytePrims,
        ← execAll_append, ← execAll_append]
      rfl

/-- Settles O26: a chain is its primitives, and those of each byte on the wire are a BYTE. -/
theorem chainIsResetZeroBytesColourReset : Obligations.ChainIsResetZeroBytesColourReset := by
  refine fun p r g b s => ⟨fun hp => ?_, fun hp => if_pos hp⟩
  rw [exec_chain hp, wireBytes, List.map_append, List.map_replicate, List.append_assoc [Instr.resetPulse]]
  rfl

/-- Settles O28: no pulse of a data bit is a RESET, and there are 24 of them for each LED up to the target. -/
theorem resetsBoundTheChainUpdate : Obligations.ResetsBoundTheChainUpdate := by
  intro p r g b hp
  have zeros : (List.replicate (3 * (p - 1)) (0 : Byte)).length = 3 * (p - 1) := List.length_replicate
  have middle : ((wireBits p r g b).map primOfBit).length = 24 * p := by rw [List.length_map, wireBits_length r g b hp]
  refine ⟨?_, List.take_left' zeros, List.drop_left' zeros, ?_, _, chainPrims_eq p r g b, reset_not_mem_bitPrims _, middle⟩
  · rw [wireBytes, List.length_append, zeros, List.length_cons, List.length_cons, List.length_singleton]
    omega
  · rw [chainPrims_eq, List.length_append, List.length_cons, middle, List.length_singleton]

/-! ## What a chain leaves outside the test mode -/

/-- The DWELLs among the events of timed micro-operations. -/
theorem eventsOf_count_dwell (b : Binding) (w : Word) {ops : List MicroOp} (ho : ∀ op ∈ ops, isTimed op = true) :
    (eventsOf b w ops).count .dwell = ops.count .dwell := by
  induction ops generalizing w with
  | nil => rfl
  | cons op ops ih =>
    have htail := fun v => ih v fun op' h => ho op' (List.mem_cons_of_mem _ h)
    have hop := ho op List.mem_cons_self
    cases op with
    | rdDir | wrDir | rdLvl | wrLvlInit => cases hop
    | wrHigh | wrLow | dwell => simp [eventsOf, htail]

/-- Every event of a row of micro-operations is a DWELL or a write of the level register with the pin's bit set or cleared. -/
theorem eventsOf_count_writes (b : Binding) (w : Word) (ops : List MicroOp) :
    (eventsOf b w ops).countP (fun e => e == .wr b.lvl (setPin w b.off) || e == .wr b.lvl (clearPin w b.off)) +
      (eventsOf b w ops).count .dwell = ops.length := by
  refine .trans (congrArg (_ + ·) (List.countP_congr fun e he => ?_))
    ((List.length_eq_countP_add_countP _).symm.trans (eventsOf_length b w ops))
  rcases eventsOf_mem he with ⟨rfl, -⟩ | rfl | rfl <;> simp

/-- Settles O27: each micro-operation of a chain is one event and one tick, a DWELL or a level write. -/
theorem chainCompletesInItsTicks : Obligations.ChainCompletesInItsTicks := by
  intro s x p r g b hp ht hc hpos o z
  obtain ⟨t, hrun, htrace, htemp, hmem, heq⟩ := runSlots_prims hp ht hc (chainPrims_ne_nil p.toNat r g b)
  have hlen : (primsSlots s.cfg (chainPrims p.toNat r g b)).length = 2 * s.cfg.nrst + bitTicks s.cfg z o :=
    chainPrims_slots_length hc r g b (chain_position hpos)
  have htimed : ∀ op ∈ (primsSlots s.cfg (chainPrims p.toNat r g b)).map Slot.op, isTimed op = true :=
    List.forall_mem_map.mpr (primsSlots_timed s.cfg _)
  have hdwells := (eventsOf_count_dwell x s.temp htimed).trans (chainPrims_dwells s.cfg p.toNat r g b)
  have hwrites := eventsOf_count_writes x s.temp ((primsSlots s.cfg (chainPrims p.toNat r g b)).map Slot.op)
  have hevents := eventsOf_length x s.temp ((primsSlots s.cfg (chainPrims p.toNat r g b)).map Slot.op)
  rw [List.length_map] at hwrites hevents
  refine ⟨t, _, (if_neg hpos).trans hrun, htrace, hevents.trans hlen, ?_, hdwells, htemp, hmem, hevents ▸ heq⟩
  obtain ⟨-, -, -, -, -, -, -, -, hnrst, -⟩ := hc
  rw [hdwells, hlen] at hwrites
  omega

end Sys2Proof.Machine
end

section
/-! PROOFS. Every acquisition is released exactly once: the counts of acquisitions and releases, operation by operation
(44_pin_lifecycle.md R160, R161, R169). -/

namespace Sys2Proof.Machine

/-! ## The counts along a trace -/

/-- R169 for a set of held addresses and a trace, newest event first. -/
def Balanced (h : List Nat) (l : List Event) : Prop :=
  ∀ a, acquiredCount a l = releasedCount a l + (if a ∈ h then 1 else 0)

theorem heldBalance_iff_balanced {s : State} : HeldBalance s ↔ Balanced s.held s.traceRev := .rfl

/-- An address that was not held is acquired. -/
theorem Balanced.acq {h : List Nat} {l : List Event} {a : Nat} (hb : Balanced h l) (ha : a ∉ h) :
    Balanced (a :: h) (.acq a true :: l) := by
  intro x
  by_cases e : a = x
  · subst e
    simpa [acquiredCount, releasedCount, ha] using hb a
  · simpa [acquiredCount, releasedCount, e, Ne.symm e] using hb x

/-- A held address is released. -/
theorem Balanced.rel {h : List Nat} {l : List Event} {a : Nat} (hb : Balanced (a :: h) l) (ha : a ∉ h) :
    Balanced h (.rel a :: l) := by
  intro x
  by_cases e : a = x
  · subst e
    simpa [acquiredCount, releasedCount, ha] using hb a
  · simpa [acquiredCount, releasedCount, e, Ne.symm e] using hb x

/-- Any other event counts for nothing. -/
theorem Balanced.skip {h : List Nat} {l : List Event} {e : Event} (hb : Balanced h l) (hacq : ∀ a, e ≠ .acq a true)
    (hrel : ∀ a, e ≠ .rel a) : Balanced h (e :: l) := by
  intro x
  simpa [acquiredCount, releasedCount, hacq x, hrel x] using hb x

theorem Balanced.denied {h : List Nat} {l : List Event} (hb : Balanced h l) (a : Nat) : Balanced h (.acq a false :: l) :=
  hb.skip nofun nofun

theorem Balanced.ret {h : List Nat} {l : List Event} (hb : Balanced h l) (c : Status) : Balanced h (.ret c :: l) :=
  hb.skip nofun nofun

/-- RELEASE of the binding leaves nothing held and the counts equal. -/
theorem HeldBalance.released {s : State} (h : HeldBalance s) (hs : Releasable s) :
    Balanced [] ((releaseEvents s.binding).reverse ++ s.traceRev) := by
  intro a
  simpa [acquiredCount, releasedCount] using h.release hs a

/-! ## The operations of a step -/

/-- The completion of a command emits its Ret only. -/
theorem HeldBalance.returnOk {s : State} (h : HeldBalance s) : HeldBalance (returnOk s) :=
  heldBalance_iff_balanced.mpr (Balanced.ret h .ok)

/-- A micro-operation emits register accesses and DWELLs only. -/
theorem runMicro_events {op : MicroOp} {s t : State} (h : runMicro op s = .next t) :
    ∃ l, t.traceRev = l ++ s.traceRev ∧ ∀ e ∈ l, e.outside = true := by
  have one : ∀ {e : Event}, e.outside = true → t.traceRev = e :: s.traceRev →
      ∃ l, t.traceRev = l ++ s.traceRev ∧ ∀ e ∈ l, e.outside = true :=
    fun he ht => ⟨[_], ht, by simpa using he⟩
  rcases runMicro_cases h with ⟨-, rfl⟩ | ⟨b, -, h⟩
  · exact one rfl rfl
  · rcases h with ⟨-, -, rfl⟩ | ⟨-, -, rfl⟩ | ⟨-, -, rfl⟩ | ⟨-, -, rfl⟩ | ⟨w, -, ⟨-, rfl⟩ | ⟨-, -, rfl⟩⟩
    · exact one rfl (by rw [drawUpper_emit_state]; rfl)
    · exact one rfl rfl
    · exact one rfl (by rw [drawUpper_emit_state]; rfl)
    · exact one rfl rfl
    · exact ⟨[], rfl, by simp⟩
    · exact one rfl rfl

/-- Register accesses and DWELLs acquire and release nothing. -/
theorem count_of_outside {l : List Event} (hl : ∀ e ∈ l, e.outside = true) (a : Nat) :
    l.count (.acq a true) = 0 ∧ l.count (.rel a) = 0 :=
  ⟨List.count_eq_zero.mpr fun h => (by cases hl _ h), List.count_eq_zero.mpr fun h => (by cases hl _ h)⟩

theorem HeldBalance.runAndCount {s t : State} {x : Slot} (h : HeldBalance s) (hr : runAndCount x s = .next t) :
    HeldBalance t := by
  obtain ⟨u, hu, ht⟩ := andThen_eq_next.mp hr
  cases ht
  obtain ⟨l, hl, hout⟩ := runMicro_events hu
  rw [(noteMark_fields x s).2.2.2.2] at hl
  exact h.extend (runSlot_frame hu).held l hl (count_of_outside hout)

theorem HeldBalance.execClose {s t : State} (h : HeldBalance s) (hs : Releasable s) (hc : execClose s = .next t) :
    HeldBalance t := by
  obtain ⟨u, hu, rfl⟩ := execClose_eq_next hc
  rw [releaseBinding_next hs] at hu
  cases hu
  exact HeldBalance.returnOk (h.released hs)

/-- A WRITE keeps the balance: it fails before it touches the pair, or releases the old pair and then acquires the new one
whole, its first address only and that for a moment, or nothing (R162). -/
theorem HeldBalance.execWrite {s t : State} {blk : List Byte} (h : HeldBalance s) (hs : Releasable s)
    (hb : s.busy = false) (hw : execWrite blk s = .next t) : HeldBalance t := by
  have hrel := h.released hs
  rcases execWrite_cases blk hb hs with ⟨e, q, hx⟩ | ⟨pin, hx, -⟩ | ⟨q, x, l, n, -, -, hx, hx' | hx' | hx'⟩
  · cases hx.symm.trans hw
    exact heldBalance_iff_balanced.mpr (Balanced.ret h _)
  · cases hx.symm.trans hw
  · have apart : x.lvl ∉ [x.dir] := by
      have := (resolve_ok hx).dir_eq
      rw [List.mem_singleton]
      omega
    cases hx'.symm.trans hw
    exact heldBalance_iff_balanced.mpr ((hrel.acq List.not_mem_nil).acq apart)
  · cases hx'.symm.trans hw
    exact heldBalance_iff_balanced.mpr ((((hrel.acq List.not_mem_nil).denied x.lvl).rel List.not_mem_nil).ret _)
  · cases hx'.symm.trans hw
    exact heldBalance_iff_balanced.mpr ((hrel.denied x.dir).ret _)

/-! ## The step -/

/-- Every step from a state that meets the invariant keeps the balance. -/
theorem HeldBalance.step {s t : State} (h : HeldBalance s) (hi : EngineInv s) (hst : step s = .next t) : HeldBalance t := by
  cases hb : s.busy with
  | true =>
    rcases busyStep_cases hi hb with ⟨x, -, hs⟩ | ⟨-, hs⟩ <;> rw [hs] at hst
    · exact h.runAndCount hst
    · cases hst
      exact HeldBalance.returnOk (s := s.setBusy false) h
  | false =>
    have idle : Machine.step s = idleStep s := if_neg (by simp [hb])
    rw [idle] at hst
    rcases idleStep_cases s with ⟨-, hs⟩ | ⟨c, rest, -, ⟨r, hs, -⟩ | hs | hs | ⟨blk, hs⟩⟩ <;> rw [hs] at hst
    · cases hst
      exact h
    · cases hst
    · exact execOpen_eq_next hst ▸ HeldBalance.returnOk (s := s.setInbox rest) h
    · exact HeldBalance.execClose (s := s.setInbox rest) h hi.releasable hst
    · exact HeldBalance.execWrite (s := s.setInbox rest) h hi.releasable hb hst

/-- With nothing held every address was released as often as acquired. -/
theorem HeldBalance.counts_eq {s : State} (h : HeldBalance s) (hh : s.held = []) (a : Nat) :
    acquiredCount a s.trace = releasedCount a s.trace := by
  have ha := h a
  rw [hh] at ha
  simpa [acquiredCount, releasedCount, State.trace] using ha

/-- Settles O49: a step keeps the balance, and with HELD empty the balance is an equality of counts. -/
theorem everyAcquisitionIsReleasedExactlyOnce : Obligations.EveryAcquisitionIsReleasedExactlyOnce := by
  intro s t hi h hst
  have ht : HeldBalance t := h.step hi hst
  exact ⟨ht, ht.counts_eq⟩

end Sys2Proof.Machine
end

section
/-! PROOFS. The micro-operations that configure a pin (44_pin_lifecycle.md R164, R165), ACQUIRE and RELEASE (R160, R161, R166),
and PIN_OPEN with its failures (R162, R163, R167). -/

namespace Sys2Proof.Machine

/-! ## The direction and the level update -/

/-- Writing back what was read, with the pin's two bits set, leaves every other data bit of the register. -/
theorem memWrite_sameBits {a : Nat} {w : Word} {n : Fin 16} {s t : State} (h : memWrite a (enablePin w n) s = .next t)
    (hw : dataHalf w = regData s.mem a) : SameBitsBut n a s.mem t.mem := by
  obtain ⟨-, rfl⟩ := memWrite_eq_next h
  exact (maskedStore_storeData s.mem a (enablePin w n)).sameBits fun _ hk hne => enablePin_data hw hk hne

/-- RD_DIR on a bound pin, field by field. -/
theorem execRdDir_fields {s : State} {b : Binding} (hb : s.binding = some b) (hr : isRegister s.cfg b.dir = true) :
    ∃ v l n, dataHalf v = regData s.mem b.dir ∧
      execRdDir s = .next { s with
        dtmp := v, traceRev := .rd b.dir v :: s.traceRev, upperDraws := l, drawCount := n } := by
  obtain ⟨l, n, draw⟩ := drawUpper_spec b.dir s
  refine ⟨(readWord b.dir s).1, l, n, dataHalf_readWord b.dir s, ?_⟩
  rw [execRdDir_next hb hr, draw]
  rfl

/-- WR_DIR of what was read leaves every other data bit of the direction register. -/
theorem execWrDir_sameBits {s t : State} {b : Binding} (h : execWrDir s = .next t) (hb : s.binding = some b)
    (hv : dataHalf s.dtmp = regData s.mem b.dir) : SameBitsBut b.off b.dir s.mem t.mem := by
  obtain ⟨b', hb', h⟩ := withBinding_eq_next h
  obtain rfl : b = b' := Option.some.inj (hb.symm.trans hb')
  exact (memWrite_sameBits h hv :)

/-- The draw of an upper half does not look at TEMP. -/
theorem drawUpper_temp (a : Nat) (s : State) (old : Word) :
    drawUpper a { s with temp := old } = ((drawUpper a s).1, { (drawUpper a s).2 with temp := old }) := by
  cases h : s.upperDraws <;> simp [drawUpper, h, State.setUpperDraws, State.setDrawCount]

/-- RD_LVL on a bound pin, field by field, whatever TEMP held before. -/
theorem execRdLvl_fields {s : State} {b : Binding} (hb : s.binding = some b) (hr : isRegister s.cfg b.lvl = true) :
    ∃ w l n, dataHalf w = regData s.mem b.lvl ∧
      ∀ old, execRdLvl { s with temp := old } = .next { s with
        temp := w, traceRev := .rd b.lvl w :: s.traceRev, upperDraws := l, drawCount := n } := by
  obtain ⟨l, n, draw⟩ := drawUpper_spec b.lvl s
  refine ⟨(readWord b.lvl s).1, l, n, dataHalf_readWord b.lvl s, fun old => ?_⟩
  have word : (readWord b.lvl { s with temp := old }).1 = (readWord b.lvl s).1 := by
    simp only [readWord, drawUpper_temp]
  rw [execRdLvl_next (s := { s with temp := old }) hb hr, word, drawUpper_temp, draw]
  rfl

/-- WR_LVL_INIT of what was read leaves every other data bit of the level register. -/
theorem execWrLvlInit_sameBits {s t : State} {b : Binding} (h : execWrLvlInit s = .next t) (hb : s.binding = some b)
    (hw : dataHalf s.temp = regData s.mem b.lvl) : SameBitsBut b.off b.lvl s.mem t.mem := by
  obtain ⟨b', hb', h⟩ := withBinding_eq_next h
  obtain rfl : b = b' := Option.some.inj (hb.symm.trans hb')
  exact (memWrite_sameBits h hw :)

/-- Settles O17: RD_DIR leaves the register's data bits in DTMP, and WR_DIR stores DTMP with the pin's two bits set. -/
theorem directionUpdateMakesThePinAnOutput : Obligations.DirectionUpdateMakesThePinAnOutput := by
  intro s b hb hr
  obtain ⟨v, l, n, hv, read⟩ := execRdDir_fields hb hr
  refine ⟨⟨_, read, hv, rfl⟩, ⟨_, execWrDir_next hb hr, fun _ => enablePin_bit _ _, maskedStore_storeData _ _ _,
    (maskedStore_storeData _ _ _).enabled, rfl⟩, fun t u ht hu => ?_⟩
  cases read.symm.trans ht
  exact (execWrDir_sameBits hu hb hv :)

/-- Settles O18: RD_LVL leaves the register's data bits in TEMP, and WR_LVL_INIT stores TEMP with the pin's two bits set. -/
theorem levelInitialisationRaisesThePin : Obligations.LevelInitialisationRaisesThePin := by
  intro s b hb hr
  obtain ⟨w, l, n, hw, read⟩ := execRdLvl_fields hb hr
  refine ⟨⟨_, read s.temp, hw, read, rfl⟩, ⟨_, execWrLvlInit_next hb hr, fun _ => enablePin_bit _ _,
    maskedStore_storeData _ _ _, (maskedStore_storeData _ _ _).enabled, rfl⟩, fun t u ht hu => ?_⟩
  cases (read s.temp).symm.trans ht
  exact (execWrLvlInit_sameBits hu hb hw :)

/-! ## ACQUIRE and RELEASE -/

/-- Settles O32: the answer is the one that ACQUIRE records, and a listed draw is that answer. -/
theorem acquireHoldsWhatTheEnvironmentGrants : Obligations.AcquireHoldsWhatTheEnvironmentGrants := by
  intro s a
  obtain ⟨ok, l, n, h⟩ := acquire_spec a s
  refine ⟨ok, _, congrArg (Host.Outcome.next ∘ Prod.snd) h, fun x => ?_, fun hw => ?_, fun answer rest hd => ?_, rfl⟩
  · cases ok
    · simp
    · simp [mem_heldInsert]
  · cases ok
    · exact hw
    · exact heldWf_insert hw a
  · have drawn := h.symm.trans (acquire_cons hd a)
    exact ⟨congrArg Prod.fst drawn, congrArg (fun r => r.2.acqDraws) drawn, congrArg (fun r => r.2.drawCount) drawn⟩

theorem releaseAddr_notHeld {a : Nat} {s : State} (h : a ∉ s.held) : releaseAddr a s = .fault (.notHeld a) := if_neg h

theorem releaseBinding_none {s : State} (hb : s.binding = none) : releaseBinding s = .next s := by
  rw [releaseBinding, hb]

theorem releaseBinding_some {s : State} {b : Binding} (hb : s.binding = some b) : releaseBinding s =
    andThen (releaseAddr b.dir s) fun s1 => andThen (releaseAddr b.lvl s1) fun s2 => .next (s2.setBinding none) := by
  rw [releaseBinding, hb]

/-- RELEASE with the direction address held, up to the release of the level address. -/
theorem releaseBinding_dirHeld {s : State} {b : Binding} (hb : s.binding = some b) (hd : b.dir ∈ s.held) :
    releaseBinding s = andThen (releaseAddr b.lvl ((s.setHeld (heldErase b.dir s.held)).emit (.rel b.dir))) fun s2 =>
      .next (s2.setBinding none) := by
  rw [releaseBinding_some hb, releaseAddr_next hd, andThen_next]

/-- Settles O33: RELEASE faults at the first of its two addresses that is not held when its turn comes. -/
theorem releaseClearsTheBindingOnce : Obligations.ReleaseClearsTheBindingOnce := by
  refine fun s => ⟨releaseBinding_none, fun b hb hd hl hne => ?_, fun b hb hd => ?_, fun b hb hd hl => ?_⟩
  · have held : b.lvl ∈ heldErase b.dir s.held := mem_heldErase.mpr ⟨hl, hne.symm⟩
    refine ⟨_, (releaseBinding_dirHeld hb hd).trans (congrArg (andThen · _) (releaseAddr_next held)), fun x => ?_, rfl,
      releaseBinding_none (State.setBinding_binding _ _)⟩
    exact mem_heldErase.trans (by rw [State.emit_held, State.setHeld_held, mem_heldErase, and_assoc])
  · exact (releaseBinding_some hb).trans (by rw [releaseAddr_notHeld hd, andThen_fault])
  · have gone : b.lvl ∉ heldErase b.dir s.held := fun h => by
      obtain ⟨hin, hne⟩ := mem_heldErase.mp h
      exact hl.elim (· hin) fun e => hne e.symm
    exact (releaseBinding_dirHeld hb hd).trans (by rw [releaseAddr_notHeld gone, andThen_fault])

/-! ## PIN_OPEN -/

theorem execPinOpen_going {bank pin : Word} {s u : State} (h : mapPin bank pin s = .next (.going u)) :
    execPinOpen bank pin s = runSlots configSlots u := by
  rw [execPinOpen, h, thenGo_going, settle_going_out]

theorem execPinOpen_raise {bank pin : Word} {s u : State} {e : Failure} (h : mapPin bank pin s = raise e u) :
    execPinOpen bank pin s = .next (failWith e u) := by
  rw [execPinOpen, h, thenGo_raise, settle_raise]

theorem execPinOpen_refused {bank pin : Word} {s : State} {r : Refusal} (h : mapPin bank pin s = .refused r) :
    execPinOpen bank pin s = .refused r := by
  rw [execPinOpen, h, thenGo_refused, settle_refused]

/-- Both bits of the pin are set in an enabled word. -/
theorem enablePin_pin_mask (w : Word) (n : Fin 16) :
    (enablePin w n).getLsbD n = true ∧ (enablePin w n).getLsbD (n + 16) = true := by
  rw [enablePin_bit _ _ (by omega), enablePin_bit _ _ (by omega)]
  simp

/-- Settles O34: the pair is mapped, and the four configuration micro-operations set the pin's bit of both registers. -/
theorem pinOpenConfiguresThePin : Obligations.PinOpenConfiguresThePin := by
  intro s bank pin x rest hs ha hr
  have hok := resolve_ok hr
  obtain ⟨v, w, m, l, n, hrun, hv, ⟨m', hdir, hw, hlvl⟩, -⟩ :=
    runSlots_config (s := { s with
      binding := some x, held := heldOf (some x), acqDraws := rest
      traceRev := .acq x.lvl true :: .acq x.dir true :: ((releaseEvents s.binding).reverse ++ s.traceRev) })
      rfl hok.dir_isRegister hok.lvl_isRegister
  obtain ⟨hw0, output, high, hbitsDir, hbitsLvl, hout⟩ := config_memory hok.dir_eq hv hdir hw hlvl
  obtain ⟨pin, mask⟩ := enablePin_pin_mask w x.off
  refine ⟨_, v, w, (execPinOpen_going (mapPin_granted hr hs ha)).trans hrun, hv, hw0, ?_, ?_, pin, mask, hbitsDir,
    hbitsLvl, hout, rfl⟩
  · simp [State.trace]
  · rw [pinLevel_of_driven output, high]

/-- Settles O35: RESOLVE fails before the old pair is released, an acquisition after it. -/
theorem pinOpenFailuresTearDown : Obligations.PinOpenFailuresTearDown := by
  refine fun s bank pin => ⟨fun h => execPinOpen_raise (mapPin_outOfRange h),
    fun hb hp hstep => execPinOpen_refused (mapPin_noRegister hb hp hstep),
    fun x rest hs hr => ⟨fun ha => ?_, fun ha => ?_⟩⟩
  · exact ⟨_, execPinOpen_raise ((mapPin_found hr hs).trans (acquirePair_noDir ha)),
      by simp [failWith, Failure.status, State.trace], rfl⟩
  · exact ⟨_, execPinOpen_raise ((mapPin_found hr hs).trans (acquirePair_noLvl rfl ha)),
      by simp [failWith, Failure.status, State.trace], rfl⟩

end Sys2Proof.Machine
end

section
/-! PROOFS. The host commands OPEN and CLOSE, VALIDATE, and what a step of an idle and of a busy engine runs
(45_host_operations.md R180, R182, R186, R188, R191, R194). -/

namespace Sys2Proof.Machine

/-! ## What a step runs -/

/-- Settles O3: the step of an idle engine takes the command at the head of the inbox. -/
theorem stepRunsTheDecodedCommand : Obligations.StepRunsTheDecodedCommand := fun _ _ _ _ => step_command

/-- Settles O4: a step of a busy engine inside the micro-program is one turn of the loop. -/
theorem stepRunsTheMicroOperationAtUpc : Obligations.StepRunsTheMicroOperationAtUpc := by
  intro s x hb hp hx
  rw [step_turn hb hp hx, runAndCount, runSlot, exec_toInstr]
  cases runMicro x.op (noteMark x s) <;> rfl

/-- R84 (e), R188: an idle engine refuses a submission that is no command. -/
theorem step_noCommand {s : State} {c : Submission} {rest : List Submission} {e : DecodeError} (hb : s.busy = false)
    (hc : s.inbox = c :: rest) (he : decode (.command c) = .error e) : step s = .refused (refusalOf e) := by
  rw [step, if_neg (by simp [hb]), idleStep, hc]
  simp only [he]

/-- Settles O7: neither submission decodes. -/
theorem noOtherCommandHasAMeaning : Obligations.NoOtherCommandHasAMeaning := by
  refine fun s blk rest hb => ⟨fun hc => step_noCommand hb hc rfl, fun hne hc => ?_⟩
  obtain ⟨v, l, rfl⟩ := List.exists_cons_of_ne_nil hne
  rcases hc with hc | hc
  · exact step_noCommand hb hc rfl
  · exact step_noCommand hb hc rfl

/-! ## The host commands and BUSY -/

theorem whenIdle_idle {s : State} (hb : s.busy = false) (o : Out State) : whenIdle s o = o := if_neg (by simp [hb])

theorem whenIdle_busy {s : State} (hb : s.busy = true) (o : Out State) : whenIdle s o = .refused .commandWhileBusy :=
  if_pos hb

/-- Settles O36: OPEN of an idle engine is the return of OK. -/
theorem openOnlyReturnsOk : Obligations.OpenOnlyReturnsOk := fun _ hb => whenIdle_idle hb _

/-- Settles O37: CLOSE of an idle engine is RELEASE and the return of OK. -/
theorem closeReleasesTheBinding : Obligations.CloseReleasesTheBinding := by
  intro s hb hs
  have close : exec .closeCmd s = andThen (releaseBinding s) fun s1 => .next (returnOk s1) := whenIdle_idle hb _
  rw [releaseBinding_next hs, andThen_next] at close
  exact ⟨_, close, by simp [returnOk, State.trace], rfl⟩

/-! ## VALIDATE -/

theorem validate_badBank {bank : Word} (hb : bank.toNat > 4) (pin pos : Word) (s : State) :
    validate bank pin pos s = raise (.invalidRequest .bank) s := if_pos hb

theorem validate_badPin {bank pin : Word} (hb : bank.toNat ≤ 4) (hp : pin.toNat > 31) (pos : Word) (s : State) :
    validate bank pin pos s = raise (.invalidRequest .pin) s := by
  rw [validate, if_neg (Nat.not_lt.mpr hb), if_pos hp]

theorem validate_badPosition {bank pin pos : Word} {s : State} (hb : bank.toNat ≤ 4) (hp : pin.toNat ≤ 31)
    (hpos : pos.toNat < 1 ∨ pos.toNat > s.cfg.ledMax) :
    validate bank pin pos s = raise (.invalidRequest .position) s := by
  rw [validate, if_neg (Nat.not_lt.mpr hb), if_neg (Nat.not_lt.mpr hp), if_pos hpos]

/-- Settles O38: each test in its turn, the tests before it passed. -/
theorem validateTestsBankPinPosition : Obligations.ValidateTestsBankPinPosition := by
  refine fun s bank pin pos => ⟨fun hb => ?_, fun hb hp => ?_, fun hb hp hpos => ?_, fun hb hp h1 hmax => ?_⟩
  · exact congrArg settle (validate_badBank hb pin pos s)
  · exact congrArg settle (validate_badPin hb hp pos s)
  · exact congrArg settle (validate_badPosition hb hp hpos)
  · exact congrArg settle (validate_ok (q := ⟨bank, pin, pos, 0, 0, 0⟩) ⟨hb, hp, h1, hmax⟩)

/-! ## The host's submissions are no input of a busy engine -/

theorem readWord_setInbox (a : Nat) (s : State) (q : List Submission) :
    readWord a (s.setInbox q) = ((readWord a s).1, (readWord a s).2.setInbox q) := by
  simp only [readWord, drawUpper, State.setInbox_upperDraws]
  cases s.upperDraws <;> rfl

theorem memRead_setInbox (a : Nat) (s : State) (q : List Submission) :
    memRead a (s.setInbox q) = andThen (memRead a s) fun r => .next (r.1, r.2.setInbox q) := by
  simp only [memRead, readWord_setInbox, State.setInbox_cfg]
  split <;> rfl

theorem memWrite_setInbox (a : Nat) (w : Word) (s : State) (q : List Submission) :
    memWrite a w (s.setInbox q) = andThen (memWrite a w s) fun t => .next (t.setInbox q) := by
  cases hr : isRegister s.cfg a with
  | true =>
    rw [memWrite_next hr, memWrite_next (s := s.setInbox q) hr]
    rfl
  | false =>
    rw [memWrite_outside hr, memWrite_outside (s := s.setInbox q) hr]
    rfl

theorem pulseWrite_quiet {s : State} (ht : s.testing = false) (b : Binding) (w : Word) :
    pulseWrite b w s = andThen (memWrite b.lvl w (s.setTemp w)) fun t => .next t.tick := if_neg (by simp [ht])

theorem pulseWrite_setInbox (b : Binding) (w : Word) (s : State) (q : List Submission) :
    pulseWrite b w (s.setInbox q) = andThen (pulseWrite b w s) fun t => .next (t.setInbox q) := by
  cases ht : s.testing with
  | true =>
    rw [pulseWrite_testing ht, pulseWrite_testing (s := s.setInbox q) ht]
    rfl
  | false =>
    have swap : (s.setInbox q).setTemp w = (s.setTemp w).setInbox q := rfl
    rw [pulseWrite_quiet ht, pulseWrite_quiet (s := s.setInbox q) ht, swap, memWrite_setInbox, andThen_assoc, andThen_assoc]
    rfl

theorem withBinding_setInbox {s : State} {q : List Submission} {f g : Binding → Out State}
    (h : ∀ b, f b = andThen (g b) fun t => .next (t.setInbox q)) :
    withBinding (s.setInbox q) f = andThen (withBinding s g) fun t => .next (t.setInbox q) := by
  cases hb : s.binding <;> simp [withBinding, hb, h]

theorem runMicro_setInbox (op : MicroOp) (s : State) (q : List Submission) :
    runMicro op (s.setInbox q) = andThen (runMicro op s) fun t => .next (t.setInbox q) := by
  cases op with
  | rdDir | rdLvl => exact withBinding_setInbox fun b => by rw [memRead_setInbox, andThen_assoc, andThen_assoc]; rfl
  | wrDir => exact withBinding_setInbox fun b => memWrite_setInbox _ _ (s.setDtmp (enablePin s.dtmp b.off)) q
  | wrLvlInit => exact withBinding_setInbox fun b => memWrite_setInbox _ _ (s.setTemp (enablePin s.temp b.off)) q
  | wrHigh | wrLow => exact withBinding_setInbox fun b => pulseWrite_setInbox _ _ _ _
  | dwell => rfl

theorem noteMark_setInbox (x : Slot) (s : State) (q : List Submission) :
    noteMark x (s.setInbox q) = (noteMark x s).setInbox q := by
  have ht : (s.setInbox q).testing = s.testing := rfl
  unfold noteMark
  rw [ht]
  split <;> rfl

theorem sequencerStep_setInbox (s : State) (q : List Submission) :
    sequencerStep (s.setInbox q) = andThen (sequencerStep s) fun t => .next (t.setInbox q) := by
  unfold sequencerStep
  rw [State.setInbox_latch, State.setInbox_cfg, State.setInbox_upc]
  split
  · rfl
  · split
    · rw [noteMark_setInbox, exec_toInstr, exec_toInstr, runMicro_setInbox, andThen_assoc, andThen_assoc]
      rfl
    · rfl

/-- The sequencer leaves the host's submissions alone. -/
theorem sequencerStep_inbox {s t : State} (h : sequencerStep s = .next t) : t.inbox = s.inbox := by
  unfold sequencerStep at h
  split at h
  · cases h
  · split at h
    · rw [exec_toInstr] at h
      obtain ⟨u, hu, ht⟩ := andThen_eq_next.mp h
      cases ht
      exact (runSlot_frame hu).inbox
    · cases h
      rfl

theorem step_busy {s : State} (hb : s.busy = true) : step s = sequencerStep s := if_pos hb

/-- Settles O42: each command is refused before it looks at anything, and the sequencer does not look at the inbox. -/
theorem busyEngineTakesNoCommand : Obligations.BusyEngineTakesNoCommand := by
  refine fun s hb => ⟨whenIdle_busy hb _, whenIdle_busy hb _, fun blk => whenIdle_busy hb _, fun q => ?_⟩
  have other : step { s with inbox := q } = andThen (sequencerStep s) fun t => .next (t.setInbox q) :=
    (step_busy (s := s.setInbox q) hb).trans (sequencerStep_setInbox s q)
  rw [step_busy hb, other]
  cases h : sequencerStep s with
  | next t => exact ⟨rfl, sequencerStep_inbox h⟩
  | fault e => exact rfl
  | refused r => exact rfl

end Sys2Proof.Machine
end

section
/-! PROOFS. The micro-program: its length and how many of each micro-operation it holds (45_host_operations.md R189). -/

namespace Sys2Proof.Machine

theorem count_of_timed {op : MicroOp} (ho : isTimed op = false) {ops : List MicroOp} (ht : ∀ x ∈ ops, isTimed x = true) :
    ops.count op = 0 :=
  List.count_eq_zero.mpr fun h => by rw [ht op h] at ho; cases ho

/-- A timed micro-operation is a write of the pin's level or a DWELL. -/
theorem count_writes_add_dwells {ops : List MicroOp} (ht : ∀ x ∈ ops, isTimed x = true) :
    ops.count .wrHigh + ops.count .wrLow + ops.count .dwell = ops.length := by
  induction ops with
  | nil => rfl
  | cons op ops ih =>
    have tail := ih fun x hx => ht x (List.mem_cons_of_mem _ hx)
    have head := ht op List.mem_cons_self
    cases op with
    | rdDir | wrDir | rdLvl | wrLvlInit => cases head
    | wrHigh | wrLow | dwell =>
      simp
      omega

theorem mprog_ops (c : Config) (q : Request) :
    (mprog c q).map Slot.op = [.rdDir, .wrDir, .rdLvl, .wrLvlInit] ++ (chainSlots c q).map Slot.op := List.map_append

theorem mprog_length (c : Config) (q : Request) : (mprog c q).length = 4 + (chainSlots c q).length := List.length_append

/-- Settles O29: the configuration holds the four other micro-operations once each, the chain timed ones alone. -/
theorem microProgramHasTheStatedCounts : Obligations.MicroProgramHasTheStatedCounts := by
  intro c q hc hp o z ops
  have timed : ∀ op ∈ (chainSlots c q).map Slot.op, isTimed op = true := List.forall_mem_map.mpr (primsSlots_timed c _)
  have ticks : (chainSlots c q).length = 2 * c.nrst + bitTicks c z o := chainPrims_slots_length hc q.r q.g q.b hp
  have dwells : ((chainSlots c q).map Slot.op).count .dwell = 2 * (c.nrst - 1) := chainPrims_dwells c q.pos.toNat q.r q.g q.b
  have writes := count_writes_add_dwells timed
  rw [List.length_map, ticks, dwells, bitTicks] at writes
  obtain ⟨-, -, -, -, -, -, -, -, hnrst, -⟩ := hc
  have hops : ops = [.rdDir, .wrDir, .rdLvl, .wrLvlInit] ++ (chainSlots c q).map Slot.op := mprog_ops c q
  have once : ∀ op, isTimed op = false → ops.count op = [.rdDir, .wrDir, .rdLvl, .wrLvlInit].count op := fun op ho => by
    rw [hops, List.count_append, count_of_timed ho timed, Nat.add_zero]
  have init : ops.count .wrLvlInit = 1 := once .wrLvlInit rfl
  have later : ∀ op, isTimed op = true → ops.count op = ((chainSlots c q).map Slot.op).count op := fun op ho => by
    rw [hops, List.count_append]
    cases op with
    | rdDir | wrDir | rdLvl | wrLvlInit => cases ho
    | wrHigh | wrLow | dwell => exact Nat.zero_add _
  refine ⟨by rw [hops]; rfl, ?_, once .rdDir rfl, once .rdLvl rfl, once .wrDir rfl, ?_, (later .dwell rfl).trans dwells⟩
  · rw [hops, List.length_append, List.length_map, ticks, bitTicks, ← Nat.add_assoc, ← Nat.add_assoc]
    rfl
  · rw [init, later .wrHigh rfl, later .wrLow rfl]
    omega

end Sys2Proof.Machine
end

section
/-! PROOFS. CORE_WRITE entered directly, its failures and its loop as the sequencer's steps, an accepted WRITE to its
completion, and the progress of a busy engine (45_host_operations.md R181 to R192, R195). -/

namespace Sys2Proof.Machine

/-! ## CORE_WRITE up to its loop -/

theorem execCoreWrite_going {s t : State} (h : enterCore s = .next (.going t)) :
    execCoreWrite s = runList runAndCount (mprog t.cfg t.latch) t := by
  rw [execCoreWrite, h, thenGo_going, settle_going_out]

theorem execCoreWrite_raise {s u : State} {e : Failure} (h : mapPin s.latch.bank s.latch.pin s = raise e u) :
    execCoreWrite s = .next (failWith e u) := by
  rw [execCoreWrite, enterCore, h, thenGo_raise, thenGo_raise, settle_raise]

theorem execCoreWrite_refused {s : State} {r : Refusal} (h : mapPin s.latch.bank s.latch.pin s = .refused r) :
    execCoreWrite s = .refused r := by
  rw [execCoreWrite, enterCore, h, thenGo_refused, thenGo_refused, settle_refused]

/-- R151: with its pin mapped, CORE_WRITE of position 0 has no meaning. -/
theorem execCoreWrite_positionZero {s u : State} (h : mapPin s.latch.bank s.latch.pin s = .next (.going u))
    (hp : u.latch.pos = 0) : execCoreWrite s = .refused .chainPositionZero := by
  rw [execCoreWrite, enterCore, h, thenGo_going, if_pos hp, thenGo_refused, settle_refused]

/-- The state in which the loop of CORE_WRITE starts once its pair `x` is acquired: the old pair released, the new one held and
bound, UPC and NOW at 0. -/
def entered (s : State) (x : Binding) (rest : List Bool) : State :=
  { s with
    binding := some x, held := heldOf (some x), upc := 0, now := 0, acqDraws := rest
    traceRev := .acq x.lvl true :: .acq x.dir true :: ((releaseEvents s.binding).reverse ++ s.traceRev) }

theorem entered_trace (s : State) (x : Binding) (rest : List Bool) :
    (entered s x rest).trace = s.trace ++ releaseEvents s.binding ++ [.acq x.dir true, .acq x.lvl true] := by
  simp [entered, State.trace]

theorem enterCore_granted {s : State} {x : Binding} {rest : List Bool} (hs : Releasable s)
    (hr : resolve s.cfg s.latch.bank.toNat s.latch.pin.toNat = .found x) (ha : s.acqDraws = true :: true :: rest)
    (hp : s.latch.pos ≠ 0) : enterCore s = .next (.going (entered s x rest)) := by
  rw [enterCore, mapPin_granted hr hs ha, thenGo_going, if_neg hp]
  rfl

/-- Settles O45: a failure of CORE_WRITE is one of its mapping part, before the position is looked at. -/
theorem coreWriteFailuresTearDown : Obligations.CoreWriteFailuresTearDown := by
  refine fun s => ⟨fun h => execCoreWrite_raise (mapPin_outOfRange h),
    fun hb hp hstep => execCoreWrite_refused (mapPin_noRegister hb hp hstep),
    fun x rest hs hr => ⟨fun ha => ?_, fun ha => ?_⟩⟩
  · exact ⟨_, execCoreWrite_raise ((mapPin_found hr hs).trans (acquirePair_noDir ha)),
      by simp [failWith, Failure.status, State.trace], rfl⟩
  · exact ⟨_, execCoreWrite_raise ((mapPin_found hr hs).trans (acquirePair_noLvl rfl ha)),
      by simp [failWith, Failure.status, State.trace], rfl⟩

/-! ## The loop -/

/-- Settles O46: each turn of the loop is a step, from UPC = 0 to the end of the micro-program. -/
theorem sequencerRefinesCoreWrite : Obligations.SequencerRefinesCoreWrite := by
  intro s t hb h
  obtain ⟨-, -, -, going⟩ := enterCore_frame h
  obtain ⟨hbusy, -, -, hpos, hupc, -⟩ := going t rfl
  have whole : (mprog t.cfg t.latch).drop t.upc = mprog t.cfg t.latch ++ [] := by rw [hupc, List.drop_zero, List.append_nil]
  exact (run_turns (hbusy.trans hb) hpos whole).trans (execCoreWrite_going h).symm

/-- The pin's bits of the word that a micro-program leaves in TEMP (R185). -/
theorem clearPin_enablePin_bits (w : Word) (n : Fin 16) :
    (clearPin (enablePin w n) n).getLsbD n = false ∧ (clearPin (enablePin w n) n).getLsbD (n + 16) = true := by
  rw [clearPin_bit _ _ (by omega), clearPin_bit _ _ (by omega), if_pos rfl, if_neg (by omega)]
  exact ⟨rfl, (enablePin_pin_mask w n).2⟩

/-- The whole micro-program on a bound pin, from NOW = 0, in either mode: the pin is low outside the test mode and high in it,
where the record gets the waveform (R185, R190; 41_pulse_primitives.md R123). -/
theorem runSlots_mprog_either {s : State} {b : Binding} {testing : Bool} (q : Request) (hb : s.binding = some b)
    (hok : BindingOk s.cfg b) (hc : s.cfg.wf) (hn : s.now = 0) (ht : s.testing = testing) :
    ∃ t w, runSlots (mprog s.cfg q) s = .next t ∧ dataHalf w = regData s.mem b.lvl ∧
      t.temp = clearPin (enablePin w b.off) b.off ∧ pinLevel t.mem b = some testing ∧
      t.recordRev = (if testing then wave s.cfg (wireBits q.pos.toNat q.r q.g q.b) else []).reverse ++ s.recordRev ∧
      SameBitsBut b.off b.dir s.mem t.mem ∧ SameBitsBut b.off b.lvl s.mem t.mem ∧ SameOutside b.dir b.lvl s.mem t.mem ∧
      .rd b.lvl w ∈ t.trace ∧
      t = { s with
        now := (mprog s.cfg q).length - 4, temp := t.temp, dtmp := t.dtmp, mem := t.mem, traceRev := t.traceRev
        recordRev := t.recordRev, upperDraws := t.upperDraws, drawCount := t.drawCount } := by
  have ticks : s.now + (chainSlots s.cfg q).length = (mprog s.cfg q).length - 4 := by rw [hn, mprog_length]; omega
  cases testing with
  | true =>
    obtain ⟨v, w, m, l, n, hrun, -, hw, hpin, hdir, hlvl, hout⟩ :=
      runSlots_mprog_testing q hb hok.dir_isRegister hok.lvl_isRegister hok.dir_eq ht hc
    rw [ticks] at hrun
    exact ⟨_, w, hrun, hw, rfl, hpin, rfl, hdir, hlvl, hout, by simp [State.trace], rfl⟩
  | false =>
    obtain ⟨v, w, m, l, n, hrun, -, hw, hpin, hdir, hlvl, hout, -⟩ :=
      runSlots_mprog q hb hok.dir_isRegister hok.lvl_isRegister hok.dir_eq ht hc
    rw [ticks] at hrun
    exact ⟨_, w, hrun, hw, rfl, hpin, rfl, hdir, hlvl, hout, by simp [State.trace], rfl⟩

/-- Settles O44: the pair is mapped, and the loop is the micro-program with UPC counted. -/
theorem coreWriteRunsTheWholeMicroProgram : Obligations.CoreWriteRunsTheWholeMicroProgram := by
  intro s x rest hs hc hr ha
  refine ⟨fun hp => execCoreWrite_positionZero (mapPin_granted hr hs ha) hp, fun hp => ?_⟩
  obtain ⟨t, w, hrun, -, htemp, hpin, hrecord, hdir, hlvl, hout, -, heq⟩ :=
    runSlots_mprog_either (s := entered s x rest) s.latch rfl (resolve_ok hr) hc rfl rfl
  obtain ⟨low, mask⟩ := clearPin_enablePin_bits w x.off
  have loop : execCoreWrite s = andThen (runSlots (mprog s.cfg s.latch) (entered s x rest)) fun t =>
      .next (t.setUpc (0 + (mprog s.cfg s.latch).length)) :=
    (execCoreWrite_going (enterCore_granted hs hr ha hp)).trans (runList_runAndCount _ _)
  refine ⟨_, loop.trans (congrArg (andThen · _) hrun), hpin, htemp ▸ low, htemp ▸ mask, ?_, hdir, hlvl, hout, ?_⟩
  · exact (congrArg List.reverse hrecord).trans (by rw [List.reverse_append, List.reverse_reverse]; rfl)
  · rw [Nat.zero_add]
    exact congrArg (State.setUpc · (mprog s.cfg s.latch).length) heq

/-! ## A WRITE to its completion -/

theorem completeWrite_trace (s : State) : (completeWrite s).trace = s.trace ++ [.ret .ok] := State.emit_trace _ _

/-- Settles O43: an accepted WRITE has its pin mapped, and its steps are the micro-program and then the completion. -/
theorem writeIsAcceptedAndRunsToCompletion : Obligations.WriteIsAcceptedAndRunsToCompletion := by
  intro s blk q x rest hb hs hc hq hok hr ha
  refine ⟨entered (State.setLatch (s.setBusy true) q) x rest, execWrite_granted hb hs hq hok hr ha, entered_trace _ _ _, rfl,
    fun ht => ?_⟩
  obtain ⟨t, w, hrun, hw, htemp, hpin, hrecord, hdir, hlvl, hout, hread, heq⟩ :=
    runSlots_mprog_either (s := entered (State.setLatch (s.setBusy true) q) x rest) q rfl (resolve_ok hr) hc rfl ht
  have steps := (run_mprog (s := entered (State.setLatch (s.setBusy true) q) x rest) rfl hok.pos_ne_zero rfl).trans
    (congrArg (andThen · _) hrun)
  refine ⟨_, steps, ⟨w, hw, ?_, htemp.trans (clearPin_enablePin w x.off)⟩, hpin, hdir, hlvl, hout, ?_, ?_⟩
  · rw [completeWrite_trace]
    exact List.mem_append_left _ hread
  · rw [completeWrite_trace, List.getLast?_concat]
  · rw [hrecord] at heq
    exact congrArg (fun u => completeWrite (u.setUpc (mprog s.cfg q).length)) heq

/-! ## Progress -/

/-- A turn of the loop completes on a bound pin, and changes what its micro-operation changes and UPC. -/
theorem runAndCount_completes {s : State} {b : Binding} (hb : s.binding = some b) (hok : BindingOk s.cfg b) (x : Slot) :
    ∃ t, MicroFrame s t ∧ runAndCount x s = .next (t.setUpc (s.upc + 1)) := by
  have note := noteMark_frame x s
  obtain ⟨t, ht⟩ := runMicro_completes (note.binding.trans hb) (note.cfg ▸ hok) x.op
  have frame : MicroFrame s t := note.trans (runMicro_frame ht)
  refine ⟨t, frame, ?_⟩
  rw [runAndCount, runSlot, ht, andThen_next, frame.upc]

/-- Settles O51: a busy engine turns the loop once more, or completes its WRITE. -/
theorem busyEngineRunsToCompletion : Obligations.BusyEngineRunsToCompletion := by
  intro s hi hb
  rcases busyStep_cases hi hb with ⟨x, hx, hs⟩ | ⟨hu, hs⟩
  · obtain ⟨-, ⟨b, hbind, -⟩, -⟩ := hi.busyOk hb
    obtain ⟨t, frame, hturn⟩ := runAndCount_completes hbind (hi.bindingOk b hbind) x
    have inside : s.upc < (mprog s.cfg s.latch).length := (List.getElem?_eq_some_iff.mp hx).1
    exact ⟨_, hs.trans hturn, fun _ => ⟨rfl, frame.busy.trans hb, frame.latch, frame.binding, frame.held, frame.status,
      frame.cfg, frame.inbox⟩, fun h => absurd h inside.ne⟩
  · exact ⟨_, hs, fun h => absurd hu h.ne, fun _ => rfl⟩

end Sys2Proof.Machine
end

section
/-! PROOFS. The waveform an accepted WRITE puts on the line, the colours the LED chain shows after a conformant one, and the
conformance of the nominal line (46_line_and_receiver.md R210 to R216). -/

namespace Sys2Proof.Machine

/-! ## The waveform in the trace (R210) -/

@[simp] theorem setPin_enablePin (w : Word) (off : Fin 16) : setPin (enablePin w off) off = enablePin w off :=
  eq_of_bits fun n hn => by
    rw [setPin_bit _ _ hn, enablePin_bit _ _ hn]
    by_cases h : n = off.val <;> simp [h]

/-- The events of a chain after WR_LVL_INIT, whose word drives the pin high. -/
theorem chainEvents_cases {c : Config} {q : Request} {b : Binding} {w : Word} {e : Event}
    (he : e ∈ eventsOf b (enablePin w b.off) ((chainSlots c q).map Slot.op)) :
    e = .dwell ∨ e = .wr b.lvl (enablePin w b.off) ∨ e = .wr b.lvl (clearPin (enablePin w b.off) b.off) := by
  rcases eventsOf_mem he with ⟨hdwell, -⟩ | hhigh | hlow
  · exact .inl hdwell
  · exact .inr (.inl (hhigh.trans (by rw [setPin_enablePin])))
  · exact .inr (.inr hlow)

/-- The events of a chain show its waveform, whatever the level before it. -/
theorem traceLevels_chainEvents {c : Config} (hc : c.wf) (q : Request) (b : Binding) (w : Word) (prev : Bool) :
    traceLevels b prev (eventsOf b (enablePin w b.off) ((chainSlots c q).map Slot.op)) =
      levelsOf (wave c (wireBits q.pos.toNat q.r q.g q.b)) := by
  rw [traceLevels_eventsOf b (enablePin_pin_mask w b.off).2, chainSlots, opLevels_prims hc, chainPrims_wave]

/-- The trace of the micro-program's steps and the completion, from the start of an accepted WRITE (R185, R190). -/
theorem run_mprog_trace {s u : State} {b : Binding} (hbusy : s.busy = true) (hpos : s.latch.pos ≠ 0) (hupc : s.upc = 0)
    (hb : s.binding = some b) (hok : BindingOk s.cfg b) (ht : s.testing = false) (hc : s.cfg.wf)
    (hrun : run ((mprog s.cfg s.latch).length + 1) s = .next u) :
    ∃ v w, u.trace = s.trace ++ [.rd b.dir v, .wr b.dir (enablePin v b.off), .rd b.lvl w, .wr b.lvl (enablePin w b.off)] ++
      eventsOf b (enablePin w b.off) ((chainSlots s.cfg s.latch).map Slot.op) ++ [.ret .ok] := by
  obtain ⟨v, w, m, l, n, hslots, -⟩ :=
    runSlots_mprog s.latch hb hok.dir_isRegister hok.lvl_isRegister hok.dir_eq ht hc
  rw [run_mprog hbusy hpos hupc, hslots, andThen_next] at hrun
  cases hrun
  refine ⟨v, w, ?_⟩
  rw [completeWrite_trace]
  simp [State.trace]

/-- Settles O55: the steps of the accepted WRITE are the configuration, the chain's events and the completion. -/
theorem writePutsTheWaveformOnTheLine : Obligations.WritePutsTheWaveformOnTheLine := by
  intro s blk q x rest t u hb hs hc ht hq hok hr ha hw hrun
  obtain rfl : entered (State.setLatch (s.setBusy true) q) x rest = t :=
    Host.Outcome.next.inj ((execWrite_granted hb hs hq hok hr ha).symm.trans hw)
  obtain ⟨v, w, htrace⟩ := run_mprog_trace (s := entered (State.setLatch (s.setBusy true) q) x rest) rfl hok.pos_ne_zero rfl
    rfl (resolve_ok hr) ht hc hrun
  exact ⟨v, w, _, htrace, fun _ he => chainEvents_cases he, traceLevels_chainEvents hc q x w true⟩

/-! ## The colours of a conformant WRITE (R214 to R216) -/

/-- After a conformant waveform the last latched burst is its bits, each LED's frame taken from them (R215). -/
theorem shownAfterWrite_conformant {bits : List Bool} {line : List Interval} (h : conformant bits line = true) (k : Nat) :
    shownAfterWrite bits line k = ledFrame bits k := by
  rw [shownAfterWrite, if_pos h]
  match line, h with
  | (false, t) :: rest, h =>
    obtain ⟨hreset, hpulses⟩ := Bool.and_eq_true_iff.mp h
    have symbols : readLine ((false, t) :: rest) = .latch :: (bits.map .data ++ [.latch]) := by
      rw [readLine, readLow, if_pos hreset, readLine_conforming bits rest hpulses]
      rfl
    have bursts : latchedBursts [] (readLine ((false, t) :: rest)) = [[], bits.map .data] := by
      rw [symbols, latchedBursts, latchedBursts_data]
      rfl
    rw [ledShows, bursts]
    simp [burstBits_data]

/-- An LED takes the whole frame that stands behind the frames of the LEDs before it. -/
theorem ledFrame_of_append {before frame after : List Bool} {k : Nat} (hbefore : before.length = 24 * (k - 1))
    (hframe : frame.length = 24) : ledFrame (before ++ (frame ++ after)) k = some (colorOfFrame frame) := by
  have taken : ((before ++ (frame ++ after)).drop (24 * (k - 1))).take 24 = frame := by
    rw [← hbefore, List.drop_left, ← hframe, List.take_left]
  simp only [ledFrame, taken, hframe, if_true]

/-- An LED that the bits do not reach takes no frame. -/
theorem ledFrame_of_length_le {bits : List Bool} {k : Nat} (h : bits.length ≤ 24 * (k - 1)) : ledFrame bits k = none := by
  rw [ledFrame, List.drop_eq_nil_of_le h]
  rfl

/-- A frame's three bytes as a colour: green, red, blue (R215). -/
theorem colorOfFrame_bytes (r g b : Byte) :
    colorOfFrame (bitsOfByte g ++ bitsOfByte r ++ bitsOfByte b) = { r := r, g := g, b := b } := by
  have bytes : colorOfFrame (bitsOfByte g ++ bitsOfByte r ++ bitsOfByte b) =
      { r := byteOfBits (bitsOfByte r), g := byteOfBits (bitsOfByte g), b := byteOfBits (bitsOfByte b) } := rfl
  simp only [bytes, byteOfBits_bitsOfByte]

theorem ledFrame_wireBits_before {p k : Nat} (r g b : Byte) (hk : 1 ≤ k) (hkp : k < p) :
    ledFrame (wireBits p r g b) k = some { r := 0, g := 0, b := 0 } := by
  have black : colorOfFrame (List.replicate 24 false) = { r := 0, g := 0, b := 0 } := colorOfFrame_bytes 0 0 0
  have split : 24 * (p - 1) = 24 * (k - 1) + (24 + 24 * (p - 1 - k)) := by omega
  rw [wireBits_eq, split, List.replicate_add, List.replicate_add, List.append_assoc, List.append_assoc,
    ledFrame_of_append List.length_replicate List.length_replicate, black]

theorem ledFrame_wireBits_target (p : Nat) (r g b : Byte) :
    ledFrame (wireBits p r g b) p = some { r := r, g := g, b := b } := by
  rw [wireBits_eq, ← List.append_nil (bitsOfByte g ++ bitsOfByte r ++ bitsOfByte b),
    ledFrame_of_append List.length_replicate rfl, colorOfFrame_bytes]

/-- Settles O56: the receiver reads the bits back, and cuts them into the LEDs' frames. -/
theorem conformantWriteShowsTheColour : Obligations.ConformantWriteShowsTheColour := by
  intro c d p r g b _ hp bits line hconf
  refine ⟨fun k hk hkp => ?_, ?_, fun k hpk => ?_⟩ <;> rw [shownAfterWrite_conformant hconf]
  · exact ledFrame_wireBits_before r g b hk hkp
  · exact ledFrame_wireBits_target p r g b
  · exact ledFrame_of_length_le (by rw [wireBits_length r g b hp]; omega)

/-! ## The nominal line (R213) -/

/-- R7 (c): the nominal durations of a bit's phases lie in its bands, and that of a reset is a reset. -/
theorem nominal_bands {c : Config} (h : c.nominal) :
    (∀ x, inHighBand x (highTicks c x * c.tickNs) = true) ∧ (∀ x, inLowBand x (lowTicks c x * c.tickNs) = true) ∧
      isResetLow (c.nrst * c.tickNs) = true := by
  obtain ⟨h0h, h0l, h1h, h1l, hrst⟩ := h
  refine ⟨fun x => ?_, fun x => ?_, decide_eq_true hrst⟩
  · cases x
    · exact decide_eq_true h0h
    · exact decide_eq_true h1h
  · cases x
    · exact decide_eq_true h0l
    · exact decide_eq_true h1l

/-- A longer low interval than a reset is a reset. -/
theorem isResetLow_mono {t t' : Duration} (h : isResetLow t = true) (hle : t ≤ t') : isResetLow t' = true :=
  decide_eq_true ((of_decide_eq_true h).trans_le hle)

/-- Each phase of a bit lasts a tick at least (R6). -/
theorem highTicks_lowTicks_pos {c : Config} (hc : c.wf) (x : Bool) : 1 ≤ highTicks c x ∧ 1 ≤ lowTicks c x := by
  obtain ⟨-, -, -, -, h0h, h0l, h1h, h1l, -, -⟩ := hc
  cases x
  · exact ⟨h0h, h0l⟩
  · exact ⟨h1h, h1l⟩

/-- A run of one level begins with that level. -/
theorem eq_of_mem_head?_run {l y : Bool} {n : Nat} {ls : List Bool} (hn : 1 ≤ n)
    (hy : y ∈ (List.replicate n l ++ ls).head?) : y = l := by
  rw [List.head?_append, List.head?_replicate, if_neg (by omega)] at hy
  exact (Option.some.inj hy).symm

/-- The levels of the bits' pulses, the trailing reset after them. -/
def pulseLevels (c : Config) (bits : List Bool) : List Bool := levelsOf (bits.flatMap (bitWave c) ++ [(false, c.nrst)])

theorem levelsOf_wave (c : Config) (bits : List Bool) :
    levelsOf (wave c bits) = List.replicate c.nrst false ++ pulseLevels c bits := by
  simp [wave, levelsOf, pulseLevels]

theorem pulseLevels_nil (c : Config) : pulseLevels c [] = List.replicate c.nrst false := by
  simp [pulseLevels, levelsOf]

theorem pulseLevels_cons (c : Config) (x : Bool) (bits : List Bool) :
    pulseLevels c (x :: bits) =
      List.replicate (highTicks c x) true ++ (List.replicate (lowTicks c x) false ++ pulseLevels c bits) := by
  simp [pulseLevels, levelsOf, bitWave]

/-- A row of pulses begins high. -/
theorem pulseLevels_head {c : Config} (hc : c.wf) (x : Bool) (bits : List Bool) :
    ∀ y ∈ (pulseLevels c (x :: bits)).head?, y ≠ false := by
  intro y hy
  rw [pulseLevels_cons] at hy
  exact (eq_of_mem_head?_run (highTicks_lowTicks_pos hc x).1 hy).trans_ne (by decide)

/-- One pulse of a line whose ticks all last `T`, what follows it not low. -/
theorem intervals_pulse (T : Duration) (i : Nat) {h l : Nat} (hh : 1 ≤ h) (hl : 1 ≤ l) {ls : List Bool}
    (hls : ∀ y ∈ ls.head?, y ≠ false) :
    intervals (fun _ => T) i (List.replicate h true ++ (List.replicate l false ++ ls)) =
      (true, h * T) :: (false, l * T) :: intervals (fun _ => T) (i + h + l) ls := by
  have low : ∀ y ∈ (List.replicate l false ++ ls).head?, y ≠ true := fun y hy =>
    (eq_of_mem_head?_run hl hy).trans_ne (by decide)
  rw [intervals_run T i h true _ hh low, intervals_run T (i + h) l false ls hl hls]

/-- R213 (b), (c), (d) on the nominal line, bit by bit; the last bit's low phase runs into the reset (R211). -/
theorem pulsesConform_nominal {c : Config} (hc : c.wf) (hn : c.nominal) (x : Bool) (bits : List Bool) (i : Nat) :
    pulsesConform (x :: bits) (intervals (fun _ => c.tickNs) i (pulseLevels c (x :: bits))) = true := by
  obtain ⟨high, low, reset⟩ := nominal_bands hn
  induction bits generalizing x i with
  | nil =>
    obtain ⟨hh, hl⟩ := highTicks_lowTicks_pos hc x
    have tail : isResetLow (((lowTicks c x + c.nrst : Nat) : Duration) * c.tickNs) = true := by
      obtain ⟨-, -, -, -, -, -, -, -, -, htick⟩ := hc
      refine isResetLow_mono reset (mul_le_mul_of_nonneg_right ?_ htick.le)
      exact_mod_cast Nat.le_add_left _ _
    have line := intervals_pulse c.tickNs i hh (Nat.le_add_right_of_le hl : 1 ≤ lowTicks c x + c.nrst) (ls := []) nofun
    rw [List.append_nil, List.replicate_add] at line
    rw [pulseLevels_cons, pulseLevels_nil, line, intervals, pulsesConform, high, tail]
    rfl
  | cons y bits ih =>
    obtain ⟨hh, hl⟩ := highTicks_lowTicks_pos hc x
    rw [pulseLevels_cons, intervals_pulse _ _ hh hl (pulseLevels_head hc y bits)]
    simp only [pulsesConform, high, low, ih, Bool.and_self]

/-- Settles O57: the leading reset, and then the pulses of the bits, of which there is one at least. -/
theorem nominalCalibrationGivesAConformantWave : Obligations.NominalCalibrationGivesAConformantWave := by
  intro c p r g b hc hn hp
  obtain ⟨-, -, reset⟩ := nominal_bands hn
  have hrst : 1 ≤ c.nrst := by
    obtain ⟨-, -, -, -, -, -, -, -, hrst, -⟩ := hc
    exact hrst
  obtain ⟨x, bits, hbits⟩ : ∃ x bits, wireBits p r g b = x :: bits :=
    List.exists_cons_of_length_pos (by rw [wireBits_length r g b hp]; omega)
  rw [hbits, levelsOf_wave, intervals_run _ _ _ _ _ hrst (pulseLevels_head hc x bits), conformant, reset,
    pulsesConform_nominal hc hn]
  rfl

end Sys2Proof.Machine
end

section
/-! PROOFS. What a step of an idle engine touches, how a WRITE fails, and where a step from the invariant stops
(60_exceptions.md R230, R232, R235 to R237, R245). -/

namespace Sys2Proof.Machine

/-! ## The codes of the outcomes (R230) -/

/-- Settles O59: each failure has its status, and each status its code. -/
theorem outcomesHaveTheStatedCodes : Obligations.OutcomesHaveTheStatedCodes :=
  ⟨rfl, fun _ => rfl, fun _ _ => rfl, fun _ => rfl⟩

/-! ## Steps of an idle engine (R237, R245) -/

theorem step_idle {s : State} (hb : s.busy = false) : step s = idleStep s := if_neg (by simp [hb])

theorem idleStep_noCommand {s : State} (hi : s.inbox = []) : idleStep s = .next s := by rw [idleStep, hi]

/-- Settles O6: an idle engine looks at its inbox only, and finds it empty. -/
theorem idleEngineWaits : Obligations.IdleEngineWaits := fun _ hb hi => (step_idle hb).trans (idleStep_noCommand hi)

theorem setInbox_frame (s : State) (q : List Submission) : QuietFrame s (s.setInbox q) :=
  ⟨rfl, rfl, rfl, rfl, rfl, rfl, rfl, ⟨[], rfl, by simp⟩, id⟩

theorem execClose_frame {s t : State} (h : execClose s = .next t) : QuietFrame s t := by
  obtain ⟨u, hu, rfl⟩ := execClose_eq_next h
  exact (releaseBinding_frame hu).toQuietFrame.trans (returnOk_frame u).toQuietFrame

/-- Whatever an idle engine does in a step, it touches nothing outside. -/
theorem idleStep_frame {s t : State} (h : idleStep s = .next t) : QuietFrame s t := by
  rcases idleStep_cases s with ⟨-, hs⟩ | ⟨c, rest, -, ⟨r, hs, -⟩ | hs | hs | ⟨blk, hs⟩⟩ <;> rw [hs] at h
  · cases h
    exact .refl s
  · cases h
  · exact execOpen_eq_next h ▸ (setInbox_frame s rest).trans (returnOk_frame _).toQuietFrame
  · exact (setInbox_frame s rest).trans (execClose_frame h)
  · exact (setInbox_frame s rest).trans (execWrite_frame h).1

theorem QuietFrame.trace {s t : State} (h : QuietFrame s t) :
    ∃ l, t.trace = s.trace ++ l ∧ ∀ e ∈ l, e.outside = false := by
  obtain ⟨l, ht, hl⟩ := h.events
  exact ⟨l.reverse, by simp [State.trace, ht], by simpa using hl⟩

/-- Settles O41: the frame of an idle step. -/
theorem idleStepsNeverTouchTheOutside : Obligations.IdleStepsNeverTouchTheOutside := by
  intro s t hb h
  have frame : QuietFrame s t := idleStep_frame ((step_idle hb).symm.trans h)
  exact ⟨frame.mem, frame.temp, frame.dtmp, frame.trace⟩

/-! ## How a WRITE fails (R235, R236) -/

/-- A failure of an engine that was idle before the command leaves BUSY as it was. -/
theorem failWith_idle {s : State} (hb : s.busy = false) (e : Failure) :
    failWith e s = { s with status := e.status, cause := some e, traceRev := .ret e.status :: s.traceRev } :=
  congrArg (State.setBusy { s with status := e.status, cause := some e, traceRev := .ret e.status :: s.traceRev }) hb.symm

/-- A block of another size fails at once. -/
theorem execWrite_noRequest {s : State} {blk : List Byte} (hb : s.busy = false) (hq : requestOfBlock blk = none) :
    execWrite blk s = .next (failWith (.invalidRequest .size) s) := by
  rw [execWrite, whenIdle_idle hb, acceptWrite, hq]
  rfl

/-- A request that VALIDATE rejects fails with VALIDATE's cause. -/
theorem execWrite_invalid {s : State} {blk : List Byte} {q : Request} {e : Failure} (hb : s.busy = false)
    (hq : requestOfBlock blk = some q)
    (hv : validate q.bank q.pin q.pos (s.setBusy true) = raise e (s.setBusy true)) :
    execWrite blk s = .next (failWith e s) := by
  rw [execWrite, whenIdle_idle hb, acceptWrite, hq]
  exact congrArg (fun o => settle (thenGo o _)) hv

/-- Settles O39: the size check, and then VALIDATE's tests in their order, each before the latch is written. -/
theorem invalidWritesChangeNothingElse : Obligations.InvalidWritesChangeNothingElse := by
  intro s blk hb
  have failed : ∀ {f}, execWrite blk s = .next (failWith (.invalidRequest f) s) → execWrite blk s = .next { s with
      status := .invalidRequest, cause := some (.invalidRequest f), traceRev := .ret .invalidRequest :: s.traceRev } :=
    fun h => h.trans (congrArg _ (failWith_idle hb _))
  refine ⟨fun hlen => failed ?_, fun q hq => ⟨fun hbank => failed ?_, fun hbank hpin => failed ?_,
    fun hbank hpin hpos => failed ?_⟩⟩
  · exact execWrite_noRequest hb (requestOfBlock_of_length_ne hlen)
  · exact execWrite_invalid hb hq (validate_badBank hbank _ _ _)
  · exact execWrite_invalid hb hq (validate_badPin hbank hpin _ _)
  · exact execWrite_invalid hb hq (validate_badPosition hbank hpin hpos)

/-- A request in range is latched, and CORE_WRITE begins (R181, R183). -/
theorem execWrite_valid {s : State} {blk : List Byte} {q : Request} (hb : s.busy = false) (hq : requestOfBlock blk = some q)
    (hok : RequestOk s.cfg q) : execWrite blk s = settle (enterCore (State.setLatch (s.setBusy true) q)) := by
  rw [execWrite, whenIdle_idle hb, acceptWrite, hq]
  simp only [validate_ok (s := s.setBusy true) hok, thenGo_going]

theorem execWrite_raise {s u : State} {blk : List Byte} {q : Request} {e : Failure} (hb : s.busy = false)
    (hq : requestOfBlock blk = some q) (hok : RequestOk s.cfg q)
    (h : mapPin q.bank q.pin (State.setLatch (s.setBusy true) q) = raise e u) :
    execWrite blk s = .next (failWith e u) := by
  rw [execWrite_valid hb hq hok, enterCore, State.setLatch_latch, h, thenGo_raise, settle_raise]

theorem execWrite_refused {s : State} {blk : List Byte} {q : Request} {r : Refusal} (hb : s.busy = false)
    (hq : requestOfBlock blk = some q) (hok : RequestOk s.cfg q)
    (h : mapPin q.bank q.pin (State.setLatch (s.setBusy true) q) = .refused r) :
    execWrite blk s = .refused r := by
  rw [execWrite_valid hb hq hok, enterCore, State.setLatch_latch, h, thenGo_refused, settle_refused]

/-- Settles O40: RESOLVE refuses before the old pair is released, an acquisition fails after it. -/
theorem unavailableWritesLeaveNothingHeld : Obligations.UnavailableWritesLeaveNothingHeld := by
  intro s blk q hb hs hq hok
  have ⟨hbank, hpin, _⟩ := hok
  refine ⟨fun hstep => execWrite_refused hb hq hok (mapPin_noRegister hbank hpin hstep), fun x rest hr => ?_⟩
  have mapped := mapPin_found (s := State.setLatch (s.setBusy true) q) hr hs
  refine ⟨fun ha => ?_, fun ha => ?_⟩
  · refine ⟨_, execWrite_raise hb hq hok (mapped.trans (acquirePair_noDir ha)),
      by simp [failWith, Failure.status, State.trace], ?_⟩
    exact failWith_idle (s := { s with
      latch := q, binding := none, held := [], acqDraws := rest
      traceRev := .acq x.dir false :: ((releaseEvents s.binding).reverse ++ s.traceRev) }) hb _
  · refine ⟨_, execWrite_raise hb hq hok (mapped.trans (acquirePair_noLvl rfl ha)),
      by simp [failWith, Failure.status, State.trace], ?_⟩
    exact failWith_idle (s := { s with
      latch := q, binding := none, held := [], acqDraws := rest
      traceRev := .rel x.dir :: .acq x.lvl false :: .acq x.dir true ::
        ((releaseEvents s.binding).reverse ++ s.traceRev) }) hb _

/-! ## Where a step from the invariant stops (R232) -/

/-- R102: the only pins in range without a register. -/
theorem pin_without_register {c : Config} (hc : c.wf) {pin : Nat} (hp : pin ≤ 31) (hstep : pinStep c pin > 1) :
    c.halfDiv = 15 ∧ (pin = 30 ∨ pin = 31) := by
  obtain ⟨hdiv | hdiv, -⟩ := hc <;> rw [pinStep, hdiv] at hstep
  · exact ⟨hdiv, by omega⟩
  · omega

/-- The causes for which a step from the invariant is refused: the submission is no command, or its pin has no register. -/
def RefusedByRule (c : Config) (r : Refusal) : Prop :=
  r = .noSuchCommand ∨ r = .operandOnHook ∨
    ∃ pin, r = .noRegisterForPin pin ∧ c.halfDiv = 15 ∧ (pin.toNat = 30 ∨ pin.toNat = 31)

theorem execWrite_answers {s : State} (hi : EngineInv s) (hb : s.busy = false) (blk : List Byte) :
    (∃ t, execWrite blk s = .next t) ∨ ∃ r, execWrite blk s = .refused r ∧ RefusedByRule s.cfg r := by
  rcases execWrite_cases blk hb hi.releasable with
    ⟨e, q, hw⟩ | ⟨pin, hw, hp, hstep⟩ | ⟨q, x, l, n, -, -, -, hw | hw | hw⟩
  · exact .inl ⟨_, hw⟩
  · exact .inr ⟨_, hw, .inr (.inr ⟨pin, rfl, pin_without_register hi.cfgOk hp hstep⟩)⟩
  all_goals exact .inl ⟨_, hw⟩

theorem idleStep_answers {s : State} (hi : EngineInv s) (hb : s.busy = false) :
    (∃ t, idleStep s = .next t) ∨ ∃ r, idleStep s = .refused r ∧ RefusedByRule s.cfg r := by
  rcases idleStep_cases s with ⟨-, hs⟩ | ⟨c, rest, -, ⟨r, hs, hr⟩ | hs | hs | ⟨blk, hs⟩⟩ <;> rw [hs]
  · exact .inl ⟨s, rfl⟩
  · exact .inr ⟨r, rfl, hr.imp_right .inl⟩
  · exact .inl ⟨_, openOnlyReturnsOk (s.setInbox rest) hb⟩
  · obtain ⟨t, ht, -⟩ := closeReleasesTheBinding (s.setInbox rest) hb hi.releasable
    exact .inl ⟨t, ht⟩
  · exact execWrite_answers (hi.setInbox rest) hb blk

/-- A step from the invariant answers a next state, or it is an idle engine's refusal. -/
theorem EngineInv.step_answers {s : State} (hi : EngineInv s) :
    (∃ t, step s = .next t) ∨ ∃ r, step s = .refused r ∧ s.busy = false ∧ RefusedByRule s.cfg r := by
  cases hb : s.busy with
  | true =>
    obtain ⟨t, ht, -⟩ := busyEngineRunsToCompletion s hi hb
    exact .inl ⟨t, ht⟩
  | false =>
    rw [step_idle hb]
    exact (idleStep_answers hi hb).imp_right fun ⟨r, hr, rule⟩ => ⟨r, hr, rfl, rule⟩

/-- Settles O48: a busy engine always has a next state, and so have OPEN and CLOSE in an idle one; a WRITE has one, or is
refused for its pin. -/
theorem noStepFromTheInvariantFaults : Obligations.NoStepFromTheInvariantFaults := by
  intro s hi
  rcases hi.step_answers with ⟨t, ht⟩ | ⟨r, hr, refused⟩
  · exact ⟨fun f h => (by cases ht.symm.trans h), fun r h => (by cases ht.symm.trans h)⟩
  · refine ⟨fun f h => (by cases hr.symm.trans h), fun r' h => ?_⟩
    cases hr.symm.trans h
    exact refused

end Sys2Proof.Machine
end
